-- ==== Sys2Proof/Word.lean ====
section
/-! DEFINITION. The plain word types of the EFU: a bus word, a byte, a Sample (spec 00_scope R9, R14). -/

namespace Sys2Proof

/-- A byte, the smallest addressable unit of the host space (20_memory R50). -/
abbrev Byte := BitVec 8

/-- A 32-bit word: a register value, a command word, a frame seen through a window. -/
abbrev Word := BitVec 32

/-- A Sample: "16-bit signed integer", range [-32768, 32767] (10_state R32).
`BitVec.toInt` is the spec's `s16`, `BitVec.ofInt 16` its `u16` (00_scope R9). -/
abbrev Sample := BitVec 16

end Sys2Proof
end

