-- ==== Sys2Proof/Config.lean ====
section
/-! DEFINITION. The configuration of an EFU (00_scope R6, R7), its OPEN parameters and the free values (93_implementation_defined). -/

namespace Sys2Proof

/-- A filter coefficient: a binary32 image whose exponent field is not 255.
So a NaN or an infinity is no coefficient at all, which is 00_scope R8(d). -/
structure Coef where
  neg  : Bool
  expo : Fin 255
  frac : BitVec 23
deriving DecidableEq, Repr, Inhabited

/-- The sample rates of 00_scope R6; `RATE` enters no rule of the EFU (41_echo_filter R147). -/
inductive Rate
  | hz44100
  | hz48000
deriving DecidableEq, Repr, Inhabited

/-- The parameters of 00_scope R6 that a configuration fixes.
`CHANNELS`, `SAMPLE_BITS` and `FLT` are not variable (R6, 92 D4) and stand as constants of the model. -/
structure Config where
  /-- `BUFFER_SIZE`: samples per chunk. -/
  bufferSize : Nat
  /-- `DELAY`: the delay unit in frames. -/
  delay : Nat
  /-- `M`: feed-forward order. -/
  m : Nat
  /-- `N`: feedback order. -/
  n : Nat
  /-- `B[0..M]`: the feed-forward multipliers. -/
  b : List Coef
  /-- `A[0..N-1]`: the feedback multipliers. -/
  a : List Coef
  /-- `EFU_BASE`: the byte address at which the host sees the EFU; it enters no rule (93 section 3). -/
  efuBase : Nat
  /-- `RATE`: informative only (41_echo_filter R147). -/
  rate : Rate
deriving DecidableEq, Repr

/-- `CHANNELS` (00_scope R6): stereo, not variable. -/
def Config.channels : Nat := 2

/-- `SAMPLE_BITS` (00_scope R6): not variable. -/
def Config.sampleBits : Nat := 16

/-- `SAMPLE_BYTES` (00_scope R7). -/
def Config.sampleBytes : Nat := Config.sampleBits / 8

/-- `FRAME_BYTES` (00_scope R7). -/
def Config.frameBytes : Nat := Config.channels * Config.sampleBytes

/-- `CHUNK_FRAMES` (00_scope R7). -/
def Config.chunkFrames (c : Config) : Nat := c.bufferSize / Config.channels

/-- `CHUNK_BYTES` (00_scope R7). -/
def Config.chunkBytes (c : Config) : Nat := c.bufferSize * Config.sampleBytes

/-- `MAX_FF_DELAY` in frames (00_scope R7). -/
def Config.maxFfDelay (c : Config) : Nat := c.m * c.delay

/-- `MAX_FB_DELAY` in frames (00_scope R7). -/
def Config.maxFbDelay (c : Config) : Nat := c.n * c.delay

/-- The OPEN coefficients `B[k]` of the reference configuration (00_scope R6, 90_conflicts C1):
an uninterpreted constant, so that nothing can be proved of a value (log 2). -/
opaque Config.openB : Nat → Coef

/-- The OPEN coefficients `A[j]` of the reference configuration (00_scope R6; log 2). -/
opaque Config.openA : Nat → Coef

/-- The OPEN base address `EFU_BASE` (00_scope R6, 92 D7; log 18). -/
opaque Config.openBase : Nat

/-- The stream's rate, "one of 44100, 48000" (00_scope R6; log 18). -/
opaque Config.openRate : Rate

/-- FREE VALUE: the Sample `clip` yields for a NaN, "a free draw" (40_clipper R104; 93 I1, I2; log 6).
The argument is the draw's number, so that each draw is a new one. -/
opaque Config.freeSample : Nat → Sample

/-- FREE VALUE: the value a refused read returns (60_exceptions R181; 93 I3, I4; log 6). -/
opaque Config.freeRead : Nat → Word

/-- The three operations of `FLT` (00_scope R11), as the free value of a NaN result is told apart by them. -/
inductive FltOp
  | mul
  | add
  | sub
deriving DecidableEq, Repr

/-- FREE VALUE: the sign of the NaN an operation gives, and its fraction field less one, for the operands' images.
41_echo_filter R134 says that the result is a NaN and not which (log 9). -/
opaque Config.freeNaN : FltOp → Word → Word → Bool × Fin 0x7FFFFF

/-- The reference configuration of 00_scope R6, its OPEN parameters open. -/
def Config.reference : Config where
  bufferSize := 65536
  delay := 132
  m := 3
  n := 3
  b := [Config.openB 0, Config.openB 1, Config.openB 2, Config.openB 3]
  a := [Config.openA 0, Config.openA 1, Config.openA 2]
  efuBase := Config.openBase
  rate := Config.openRate

end Sys2Proof
end

