-- ==== Sys2Proof/Syntax.lean ====
section
/-! DEFINITION. The commands of the EFU, one constructor per row of spec/opcode_table.json (30_encoding R81). -/

namespace Sys2Proof

/-- The five commands a host writes to `CMD` (00_scope R2, 30_encoding R81).
No command has a field: its operands are implicit (R80, R82). -/
inductive Instr
  /-- `INIT`, 0x10000000: stream start (42_buffer_ring R164). -/
  | init
  /-- `STEP`, 0x20000000: compute one frame (41_echo_filter R135). -/
  | step
  /-- `RUN`, 0x30000000: compute every remaining frame of the chunk (41_echo_filter R137). -/
  | run
  /-- `ADV`, 0x40000000: advance the phase (42_buffer_ring R163). -/
  | adv
  /-- `CLIP`, 0x50000000: apply the clipper to `CLIPIN` (40_clipper R108). -/
  | clip
deriving DecidableEq, Repr

end Sys2Proof
end

