-- ==== Sys2Proof/WellFormed.lean ====
section
/-! DEFINITION. What a well-formed command and a well-formed configuration are (30_encoding R80, 00_scope R8). -/

namespace Sys2Proof

/-- A command has no register field, no immediate, no mode field and no length field (30_encoding R80),
so there is nothing an ill-formed command could hold: the check is written arm by arm so that a command
added later must say what it checks. -/
def Instr.wellFormed : Instr → Bool
  | .init => true
  | .step => true
  | .run => true
  | .adv => true
  | .clip => true

/-- 00_scope R8(a): `BUFFER_SIZE` is a positive multiple of `CHANNELS`. -/
def Config.sizeOk (c : Config) : Bool :=
  decide (0 < c.bufferSize) && decide (c.bufferSize % Config.channels = 0)

/-- 00_scope R8(b): no tap reaches further back than the one preceding chunk. -/
def Config.delayOk (c : Config) : Bool :=
  decide (c.maxFfDelay ≤ c.chunkFrames) && decide (c.maxFbDelay ≤ c.chunkFrames)

/-- 00_scope R8(c): `DELAY >= 1`, `M <= 15`, `N <= 16`. -/
def Config.ordersOk (c : Config) : Bool :=
  decide (1 ≤ c.delay) && decide (c.m ≤ 15) && decide (c.n ≤ 16)

/-- 00_scope R6: `b` has `M+1` entries and `a` has `N`. Their finiteness, R8(d), is in the type `Coef`. -/
def Config.coefsOk (c : Config) : Bool :=
  decide (c.b.length = c.m + 1) && decide (c.a.length = c.n)

/-- The constraints every configuration must meet (00_scope R8); a step under any other is refused (log 3). -/
def Config.wellFormed (c : Config) : Bool :=
  c.sizeOk && c.delayOk && c.ordersOk && c.coefsOk

end Sys2Proof
end

