-- ==== Sys2Proof/Decode.lean ====
section
/-! DEFINITION. The command decoder, total on every 32-bit word (30_encoding R80, R81, R83), and the encoder. -/

namespace Sys2Proof

/-- Why a word is none of the five commands (30_encoding R83); the spec calls both `illegal` (log 22). -/
inductive Illegal
  /-- `OPC` is 0x0 or 0x6 .. 0xF. -/
  | reservedOpcode
  /-- `OPC` is 0x1 .. 0x5 and a bit of `ZERO` is set. -/
  | nonzeroZeroField
deriving DecidableEq, Repr

/-- The `OPC` field, bits [31:28] (30_encoding R80). -/
def opcField (w : Word) : BitVec 4 := w.extractLsb' 28 4

/-- The `ZERO` field, bits [27:0] (30_encoding R80). -/
def zeroField (w : Word) : BitVec 28 := w.extractLsb' 0 28

/-- The command an operation code stands for (30_encoding R81). -/
def commandOf (opc : BitVec 4) : Option Instr :=
  if opc = 0x1#4 then some .init
  else if opc = 0x2#4 then some .step
  else if opc = 0x3#4 then some .run
  else if opc = 0x4#4 then some .adv
  else if opc = 0x5#4 then some .clip
  else none

/-- `decode` (30_encoding R83): every 32-bit word is one of the five commands or illegal. -/
def decode (w : Word) : Except Illegal Instr :=
  match commandOf (opcField w) with
  | none => .error .reservedOpcode
  | some i => if zeroField w = 0#28 then .ok i else .error .nonzeroZeroField

/-- The operation code of a command (30_encoding R81). -/
def opcOf : Instr → BitVec 4
  | .init => 0x1#4
  | .step => 0x2#4
  | .run => 0x3#4
  | .adv => 0x4#4
  | .clip => 0x5#4

/-- The command word of a command (30_encoding R81): `OPC` above twenty-eight zero bits. -/
def encode (i : Instr) : Word := opcOf i ++ 0#28

/-- The command this decoder reads from the low `nbits` bits of `w`, the bits above them zero.
A command is one 32-bit word (30_encoding R84), so a word with a higher bit set is no command. -/
def decodeTableWord (nbits w : Nat) : Option Instr :=
  let v := w % 2 ^ nbits
  if v < 2 ^ 32 then
    match decode (BitVec.ofNat 32 v) with
    | .ok i => some i
    | .error _ => none
  else none

end Sys2Proof
end

