-- ==== Sys2Proof/Machine/State.lean ====
section
/-! DEFINITION. The state of the EFU (10_state R20), the model's own fields beside it (log 1), and reset (10_state R37). -/

namespace Sys2Proof.Machine

/-- Why the machine stops. The EFU's own faults are sticky flags of `STATUS` and stop nothing (60_exceptions R181). -/
inductive Fault
  /-- A host access whose address is outside the EFU's range (20_memory R51, 93 I8: "outside the spec").
  Raised by `hostAccess`. Safe: the model stops where the spec says nothing (log 10). -/
  | outsideEfu
deriving DecidableEq, Repr

/-- Why the machine refuses a step. -/
inductive Refusal
  /-- No meaning for the instruction. No arm of `exec` raises it: every command has its meaning. Safe. -/
  | notModelled (mnemonic : String)
  /-- The configuration breaks a constraint of 00_scope R8: "a model refuses a configuration that breaks one".
  Raised by `takeTurn`. Safe (log 3). -/
  | badConfiguration
deriving DecidableEq, Repr

/-- The kind of a bus transaction (30_encoding R88). -/
inductive AccessKind
  | read
  | write
deriving DecidableEq, Repr

/-- A bus transaction `(kind, address, width, data)` (30_encoding R88, 20_memory R52).
`addr` is the byte offset from `EFU_BASE`, `width` the number of bytes, `data` what a write carries (log 16). -/
structure Access where
  kind  : AccessKind
  addr  : Nat
  width : Nat
  data  : Word
deriving DecidableEq, Repr

/-- One step of a host script: a bus access, or `WAIT`, the poll of `STATUS` repeated until it reads
`BUSY = 0` (30_encoding R85, R86; log 19). -/
inductive HostStep
  | access (a : Access)
  | wait
deriving DecidableEq, Repr

/-- Who moves next: the host, the engine (00_scope R12), or the reset event (70_reset R210, 93 I9). -/
inductive Turn
  | host
  | engine
  | reset
deriving DecidableEq, Repr

/-- What the last host access gave back (20_memory R52; log 11). -/
inductive Reply
  /-- No access has completed yet. -/
  | none
  /-- A write, carried out or refused: a write returns nothing. -/
  | done
  /-- The value a read returned, zero-extended to 32 bits. -/
  | value (v : Word)
  /-- A refused read of "a width the bus cannot express, no value" (93 I4). -/
  | noValue
deriving DecidableEq, Repr

/-- Memory: (byte address, byte) pairs in one canonical form, addresses strictly rising and no byte 0.
An unlisted address reads as 0, which every chunk holds at reset (10_state R32, R37). -/
abbrev Memory := List Host.Cell

/-- The machine's state. From `phase` to `chunks` it is the architectural state of 10_state R20,
complete; `cfg` and the fields after it are the model's own (log 1). -/
structure State where
  /-- `PHASE`: the rotation phase (10_state R22). -/
  phase   : Fin 4
  /-- `FRAME`: the next frame the engine computes (10_state R24). -/
  frame   : Nat
  /-- `STATUS.BUSY`: a `RUN` is in progress (10_state R25). -/
  busy    : Bool
  /-- `STATUS.CMDF`: an illegal command word (60_exceptions R182). -/
  cmdf    : Bool
  /-- `STATUS.BUSYF`: a command or forbidden access while `BUSY` (60_exceptions R183). -/
  busyf   : Bool
  /-- `STATUS.SEQF`: a command out of sequence (60_exceptions R184). -/
  seqf    : Bool
  /-- `STATUS.NANF`: `clip` applied to a NaN (60_exceptions R185). -/
  nanf    : Bool
  /-- `STATUS.ACCF`: a bad host access (60_exceptions R186). -/
  accf    : Bool
  /-- `CLIPIN`: the binary32 image of the operand of `CLIP` (10_state R30). -/
  clipin  : Word
  /-- `CLIPOUT`: the Sample the last `CLIP` produced (10_state R30). -/
  clipout : Sample
  /-- The six chunk memories (10_state R32), laid out by `Config.sampleAddr` (log 7). -/
  chunks  : Memory
  /-- MODEL'S OWN: the configuration, which no step changes (10_state R31, 70_reset R212). -/
  cfg     : Config
  /-- MODEL'S OWN: the schedule of agents, the first moves next; empty is read by `nextTurn` (log 4). -/
  turns   : List Turn
  /-- MODEL'S OWN: what the host still has to do, first step first (log 5). -/
  script  : List HostStep
  /-- MODEL'S OWN: what the last host access gave back (log 11). -/
  reply   : Reply
  /-- MODEL'S OWN: how many free values have been drawn (log 6). -/
  draws   : Nat
deriving DecidableEq, Repr

/-- The machine right after reset (10_state R37, 70_reset R210), in the reference configuration (log 2),
with no host script and no schedule (log 4, log 5). -/
def State.reset : State where
  phase   := 0
  frame   := 0
  busy    := false
  cmdf    := false
  busyf   := false
  seqf    := false
  nanf    := false
  accf    := false
  clipin  := 0#32
  clipout := 0#16
  chunks  := []
  cfg     := Config.reference
  turns   := []
  script  := []
  reply   := .none
  draws   := 0

end Sys2Proof.Machine
end

