-- ==== Sys2Proof/Machine/Flags.lean ====
section
/-! DEFINITION. The fault flags and the `STATUS` word (10_state R25, 60_exceptions R180).
The EFU has no arithmetic flag: "no carry, zero, negative or overflow flag" (R25). -/

namespace Sys2Proof.Machine

/-- The five sticky fault flags (60_exceptions R180). -/
inductive FaultFlag
  | cmdf
  | busyf
  | seqf
  | nanf
  | accf
deriving DecidableEq, Repr

/-- The code of a fault: its bit number in `STATUS` (60_exceptions R180). -/
def FaultFlag.code : FaultFlag → Nat
  | .cmdf => 8
  | .busyf => 9
  | .seqf => 10
  | .nanf => 11
  | .accf => 12

/-- The flag in a state. -/
def State.flag (s : State) : FaultFlag → Bool
  | .cmdf => s.cmdf
  | .busyf => s.busyf
  | .seqf => s.seqf
  | .nanf => s.nanf
  | .accf => s.accf

/-- `STATUS.DONE`: "not state: reads 1 exactly when `FRAME = CHUNK_FRAMES`" (10_state R25). -/
def State.doneBit (s : State) : Bool := decide (s.frame = s.cfg.chunkFrames)

/-- Bit `n` of a word, where `x` holds. -/
def bitAt (x : Bool) (n : Nat) : Word := if x then BitVec.ofNat 32 (2 ^ n) else 0#32

/-- The value `STATUS` reads as: `BUSY` bit 0, `DONE` bit 1, the fault flags bits 8 to 12, every other bit 0
(10_state R25). -/
def State.statusWord (s : State) : Word :=
  bitAt s.busy 0 ||| bitAt s.doneBit 1 ||| bitAt s.cmdf 8 ||| bitAt s.busyf 9 ||| bitAt s.seqf 10
    ||| bitAt s.nanf 11 ||| bitAt s.accf 12

end Sys2Proof.Machine
end

