-- ==== Sys2Proof/Machine/Float.lean ====
section
/-! DEFINITION. `FLT`, IEEE 754 binary32, and its operations (41_echo_filter R130, R131, R134; log 8). -/

namespace Sys2Proof.Machine

/-- A value of format `FLT` (41_echo_filter R130). Every finite binary32 value is an integer multiple of
`2^-149`: `fin neg mag` is `mag * 2^-149` with the sign `neg`, so `fin true 0` is -0.0.
A NaN keeps its sign and its fraction field, so that a value is no less than its word (00_scope R11). -/
inductive Flt
  | nan (neg : Bool) (frac : Nat)
  | inf (neg : Bool)
  | fin (neg : Bool) (mag : Nat)
deriving DecidableEq, Repr

/-- +0.0, where every sum starts (41_echo_filter R126, R127). -/
def Flt.zero : Flt := .fin false 0

/-- The value is a NaN (40_clipper R104). -/
def Flt.isNaN : Flt → Bool
  | .nan _ _ => true
  | _ => false

/-- The real value of a finite `FLT` number (0 for the others): what the spec's statements about exact values speak of. -/
def Flt.value : Flt → ℚ
  | .fin true mag => -(mag : ℚ) / 2 ^ 149
  | .fin false mag => (mag : ℚ) / 2 ^ 149
  | _ => 0

/-- A magnitude in units of `2^-149` is one a binary32 number has: a significand of at most 24 bits,
and below the overflow threshold `2^128` (41_echo_filter R130). -/
def magRepresentable (mag : Nat) : Bool :=
  decide (mag % 2 ^ (Nat.log2 mag - 23) = 0) && decide (mag < 2 ^ 277)

/-- The value is one a binary32 image encodes; a NaN's fraction field is 23 bits and not 0 (40_clipper R108). -/
def Flt.representable : Flt → Bool
  | .nan _ frac => decide (frac ≠ 0) && decide (frac < 2 ^ 23)
  | .inf _ => true
  | .fin _ mag => magRepresentable mag

/-- Rounding to binary32 of the exact value `m * 2^-(149 + sh)` with sign `neg`: to nearest, ties to even,
subnormals kept, overflow to an infinity (41_echo_filter R130, R134).
`drop` low bits go, so that 24 significant bits stay and nothing finer than `2^-149` does. -/
def roundFlt (neg : Bool) (m sh : Nat) : Flt :=
  let drop := max sh (Nat.log2 m - 23)
  let q := m / 2 ^ drop
  let r := m % 2 ^ drop
  let up := decide (2 ^ drop < 2 * r) || (decide (2 * r = 2 ^ drop) && decide (q % 2 = 1))
  let mag := (if up then q + 1 else q) * 2 ^ (drop - sh)
  if mag < 2 ^ 277 then .fin neg mag else .inf neg

/-- The exact signed integer, in units of `2^-149`, of a finite value. -/
def signedMag (neg : Bool) (mag : Nat) : Int := if neg then -(mag : Int) else (mag : Int)

/-- `f32` (00_scope R11): a 32-bit word read as a binary32 value: sign bit 31, exponent bits [30:23],
fraction bits [22:0] (41_echo_filter R130, 40_clipper R108). -/
def f32 (w : Word) : Flt :=
  let neg := w.getLsbD 31
  let expo := (w.extractLsb' 23 8).toNat
  let frac := (w.extractLsb' 0 23).toNat
  if expo = 255 then
    if frac = 0 then .inf neg else .nan neg frac
  else if expo = 0 then .fin neg frac
  else .fin neg ((2 ^ 23 + frac) * 2 ^ (expo - 1))

/-- A binary32 image from its three fields. -/
def packWord (neg : Bool) (expo frac : Nat) : Word :=
  BitVec.ofBool neg ++ BitVec.ofNat 8 expo ++ BitVec.ofNat 23 frac

/-- `bits32` (00_scope R11), the inverse of `f32`, on NaNs as on every other value. -/
def bits32 : Flt → Word
  | .nan neg frac => packWord neg 255 frac
  | .inf neg => packWord neg 255 0
  | .fin neg mag =>
    if mag < 2 ^ 23 then packWord neg 0 mag
    else
      let e := Nat.log2 mag - 23
      packWord neg (e + 1) (mag / 2 ^ e - 2 ^ 23)

/-- The NaN that an operation gives for two operands: which one, no rule says (41_echo_filter R134; log 9). -/
def nanResult (op : FltOp) (p q : Flt) : Flt :=
  let image := Config.freeNaN op (bits32 p) (bits32 q)
  .nan image.1 (image.2.val + 1)

/-- The product rounded once, if it is no NaN: a NaN operand or `0 * inf` gives none (41_echo_filter R130, R134). -/
def productFlt : Flt → Flt → Option Flt
  | .nan _ _, _ => none
  | _, .nan _ _ => none
  | .inf x, .inf y => some (.inf (x != y))
  | .inf x, .fin y mag => if mag = 0 then none else some (.inf (x != y))
  | .fin x mag, .inf y => if mag = 0 then none else some (.inf (x != y))
  | .fin x p, .fin y q => some (roundFlt (x != y) (p * q) 149)

/-- The sum rounded once, if it is no NaN: a NaN operand or two infinities of unlike signs give none
(41_echo_filter R130, R134). An exact zero sum is +0.0 unless both operands are negative zeros (log 8). -/
def sumFlt : Flt → Flt → Option Flt
  | .nan _ _, _ => none
  | _, .nan _ _ => none
  | .inf x, .inf y => if x = y then some (.inf x) else none
  | .inf x, .fin _ _ => some (.inf x)
  | .fin _ _, .inf y => some (.inf y)
  | .fin x p, .fin y q =>
    let s := signedMag x p + signedMag y q
    if s = 0 then some (.fin (x && y) 0) else some (roundFlt (decide (s < 0)) s.natAbs 0)

/-- The value with its sign turned. -/
def fneg : Flt → Flt
  | .nan neg frac => .nan (!neg) frac
  | .inf x => .inf (!x)
  | .fin x mag => .fin (!x) mag

/-- `fmul` (00_scope R11, 41_echo_filter R130). -/
def fmul (p q : Flt) : Flt :=
  match productFlt p q with
  | some r => r
  | none => nanResult .mul p q

/-- `fadd` (00_scope R11, 41_echo_filter R130). -/
def fadd (p q : Flt) : Flt :=
  match sumFlt p q with
  | some r => r
  | none => nanResult .add p q

/-- `fsub` (00_scope R11, 41_echo_filter R130): the difference is the sum with the second sign turned. -/
def fsub (p q : Flt) : Flt :=
  match sumFlt p (fneg q) with
  | some r => r
  | none => nanResult .sub p q

/-- `toF` (41_echo_filter R131): the binary32 value equal to a Sample, exactly; `toF(0) = +0.0`. -/
def toF (s : Sample) : Flt := .fin (decide (s.toInt < 0)) (s.toInt.natAbs * 2 ^ 149)

/-- The binary32 image of a coefficient. -/
def coefWord (k : Coef) : Word := packWord k.neg k.expo.val k.frac.toNat

/-- The value of a coefficient. -/
def coefValue (k : Coef) : Flt := f32 (coefWord k)

/-- A word as a coefficient: refused when it is a NaN or an infinity (00_scope R8(d)). -/
def coefOfWord (w : Word) : Option Coef :=
  if h : (w.extractLsb' 23 8).toNat < 255 then
    some ⟨w.getLsbD 31, ⟨(w.extractLsb' 23 8).toNat, h⟩, w.extractLsb' 0 23⟩
  else none

end Sys2Proof.Machine
end

