-- ==== Sys2Proof/Machine/Operands.lean ====
section
/-! DEFINITION. The commands' implicit operands (30_encoding R82): the role map (42_buffer_ring R160), `MAP` (10_state R23), the
tap positions (41_echo_filter R123) and the coefficients (10_state R31). -/

namespace Sys2Proof.Machine

/-- The five roles a chunk can have (00_scope R14), in the order of their windows (20_memory R51). -/
inductive Role
  | currIn
  | prevIn
  | loadOut
  | playOut
  | feedbackOut
deriving DecidableEq, Repr

/-- A physical chunk: `IN[s]`, `s` in 0..1, or `O[s]`, `s` in 0..3 (10_state R32). -/
inductive Slot
  | input (s : Fin 2)
  | output (s : Fin 4)
deriving DecidableEq, Repr

/-- `remap` (42_buffer_ring R160): the physical chunk of each role in phase `c`, "pure lookup table". -/
def remap (c : Fin 4) : Role → Slot
  | .currIn => .input ⟨c.val % 2, Nat.mod_lt _ (by decide)⟩
  | .prevIn => .input ⟨(c.val + 1) % 2, Nat.mod_lt _ (by decide)⟩
  | .loadOut => .output c
  | .playOut => .output ⟨(c.val + 2) % 4, Nat.mod_lt _ (by decide)⟩
  | .feedbackOut => .output ⟨(c.val + 3) % 4, Nat.mod_lt _ (by decide)⟩

/-- The idle slot, which no role names (42_buffer_ring R160, 10_state R34). -/
def idleSlot (c : Fin 4) : Slot := .output ⟨(c.val + 1) % 4, Nat.mod_lt _ (by decide)⟩

/-- A slot's number inside its own set: 0..1 for `IN`, 0..3 for `O` (10_state R23). -/
def Slot.number : Slot → Nat
  | .input s => s.val
  | .output s => s.val

/-- The value `MAP` reads as (10_state R23). -/
def mapWord (c : Fin 4) : Word :=
  BitVec.ofNat 32
    ((remap c .currIn).number + (remap c .prevIn).number * 2 ^ 1 + (remap c .loadOut).number * 2 ^ 2
      + (remap c .playOut).number * 2 ^ 4 + (remap c .feedbackOut).number * 2 ^ 6
      + (idleSlot c).number * 2 ^ 8)

/-- The two channels of a frame (41_echo_filter R121). -/
inductive Channel
  | left
  | right
deriving DecidableEq, Repr

/-- The channel's place in a frame: left 0, right 1 (41_echo_filter R122). -/
def Channel.index : Channel → Nat
  | .left => 0
  | .right => 1

/-- The sample index of `chunk{f, ch}`: `2f + ch` (41_echo_filter R122). -/
def sampleIndex (f : Nat) (ch : Channel) : Nat := Config.channels * f + ch.index

/-- Where a tap reads: a frame of the same chunk or of the preceding one (41_echo_filter R123). -/
inductive TapPos
  | same (f : Nat)
  | preceding (f : Nat)
deriving DecidableEq, Repr

/-- `tappos(n, k)` (41_echo_filter R123). The indices are mathematical integers and nothing wraps (R141):
`d ≤ n` is the signed comparison `n - d >= 0`. -/
def tapPos (c : Config) (n k : Nat) : TapPos :=
  let d := k * c.delay
  if d ≤ n then .same (n - d) else .preceding (c.chunkFrames - (d - n))

/-- `b[k]` (10_state R31). A configuration that R8 allows lists every one the filter asks for (log 3). -/
def coefB (c : Config) (k : Nat) : Flt :=
  match c.b[k]? with
  | some v => coefValue v
  | none => Flt.zero

/-- `a[j]` (10_state R31). -/
def coefA (c : Config) (j : Nat) : Flt :=
  match c.a[j]? with
  | some v => coefValue v
  | none => Flt.zero

end Sys2Proof.Machine
end

