-- ==== Sys2Proof/Machine/Ops.lean ====
section
/-! DEFINITION. The named operations over memory and state: bytes and Samples of the chunk memories, raising a fault, drawing a
free value, accepting a command, and the reset event. -/

namespace Sys2Proof.Machine

/-- One byte of memory; an unlisted address reads as 0 (10_state R32, R37). -/
def Memory.read : Memory → Nat → Byte
  | [], _ => 0#8
  | (k, v) :: t, a => if k = a then v else Memory.read t a

/-- Memory with one byte written, in canonical form again: writing 0 removes the entry. -/
def Memory.write : Memory → Nat → Byte → Memory
  | [], a, v => if v = 0#8 then [] else [(a, v)]
  | (k, w) :: t, a, v =>
    if a < k then (if v = 0#8 then (k, w) :: t else (a, v) :: (k, w) :: t)
    else if a = k then (if v = 0#8 then t else (a, v) :: t)
    else (k, w) :: Memory.write t a v

/-- An address above a lower bound, if there is one. -/
def aboveBound : Option Nat → Nat → Bool
  | none, _ => true
  | some b, k => decide (b < k)

/-- Every address of the list lies above `lo`, the addresses strictly rise, and no byte is 0. -/
def Memory.wfAbove : Option Nat → Memory → Bool
  | _, [] => true
  | lo, (k, v) :: t => aboveBound lo k && decide (v ≠ 0#8) && Memory.wfAbove (some k) t

/-- The canonical form of memory. -/
def Memory.wf (m : Memory) : Bool := Memory.wfAbove none m

/-- The place of a slot in the physical chunk space: `IN[0]`, `IN[1]`, `O[0]` .. `O[3]` (log 7). -/
def Slot.place : Slot → Nat
  | .input s => s.val
  | .output s => 2 + s.val

/-- The byte address of Sample `i` of a slot in the physical chunk space (20_memory R50, R54; log 7). -/
def sampleAddr (c : Config) (sl : Slot) (i : Nat) : Nat :=
  sl.place * c.chunkBytes + Config.sampleBytes * i

/-- The Sample at a byte address: bits [7:0] in the first byte, [15:8] in the second (20_memory R54). -/
def readSampleAt (m : Memory) (a : Nat) : Sample := Memory.read m (a + 1) ++ Memory.read m a

/-- Memory with a Sample written at a byte address, little-endian (20_memory R54). -/
def writeSampleAt (m : Memory) (a : Nat) (v : Sample) : Memory :=
  Memory.write (Memory.write m a (v.extractLsb' 0 8)) (a + 1) (v.extractLsb' 8 8)

/-- Sample `i` of a physical chunk, `IN[s][i]` or `O[s][i]` (00_scope R10). -/
def State.sample (s : State) (sl : Slot) (i : Nat) : Sample := readSampleAt s.chunks (sampleAddr s.cfg sl i)

/-- `chunk[i] <- v` for a physical chunk (00_scope R10). -/
def State.setSample (s : State) (sl : Slot) (i : Nat) (v : Sample) : State :=
  { s with chunks := writeSampleAt s.chunks (sampleAddr s.cfg sl i) v }

/-- The Sample `role{f, ch}` as `PHASE` stands (00_scope R10, 41_echo_filter R122). -/
def State.roleSample (s : State) (r : Role) (f : Nat) (ch : Channel) : Sample :=
  s.sample (remap s.phase r) (sampleIndex f ch)

/-- `raise F` (60_exceptions R181): the flag is set and stays set. Nothing is saved, no mode changes and
control goes nowhere (R189); there is no return from a fault (R190). -/
def raise (f : FaultFlag) (s : State) : State :=
  match f with
  | .cmdf => { s with cmdf := true }
  | .busyf => { s with busyf := true }
  | .seqf => { s with seqf := true }
  | .nanf => { s with nanf := true }
  | .accf => { s with accf := true }

/-- The state after one free value has been drawn (log 6). -/
def drawn (s : State) : State := { s with draws := s.draws + 1 }

/-- The acceptance of a command whose word is legal, in the order of 30_encoding R87: `BUSYF` while a run
is in progress, `SEQF` out of sequence, else the command's effect. A refused command does nothing else. -/
def accept (inSequence : Bool) (effect : State → State) (s : State) : Host.Outcome State Fault Refusal :=
  if s.busy then .next (raise .busyf s)
  else if inSequence then .next (effect s)
  else .next (raise .seqf s)

/-- The reset event (70_reset R210): from any state, every piece of the EFU's state takes its reset value.
The configuration stays (R212), and so does what is outside the unit: the host's script, the schedule, the
last reply, and the count of free values drawn (log 14). -/
def resetEvent (s : State) : State :=
  { State.reset with cfg := s.cfg, turns := s.turns, script := s.script, reply := s.reply, draws := s.draws }

end Sys2Proof.Machine
end

