-- ==== Sys2Proof/Machine/Clipper.lean ====
section
/-! DEFINITION. The SampleClipper and the `CLIP` command (40_clipper). -/

namespace Sys2Proof.Machine

/-- `rha` of a finite value `± mag * 2^-149`: `sign(v) * floor(|v| + 1/2)` on the exact value (40_clipper R101).
`|v| + 1/2` is `(2*mag + 2^149) / 2^150`. -/
def rha (neg : Bool) (mag : Nat) : Int := signedMag neg ((2 * mag + 2 ^ 149) / 2 ^ 150)

/-- Saturation to a Sample: "values ≥ 32767 → 32767, values ≤ -32768 → -32768" (40_clipper R100). -/
def saturate (r : Int) : Sample :=
  if 32767 ≤ r then BitVec.ofInt 16 32767
  else if r ≤ -32768 then BitVec.ofInt 16 (-32768)
  else BitVec.ofInt 16 r

/-- `clip` (40_clipper R100, R103): the Sample of a value, infinities saturated; none for a NaN, whose Sample
is unspecified (R104). -/
def clip : Flt → Option Sample
  | .nan _ _ => none
  | .inf true => some (BitVec.ofInt 16 (-32768))
  | .inf false => some (BitVec.ofInt 16 32767)
  | .fin neg mag => some (saturate (rha neg mag))

/-- The Sample `clip` delivers in a state: for a NaN a free draw from all Samples (40_clipper R104; log 6). -/
def clippedSample (s : State) (v : Flt) : Sample :=
  match clip v with
  | some x => x
  | none => Config.freeSample s.draws

/-- What applying `clip` does to the state apart from storing the Sample: `NANF` and one draw for a NaN,
nothing otherwise (40_clipper R104, 60_exceptions R185). -/
def afterClip (s : State) (v : Flt) : State :=
  match clip v with
  | some _ => s
  | none => drawn (raise .nanf s)

/-- The effect of an accepted `CLIP` (40_clipper R108). -/
def clipEffect (s : State) : State :=
  { afterClip s (f32 s.clipin) with clipout := clippedSample s (f32 s.clipin) }

/-- `CLIP` (40_clipper R108): no sequence condition (30_encoding R87). -/
def execClip (s : State) : Host.Outcome State Fault Refusal := accept true clipEffect s

end Sys2Proof.Machine
end

