-- ==== Sys2Proof/Machine/Filter.lean ====
section
/-! DEFINITION. The EchoFilter, the commands `STEP` and `RUN`, and the engine step (41_echo_filter). -/

namespace Sys2Proof.Machine

/-- `tapx(n, k, ch)` (41_echo_filter R124): a feed-forward tap reads `curr_in` or, wrapped, `prev_in`. -/
def State.tapX (s : State) (n k : Nat) (ch : Channel) : Sample :=
  match tapPos s.cfg n k with
  | .same f => s.roleSample .currIn f ch
  | .preceding f => s.roleSample .prevIn f ch

/-- `tapy(n, k, ch)` (41_echo_filter R125): a feedback tap reads `load_out` or, wrapped, `feedback_out`. -/
def State.tapY (s : State) (n k : Nat) (ch : Channel) : Sample :=
  match tapPos s.cfg n k with
  | .same f => s.roleSample .loadOut f ch
  | .preceding f => s.roleSample .feedbackOut f ch

/-- The sum of `term 0` .. `term (count-1)`, from +0.0, one rounded addition at a time in ascending order
(41_echo_filter R132). -/
def sumTerms (term : Nat → Flt) : Nat → Flt
  | 0 => Flt.zero
  | count + 1 => fadd (sumTerms term count) (term count)

/-- `input_sum(n, ch)` (41_echo_filter R126): `k` from 0 to `M`. -/
def State.inputSum (s : State) (n : Nat) (ch : Channel) : Flt :=
  sumTerms (fun k => fmul (coefB s.cfg k) (toF (s.tapX n k ch))) (s.cfg.m + 1)

/-- `output_sum(n, ch)` (41_echo_filter R127): `k` from 1 to `N`, with the coefficient `a[k-1]`; here `j = k - 1`. -/
def State.outputSum (s : State) (n : Nat) (ch : Channel) : Flt :=
  sumTerms (fun j => fmul (coefA s.cfg j) (toF (s.tapY n (j + 1) ch))) s.cfg.n

/-- The value handed to `clip` (41_echo_filter R128): the feedback sum is subtracted. -/
def State.filterValue (s : State) (n : Nat) (ch : Channel) : Flt :=
  fsub (s.inputSum n ch) (s.outputSum n ch)

/-- One channel of `computeFrame(n)`: the clipped value goes into `load_out{n, ch}` (41_echo_filter R128, R129). -/
def computeChannel (n : Nat) (ch : Channel) (s : State) : State :=
  (afterClip s (s.filterValue n ch)).setSample (remap s.phase .loadOut) (sampleIndex n ch)
    (clippedSample s (s.filterValue n ch))

/-- `computeFrame(n)` (41_echo_filter R129): left, then right (93 I10: the order is unobservable; log 15). -/
def computeFrame (n : Nat) (s : State) : State := computeChannel n .right (computeChannel n .left s)

/-- `computeFrame(FRAME)`; `FRAME <- FRAME + 1` (41_echo_filter R135, R136). -/
def nextFrame (s : State) : State := { computeFrame s.frame s with frame := s.frame + 1 }

/-- The engine step (41_echo_filter R136), enabled exactly while `BUSY = 1`: the next frame, and the end of
the run when it was the last. An engine that is not enabled takes no step (log 20). -/
def engineStep (s : State) : State :=
  if s.busy then
    { nextFrame s with busy := !decide ((nextFrame s).frame = s.cfg.chunkFrames) }
  else s

/-- `STEP` (41_echo_filter R135): accepted while a frame of the chunk is left. -/
def execStep (s : State) : Host.Outcome State Fault Refusal :=
  accept (decide (s.frame < s.cfg.chunkFrames)) nextFrame s

/-- The effect of an accepted `RUN` (41_echo_filter R137): the engine then takes its steps. -/
def runEffect (s : State) : State := { s with busy := true }

/-- `RUN` (41_echo_filter R137): accepted while a frame of the chunk is left. -/
def execRun (s : State) : Host.Outcome State Fault Refusal :=
  accept (decide (s.frame < s.cfg.chunkFrames)) runEffect s

end Sys2Proof.Machine
end

