-- ==== Sys2Proof/Machine/Ring.lean ====
section
/-! DEFINITION. The BufferRing's commands `ADV` and `INIT` (42_buffer_ring). -/

namespace Sys2Proof.Machine

/-- The effect of an accepted `ADV` (42_buffer_ring R163): no chunk memory is touched, the roles move. -/
def advEffect (s : State) : State := { s with phase := s.phase + 1, frame := 0 }

/-- `ADV` (42_buffer_ring R163): accepted when `FRAME` is 0 or `CHUNK_FRAMES`. -/
def execAdv (s : State) : Host.Outcome State Fault Refusal :=
  accept (decide (s.frame = 0) || decide (s.frame = s.cfg.chunkFrames)) advEffect s

/-- The effect of an accepted `INIT` (42_buffer_ring R164): every Sample of all six chunks 0, `PHASE` 0, `FRAME` 0;
the clipper registers and the fault flags stay. -/
def initEffect (s : State) : State := { s with chunks := [], phase := 0, frame := 0 }

/-- `INIT` (42_buffer_ring R164): no sequence condition (30_encoding R87). -/
def execInit (s : State) : Host.Outcome State Fault Refusal := accept true initEffect s

end Sys2Proof.Machine
end

