-- ==== Sys2Proof/Machine/Bus.lean ====
section
/-! DEFINITION. The host port: the address map (20_memory R51), the register block (10_state R35), access rights and widths
(R55, R57, R58), accesses during a run (R59), the order of faults (60_exceptions R187) and the issue of a command (30_encoding R87). -/

namespace Sys2Proof.Machine

/-- The registers of the block (10_state R35). -/
inductive Reg
  | cmd
  | status
  | phase
  | frame
  | map
  | clipin
  | clipout
  | coefB (k : Nat)
  | coefA (j : Nat)
deriving DecidableEq, Repr

/-- `REG_BASE`, the register block's offset from `EFU_BASE` (10_state R35). -/
def regBase (c : Config) : Nat := 5 * c.chunkBytes

/-- The size of the register block in bytes (10_state R35). -/
def regBlockBytes : Nat := 0x100

/-- The register at an offset of the block; none for a reserved or unaligned offset (10_state R35, R36). -/
def regAt (c : Config) (off : Nat) : Option Reg :=
  if off % 4 ≠ 0 then none
  else if off = 0x00 then some .cmd
  else if off = 0x04 then some .status
  else if off = 0x08 then some .phase
  else if off = 0x0C then some .frame
  else if off = 0x10 then some .map
  else if off = 0x14 then some .clipin
  else if off = 0x18 then some .clipout
  else if 0x40 ≤ off ∧ off < 0x80 ∧ (off - 0x40) / 4 ≤ c.m then some (.coefB ((off - 0x40) / 4))
  else if 0x80 ≤ off ∧ off < 0xC0 ∧ (off - 0x80) / 4 < c.n then some (.coefA ((off - 0x80) / 4))
  else none

/-- The offset of a register in the block (10_state R35). -/
def Reg.offset : Reg → Nat
  | .cmd => 0x00
  | .status => 0x04
  | .phase => 0x08
  | .frame => 0x0C
  | .map => 0x10
  | .clipin => 0x14
  | .clipout => 0x18
  | .coefB k => 0x40 + 4 * k
  | .coefA j => 0x80 + 4 * j

/-- The access rights of the registers: `CMD` write-only, `CLIPIN` read-write, the others read-only (10_state R35). -/
def Reg.allows : Reg → AccessKind → Bool
  | .cmd, .write => true
  | .cmd, .read => false
  | .clipin, _ => true
  | _, .read => true
  | _, .write => false

/-- The value a register reads as. `CMD` stores nothing and cannot be read (10_state R27); a `FRAME` of
2^32 or more does not fit its register (log 12). -/
def State.readReg (s : State) : Reg → Word
  | .cmd => 0#32
  | .status => s.statusWord
  | .phase => BitVec.ofNat 32 s.phase.val
  | .frame => BitVec.ofNat 32 s.frame
  | .map => mapWord s.phase
  | .clipin => s.clipin
  | .clipout => s.clipout.signExtend 32
  | .coefB k => bits32 (coefB s.cfg k)
  | .coefA j => bits32 (coefA s.cfg j)

/-- The role a window reaches, by the window's number (20_memory R51, R53). -/
def windowRole : Nat → Role
  | 0 => .currIn
  | 1 => .prevIn
  | 2 => .loadOut
  | 3 => .playOut
  | _ => .feedbackOut

/-- The number of a role's window (20_memory R51). -/
def Role.window : Role → Nat
  | .currIn => 0
  | .prevIn => 1
  | .loadOut => 2
  | .playOut => 3
  | .feedbackOut => 4

/-- What a host address reaches: a byte offset in a role window, or in the register block. -/
inductive Target
  | window (r : Role) (off : Nat)
  | register (off : Nat)
deriving DecidableEq, Repr

/-- The host address map (20_memory R51); none outside the EFU's range. -/
def target (c : Config) (addr : Nat) : Option Target :=
  if addr < regBase c then some (.window (windowRole (addr / c.chunkBytes)) (addr % c.chunkBytes))
  else if addr < regBase c + regBlockBytes then some (.register (addr - regBase c))
  else none

/-- A platform address as the offset the EFU's rules speak of (20_memory R50, R51): the EFU sits at `EFU_BASE`. -/
def platformOffset (c : Config) (busAddr : Nat) : Option Nat :=
  if c.efuBase ≤ busAddr ∧ busAddr < c.efuBase + regBase c + regBlockBytes then some (busAddr - c.efuBase) else none

/-- Width and alignment of a window access (20_memory R55). -/
def windowWidthOk (width off : Nat) : Bool :=
  (decide (width = 2) && decide (off % 2 = 0)) || (decide (width = 4) && decide (off % 4 = 0))

/-- The access is of a kind, width and alignment its target admits; otherwise it raises `ACCF`
(60_exceptions R186; 10_state R36, 20_memory R55, R57, R58). -/
def permitted (c : Config) (kind : AccessKind) (width : Nat) : Target → Bool
  | .window r off => windowWidthOk width off && (decide (kind = .read) || decide (r = .currIn))
  | .register off =>
    decide (width = 4) && (match regAt c off with | some r => r.allows kind | none => false)

/-- The accesses `BUSYF` refuses while a run is in progress: a `CURR_IN` write, a `LOAD_OUT` read and any
write of `CMD` (60_exceptions R183, 20_memory R59). -/
def barredWhileBusy (c : Config) (kind : AccessKind) : Target → Bool
  | .window r _ =>
    (decide (r = .currIn) && decide (kind = .write)) || (decide (r = .loadOut) && decide (kind = .read))
  | .register off => decide (regAt c off = some .cmd) && decide (kind = .write)

/-- The Sample index inside its chunk of a window offset (20_memory R53). -/
def windowIndex (off : Nat) : Nat := off / Config.sampleBytes

/-- `MemRead` of a window: 2 bytes are one Sample, zero-extended here; 4 bytes are a frame, the right Sample
in [31:16] and the left in [15:0] (20_memory R53). -/
def State.readWindow (s : State) (r : Role) (off width : Nat) : Word :=
  if width = 4 then
    s.sample (remap s.phase r) (windowIndex off + 1) ++ s.sample (remap s.phase r) (windowIndex off)
  else (s.sample (remap s.phase r) (windowIndex off)).zeroExtend 32

/-- `MemWrite` of a window (20_memory R53). -/
def writeWindow (r : Role) (off width : Nat) (v : Word) (s : State) : State :=
  if width = 4 then
    (s.setSample (remap s.phase r) (windowIndex off) (v.extractLsb' 0 16)).setSample (remap s.phase r)
      (windowIndex off + 1) (v.extractLsb' 16 16)
  else s.setSample (remap s.phase r) (windowIndex off) (v.extractLsb' 0 16)

/-- The state with the reply of an access. -/
def withReply (r : Reply) (s : State) : State := { s with reply := r }

/-- A refused access (60_exceptions R181): the flag is raised and nothing else of the EFU changes. A write
answers `done`; a read returns an unspecified value of its width, a free draw (93 I3, I4; log 6, log 11). -/
def refuseAccess (f : FaultFlag) (a : Access) (s : State) : State :=
  match a.kind with
  | .write => withReply .done (raise f s)
  | .read =>
    if a.width = 4 then drawn (withReply (.value (Config.freeRead s.draws)) (raise f s))
    else if a.width = 2 then
      drawn (withReply (.value (((Config.freeRead s.draws).extractLsb' 0 16).zeroExtend 32)) (raise f s))
    else withReply .noValue (raise f s)

/-- The issue of a command word (30_encoding R87): `BUSYF` before the word is decoded, `CMDF` for an
illegal word, otherwise the command, which checks its own sequence condition (log 17). -/
def issue (w : Word) (s : State) : Host.Outcome State Fault Refusal :=
  if s.busy then .next (raise .busyf s)
  else
    match decode w with
    | .error _ => .next (raise .cmdf s)
    | .ok i => exec i s

/-- A permitted write of a register: `CMD` issues, `CLIPIN` stores (10_state R27, R30). -/
def writeReg (r : Reg) (v : Word) (s : State) : Host.Outcome State Fault Refusal :=
  match r with
  | .cmd => issue v s
  | .clipin => .next { s with clipin := v }
  | _ => .next s

/-- The effect of an access that is permitted and not barred. Reads have no side effect (20_memory R56). -/
def performAccess (a : Access) (t : Target) (s : State) : Host.Outcome State Fault Refusal :=
  match t, a.kind with
  | .window r off, .read => .next (withReply (.value (s.readWindow r off a.width)) s)
  | .window r off, .write => .next (withReply .done (writeWindow r off a.width a.data s))
  | .register off, .read =>
    match regAt s.cfg off with
    | some r => .next (withReply (.value (s.readReg r)) s)
    | none => .next (refuseAccess .accf a s)
  | .register off, .write =>
    match regAt s.cfg off with
    | some r => writeReg r a.data (withReply .done s)
    | none => .next (refuseAccess .accf a s)

/-- One host access (20_memory R52): `ACCF` first, then `BUSYF`, then the access itself, whose own faults are
`CMDF`, `SEQF` and `NANF` (60_exceptions R187). An address outside the EFU's range stops the model (log 10). -/
def hostAccess (a : Access) (s : State) : Host.Outcome State Fault Refusal :=
  match target s.cfg a.addr with
  | none => .fault .outsideEfu
  | some t =>
    if permitted s.cfg a.kind a.width t then
      if s.busy && barredWhileBusy s.cfg a.kind t then .next (refuseAccess .busyf a s)
      else performAccess a t s
    else .next (refuseAccess .accf a s)

/-- The bus transaction that issues a command word (30_encoding R85): `MemWrite(REG_BASE+0x00, 4, w)`. -/
def commandAccess (c : Config) (w : Word) : Access :=
  { kind := .write, addr := regBase c + Reg.offset .cmd, width := 4, data := w }

/-- The bus transaction of one poll of `WAIT` (30_encoding R86): `RD32 STATUS`. -/
def pollAccess (c : Config) : Access :=
  { kind := .read, addr := regBase c + Reg.offset .status, width := 4, data := 0#32 }

end Sys2Proof.Machine
end

