-- ==== Sys2Proof/Machine/Agents.lean ====
section
/-! DEFINITION. The agents and their turns (00_scope R12, 20_memory R62): which of host, engine and reset moves, and what it does. -/

namespace Sys2Proof.Machine

/-- Whose turn it is. The schedule says; with none left an engine in a run moves, so that every run ends
(weak fairness, 41_echo_filter R136), and otherwise the host (log 4). -/
def nextTurn (s : State) : Turn :=
  match s.turns with
  | t :: _ => t
  | [] => if s.busy then .engine else .host

/-- One host step (00_scope R12): the next bus access of the script, or one poll of `WAIT`, which the host
repeats until the value read has `BUSY = 0` (30_encoding R86; log 19). A host with nothing left to do does
nothing (log 20). -/
def hostTurn (s : State) : Host.Outcome State Fault Refusal :=
  match s.script with
  | [] => .next s
  | .access a :: rest => hostAccess a { s with script := rest }
  | .wait :: rest => hostAccess (pollAccess s.cfg) (if s.busy then s else { s with script := rest })

/-- One step of the machine: the agent whose turn it is takes one atomic step (20_memory R62). A
configuration that breaks 00_scope R8 is refused (log 3). -/
def takeTurn (s : State) : Host.Outcome State Fault Refusal :=
  if s.cfg.wellFormed then
    match nextTurn s with
    | .host => hostTurn { s with turns := s.turns.tail }
    | .engine => .next (engineStep { s with turns := s.turns.tail })
    | .reset => .next (resetEvent { s with turns := s.turns.tail })
  else .refused .badConfiguration

/-- The state in which the host's very next step writes the command word `w` to `CMD` (log 5). -/
def placeCommand (s : State) (w : Word) : State :=
  { s with turns := .host :: s.turns, script := .access (commandAccess s.cfg w) :: s.script }

end Sys2Proof.Machine
end

