-- ==== Sys2Proof/Machine/Step.lean ====
section
/-! DEFINITION. The step of the machine, and the placing of a command (log 5). -/

namespace Sys2Proof.Machine

/-- One step: the agent whose turn it is moves (00_scope R12). -/
def step (s : State) : Host.Outcome State Fault Refusal := takeTurn s

/-- The state whose next step is the host's write of the command word `w` to `CMD`: the EFU fetches nothing, a command
comes from outside (20_memory R66; log 5). -/
def State.withFetchWord (s : State) (nbits w : Nat) : State := placeCommand s (BitVec.ofNat 32 (w % 2 ^ nbits))

end Sys2Proof.Machine
end

