-- ==== Sys2Proof/Machine/HostScript.lean ====
section
/-! DEFINITION. The host-script notation (30_encoding R85), its pseudo-instructions (R86) and the encoding of a script as bus
transactions (R88). -/

namespace Sys2Proof.Machine

/-- The names an address of a script may start from (30_encoding R85); `regBase` is the base 95_test_vectors
writes for a reserved offset. -/
inductive AddrName
  | window (r : Role)
  | reg (r : Reg)
  | regBase
deriving DecidableEq, Repr

/-- `NAME` or `NAME+<offset>` (30_encoding R85). -/
structure ScriptAddr where
  name   : AddrName
  offset : Nat
deriving DecidableEq, Repr

/-- The byte offset from `EFU_BASE` a script address stands for (30_encoding R85; 20_memory R51, 10_state R35). -/
def ScriptAddr.resolve (c : Config) (x : ScriptAddr) : Nat :=
  (match x.name with
    | .window r => r.window * c.chunkBytes
    | .reg r => Sys2Proof.Machine.regBase c + r.offset
    | .regBase => Sys2Proof.Machine.regBase c) + x.offset

/-- A line of a host script (30_encoding R85, R86). A value is an integer; a negative one stands for its
two's complement (log 24). `clipv` takes the `FLT` value `CLIPV` clips. -/
inductive Line
  | command (i : Instr)
  | wr16 (x : ScriptAddr) (v : Int)
  | wr32 (x : ScriptAddr) (v : Int)
  | rd16 (x : ScriptAddr)
  | rd32 (x : ScriptAddr)
  | wait
  | put (f : Nat) (l r : Int)
  | get (w : Role) (f : Nat)
  | fill (l r : Int)
  | cycle
  | clipv (x : Flt)
deriving DecidableEq, Repr

/-- A read transaction. -/
def readStep (addr width : Nat) : HostStep :=
  .access { kind := .read, addr := addr, width := width, data := 0#32 }

/-- A write transaction. -/
def writeStep (addr width : Nat) (v : Word) : HostStep :=
  .access { kind := .write, addr := addr, width := width, data := v }

/-- The host step of a command line (30_encoding R85). -/
def commandStep (c : Config) (i : Instr) : HostStep := .access (commandAccess c (encode i))

/-- `PUT f, L, R`: `WR32 CURR_IN+4*f, {u16(R), u16(L)}` (30_encoding R86). -/
def putStep (c : Config) (f : Nat) (l r : Int) : HostStep :=
  writeStep (Role.window .currIn * c.chunkBytes + Config.frameBytes * f) 4 (BitVec.ofInt 16 r ++ BitVec.ofInt 16 l)

/-- The host steps of a line, pseudo-instructions expanded (30_encoding R85, R86). -/
def Line.expand (c : Config) : Line → List HostStep
  | .command i => [commandStep c i]
  | .wr16 x v => [writeStep (x.resolve c) 2 ((BitVec.ofInt 16 v).zeroExtend 32)]
  | .wr32 x v => [writeStep (x.resolve c) 4 (BitVec.ofInt 32 v)]
  | .rd16 x => [readStep (x.resolve c) 2]
  | .rd32 x => [readStep (x.resolve c) 4]
  | .wait => [.wait]
  | .put f l r => [putStep c f l r]
  | .get w f => [readStep (w.window * c.chunkBytes + Config.frameBytes * f) 4]
  | .fill l r => (List.range c.chunkFrames).map (fun f => putStep c f l r)
  | .cycle => [commandStep c .run, .wait, commandStep c .adv]
  | .clipv x =>
    [writeStep (regBase c + Reg.offset .clipin) 4 (bits32 x), commandStep c .clip,
      readStep (regBase c + Reg.offset .clipout) 4]

/-- A script as the list of its host steps (30_encoding R88). -/
def expandScript (c : Config) (ls : List Line) : List HostStep := ls.flatMap (Line.expand c)

/-- A state whose host has a script still to run (log 5). -/
def withScript (ls : List Line) (s : State) : State := { s with script := expandScript s.cfg ls }

end Sys2Proof.Machine
end

