-- ==== Sys2Proof/Machine/SampleRate.lean ====
section
/-! DEFINITION. The sample-rate arithmetic of 41_echo_filter R146: conversions between samples, frames, bytes and time.
Informative: no step of the machine uses a rate (R147). -/

namespace Sys2Proof.Machine

/-- Frames per second (00_scope R6). -/
def rateHz : Rate → Nat
  | .hz44100 => 44100
  | .hz48000 => 48000

/-- The delay of tap `k` in frames (41_echo_filter R146). -/
def tapDelayFrames (c : Config) (k : Nat) : Nat := k * c.delay

/-- The delay of tap `k` in samples of the interleaved stream (41_echo_filter R146). -/
def tapDelaySamples (c : Config) (k : Nat) : Nat := Config.channels * tapDelayFrames c k

/-- The delay of tap `k` in bytes (41_echo_filter R146). -/
def tapDelayBytes (c : Config) (k : Nat) : Nat := Config.frameBytes * tapDelayFrames c k

/-- The delay of tap `k` in seconds (41_echo_filter R146). -/
def tapDelaySeconds (c : Config) (k : Nat) : ℚ := (tapDelayFrames c k : ℚ) / rateHz c.rate

/-- The duration of a chunk in seconds (41_echo_filter R146, 70_reset R226). -/
def chunkSeconds (c : Config) : ℚ := (c.chunkFrames : ℚ) / rateHz c.rate

/-- The stream's byte rate (41_echo_filter R146). -/
def streamByteRate (c : Config) : Nat := Config.frameBytes * rateHz c.rate

/-- The latency from filtering a chunk to playing it: 2 cycles (41_echo_filter R146). -/
def playLatencySeconds (c : Config) : ℚ := 2 * chunkSeconds c

end Sys2Proof.Machine
end

