-- ==== Sys2Proof/Safety.lean ====
section
/-! DEFINITION. What counts as a good run, and the words the statements are written in. -/

namespace Sys2Proof.Machine

/-- A state with any fault flag set (00_scope R13, 60_exceptions R181). -/
def State.faulted (s : State) : Bool := s.cmdf || s.busyf || s.seqf || s.nanf || s.accf

/-- The host script has ended: its last step has completed and no run is in progress (70_reset R227). -/
def State.scriptEnded (s : State) : Bool := s.script.isEmpty && !s.busy

/-- A good final state (70_reset R227): the script has ended and nothing has faulted. -/
def State.goodFinal (s : State) : Bool := s.scriptEnded && !s.faulted

/-- Every listed byte lies inside the six chunks (20_memory R50, log 7). -/
def inChunks (c : Config) (m : Memory) : Bool := m.all (fun cell => decide (cell.1 < 6 * c.chunkBytes))

/-- The invariant of the machine: the configuration is one 00_scope R8 allows, `FRAME` is at most
`CHUNK_FRAMES` (10_state R24), a run in progress has a frame left (R26), and the chunk memories are in
canonical form and inside their address space. -/
abbrev State.Inv (s : State) : Prop :=
  s.cfg.wellFormed = true ∧ s.frame ≤ s.cfg.chunkFrames ∧ (s.busy = true → s.frame < s.cfg.chunkFrames)
    ∧ Memory.wf s.chunks = true ∧ inChunks s.cfg s.chunks = true

/-- The states a run can reach: from reset, in any configuration R8 allows, with any host script and any
schedule of agents and reset events (00_scope R12, 20_memory R62). -/
inductive Reachable : State → Prop
  | start (c : Config) (script : List HostStep) (turns : List Turn) :
      c.wellFormed = true → Reachable { State.reset with cfg := c, script := script, turns := turns }
  | next (s t : State) : Reachable s → step s = .next t → Reachable t

/-- `k` engine steps in a row (41_echo_filter R137). -/
def engineSteps : Nat → State → State
  | 0, s => s
  | k + 1, s => engineSteps k (engineStep s)

/-- The access raises the flag `f` and does nothing else to the EFU (60_exceptions R181): only the reply,
and the count of free values a refused read draws, may change beside it. -/
def RefusedWith (f : FaultFlag) (a : Access) (s : State) : Prop :=
  ∃ u, hostAccess a s = .next u ∧ u = { raise f s with reply := u.reply, draws := u.draws }

/-- The read access is carried out and returns `v`: nothing but the reply changes. -/
def ReadsAs (v : Word) (a : Access) (s : State) : Prop :=
  hostAccess a s = .next { s with reply := .value v }

/-- A read of `width` bytes at a byte offset from `EFU_BASE`. -/
def readAccess (addr width : Nat) : Access := { kind := .read, addr := addr, width := width, data := 0#32 }

/-- A write of `width` bytes at a byte offset from `EFU_BASE`. -/
def writeAccess (addr width : Nat) (v : Word) : Access := { kind := .write, addr := addr, width := width, data := v }

/-- The address of byte `off` of a role's window (20_memory R51). -/
def windowAddr (c : Config) (r : Role) (off : Nat) : Nat := r.window * c.chunkBytes + off

/-- The address of a register (10_state R35). -/
def regAddr (c : Config) (r : Reg) : Nat := regBase c + r.offset

/-- The step about to be taken is the host's issue of the command `i`, and no run is in progress
(30_encoding R85, R87). -/
def IssuesCommand (i : Instr) (s : State) : Prop :=
  nextTurn s = .host ∧ s.busy = false ∧ ∃ rest, s.script = .access (commandAccess s.cfg (encode i)) :: rest

/-- Every Sample of the chunk is 0. -/
def zeroChunk (s : State) (sl : Slot) : Prop := ∀ i, i < s.cfg.bufferSize → s.sample sl i = 0#16

/-- A finite `FLT` number that a binary32 image encodes. -/
def Flt.isNumber : Flt → Bool
  | .fin _ mag => magRepresentable mag
  | _ => false

/-- The significand of a finite number is even: its least kept bit, at 24 significant bits or at `2^-149`, is 0. -/
def Flt.evenSignificand : Flt → Bool
  | .fin _ mag => decide ((mag / 2 ^ (Nat.log2 mag - 23)) % 2 = 0)
  | _ => false

/-- The midpoint between the largest finite binary32 value and `2^128`: an exact result of this magnitude or
more rounds to an infinity (41_echo_filter R130, R134). -/
def overflowBound : ℚ := (2 ^ 25 - 1) * 2 ^ 103

/-- `r` is the exact value `x` rounded once to binary32, to nearest, ties to even, with overflow to an
infinity of `x`'s sign (41_echo_filter R130, R134). -/
def RoundsTo (x : ℚ) (r : Flt) : Prop :=
  if overflowBound ≤ |x| then r = .inf (decide (x < 0))
  else
    r.isNumber = true ∧
      ∀ y : Flt, y.isNumber = true →
        |r.value - x| ≤ |y.value - x| ∧
          (|y.value - x| = |r.value - x| → y.value = r.value ∨ r.evenSignificand = true)

end Sys2Proof.Machine
end

