-- ==== Sys2Proof/Certificates/Slice0/Obligations.lean ====
section
/-! DEFINITION. The statements for the provers. Each docstring names the rule of spec/ the statement formalises. -/

open Sys2Proof Sys2Proof.Machine

/-! ## Encoding -/

/-- 30_encoding R81, R83, 95 V-D2: the five words, and some that are none. -/
def Obligations.CommandWordsMatchTheOpcodeTable : Prop :=
  encode .init = 0x10000000#32 ∧ encode .step = 0x20000000#32 ∧ encode .run = 0x30000000#32
    ∧ encode .adv = 0x40000000#32 ∧ encode .clip = 0x50000000#32
    ∧ decode 0x10000000#32 = .ok .init ∧ decode 0x20000000#32 = .ok .step ∧ decode 0x30000000#32 = .ok .run
    ∧ decode 0x40000000#32 = .ok .adv ∧ decode 0x50000000#32 = .ok .clip
    ∧ decode 0x00000000#32 = .error .reservedOpcode ∧ decode 0x60000000#32 = .error .reservedOpcode
    ∧ decode 0x20000001#32 = .error .nonzeroZeroField ∧ decode 0x5FFFFFFF#32 = .error .nonzeroZeroField

/-- 30_encoding R81: a word is a command exactly when it is that command's one word; R83's count of the others. -/
def Obligations.DecodeAcceptsExactlyTheFiveWords : Prop :=
  (∀ (w : Word) (i : Instr), decode w = .ok i ↔ w = encode i)
    ∧ (∀ i : Instr, encode i &&& 0xFFFFFFFF#32 = encode i)
    ∧ Nat.card {w : Word // ∃ e, decode w = .error e} = 2 ^ 32 - 5

/-- 60_exceptions R182: a word that is none of the five, written to `CMD` while no run is in progress, raises
`CMDF` and does nothing else. -/
def Obligations.IllegalWordRaisesOnlyCmdf : Prop :=
  ∀ (s : State) (w : Word), s.busy = false → (∀ i, w ≠ encode i) →
    hostAccess (commandAccess s.cfg w) s = .next { s with cmdf := true, reply := .done }

/-- Derived: a step whose turn is the host's, at a command write, runs the decoded command; the step moves the
schedule and the script on and answers the write. -/
def Obligations.StepRunsTheDecodedCommand : Prop :=
  (∀ (s : State) (w : Word) (i : Instr) (rest : List HostStep), s.cfg.wellFormed = true → nextTurn s = .host →
      s.script = .access (commandAccess s.cfg w) :: rest → decode w = .ok i →
      step s = exec i { s with turns := s.turns.tail, script := rest, reply := .done })
    ∧ (∀ (s : State) (w : Nat) (i : Instr), s.cfg.wellFormed = true → decode (BitVec.ofNat 32 w) = .ok i →
        step (s.withFetchWord 32 w) = exec i { s with reply := .done })

/-! ## Turns -/

/-- 00_scope R12: a host step is one bus access, an engine turn one engine step; with no turn scheduled a
running engine moves. -/
def Obligations.TurnsGoToTheScheduledAgent : Prop :=
  (∀ (s : State) (a : Access) (rest : List HostStep), s.cfg.wellFormed = true → nextTurn s = .host →
      s.script = .access a :: rest → step s = hostAccess a { s with turns := s.turns.tail, script := rest })
    ∧ (∀ s : State, s.cfg.wellFormed = true → nextTurn s = .engine →
        step s = .next (engineStep { s with turns := s.turns.tail }))
    ∧ (∀ s : State, s.cfg.wellFormed = true → nextTurn s = .host → s.script = [] →
        step s = .next { s with turns := s.turns.tail })
    ∧ (∀ (s : State) (t : Turn) (ts : List Turn), s.turns = t :: ts → nextTurn s = t)
    ∧ (∀ s : State, s.turns = [] → s.busy = true → nextTurn s = .engine)
    ∧ (∀ s : State, s.turns = [] → s.busy = false → nextTurn s = .host)

/-- 30_encoding R86: `WAIT` is `RD32 STATUS`, repeated until the value read has `BUSY = 0`. -/
def Obligations.WaitPollsStatusUntilIdle : Prop :=
  ∀ (s : State) (rest : List HostStep), s.cfg.wellFormed = true → nextTurn s = .host → s.script = .wait :: rest →
    step s = .next { s with turns := s.turns.tail, reply := .value s.statusWord,
                            script := if s.busy = true then s.script else rest }

/-- 00_scope R13: every host access inside the EFU's range and every engine step completes. -/
def Obligations.EveryStepCompletes : Prop :=
  ∀ s : State, s.cfg.wellFormed = true →
    (∀ a rest, s.script = .access a :: rest → a.addr < 5 * s.cfg.chunkBytes + 0x100) → ∃ t, step s = .next t

/-- Derived from 00_scope R8: a configuration that breaks a constraint is refused, each constraint by itself. That every
step is what is refused is the model's choice (log 3); that R8(d) is kept by the type `Coef`, so that a word is refused
before it is a coefficient, is another (log 2). -/
def Obligations.BadConfigurationIsRefused : Prop :=
  (∀ s : State, s.cfg.bufferSize = 0 ∨ s.cfg.bufferSize % 2 ≠ 0 → step s = .refused .badConfiguration)
    ∧ (∀ s : State, s.cfg.chunkFrames < s.cfg.m * s.cfg.delay ∨ s.cfg.chunkFrames < s.cfg.n * s.cfg.delay →
        step s = .refused .badConfiguration)
    ∧ (∀ s : State, s.cfg.delay = 0 ∨ 15 < s.cfg.m ∨ 16 < s.cfg.n → step s = .refused .badConfiguration)
    ∧ (∀ w : Word, (f32 w).isNaN = true ∨ (∃ neg, f32 w = .inf neg) ↔ coefOfWord w = none)
    ∧ (∀ k : Coef, ∃ neg mag, coefValue k = .fin neg mag)

/-- Model's choice (log 10; 20_memory R51 leaves the address outside the spec): an access outside the EFU's range faults. -/
def Obligations.AccessOutsideTheRangeFaults : Prop :=
  ∀ (a : Access) (s : State), 5 * s.cfg.chunkBytes + 0x100 ≤ a.addr → hostAccess a s = .fault .outsideEfu

/-! ## Reset and invariants -/

/-- 10_state R37, 70_reset R210: reset, from any state, a running filter included, gives every piece of state its
reset value; the coefficients stay. -/
def Obligations.ResetGivesEveryStateItsValue : Prop :=
  ∀ s : State, s.cfg.wellFormed = true → nextTurn s = .reset →
    ∃ t, step s = .next t ∧ t.phase.val = 0 ∧ t.frame = 0 ∧ t.busy = false ∧ t.cmdf = false ∧ t.busyf = false
      ∧ t.seqf = false ∧ t.nanf = false ∧ t.accf = false ∧ t.doneBit = false ∧ t.clipin = 0x00000000#32
      ∧ t.clipout = 0#16 ∧ (∀ sl i, t.sample sl i = 0#16) ∧ (∀ k, coefB t.cfg k = coefB s.cfg k)
      ∧ (∀ j, coefA t.cfg j = coefA s.cfg j) ∧ mapWord t.phase = 0x000001E2#32

/-- Derived from 10_state R37, with the model's choice of configuration (log 2): what `State.reset` is. -/
def Obligations.ResetStateHoldsTheResetValues : Prop :=
  resetEvent State.reset = State.reset ∧ State.reset.phase = 0 ∧ State.reset.frame = 0 ∧ State.reset.busy = false
    ∧ State.reset.faulted = false ∧ State.reset.clipin = 0#32 ∧ State.reset.clipout = 0#16
    ∧ (∀ sl i, State.reset.sample sl i = 0#16) ∧ State.reset.cfg.bufferSize = 65536 ∧ State.reset.cfg.delay = 132
    ∧ State.reset.cfg.m = 3 ∧ State.reset.cfg.n = 3 ∧ State.reset.cfg.chunkFrames = 32768
    ∧ State.reset.cfg.chunkBytes = 0x20000 ∧ regBase State.reset.cfg = 0xA0000

/-- 70_reset R211: `INIT` and reset zero the ring alike; only reset clears the flags and the clipper registers and
ends a run. -/
def Obligations.InitAndResetCompared : Prop :=
  ∀ s : State,
    (s.busy = false → ∃ t, exec .init s = .next t ∧ t.chunks = (resetEvent s).chunks ∧ t.phase = (resetEvent s).phase
        ∧ t.frame = (resetEvent s).frame ∧ t.clipin = s.clipin ∧ t.clipout = s.clipout
        ∧ ∀ f, t.flag f = s.flag f)
      ∧ (s.busy = true → exec .init s = .next { s with busyf := true })
      ∧ (∀ f, (resetEvent s).flag f = false) ∧ (resetEvent s).busy = false ∧ (resetEvent s).clipin = 0#32
      ∧ (resetEvent s).clipout = 0#16 ∧ (∀ sl i, (resetEvent s).sample sl i = 0#16)
      ∧ (resetEvent s).phase = 0 ∧ (resetEvent s).frame = 0

/-- The invariant holds right after reset. -/
def Obligations.InvariantHoldsAtReset : Prop := State.reset.Inv

/-- The invariant (10_state R24, R26, 20_memory R50, log 7) is kept by every step, from every state that has it. -/
def Obligations.EveryStepKeepsTheInvariant : Prop :=
  ∀ s t : State, s.Inv → step s = .next t → t.Inv

/-- 10_state R26: in every reachable state, whatever the configuration, the script and the schedule. -/
def Obligations.ReachableBusyHasAFrameLeft : Prop :=
  ∀ s : State, Reachable s → s.busy = true → s.frame < s.cfg.chunkFrames

/-! ## The commands -/

/-- 42_buffer_ring R164; the last clause is its "only way other than reset to bring `PHASE` back to 0". -/
def Obligations.InitStartsAStream : Prop :=
  encode .init = 0x10000000#32
    ∧ (∀ s : State, s.busy = false → ∃ t, exec .init s = .next t ∧ (∀ sl i, t.sample sl i = 0#16)
        ∧ (∀ a, Memory.read t.chunks a = 0#8) ∧ t.phase.val = 0 ∧ t.frame = 0
        ∧ t = { s with chunks := t.chunks, phase := t.phase, frame := t.frame } ∧ mapWord t.phase = 0x000001E2#32)
    ∧ (∀ s : State, s.busy = true → exec .init s = .next { s with busyf := true })
    ∧ exec .init State.reset = .next State.reset
    ∧ (∀ (i : Instr) (s t : State), exec i s = .next t → t.phase.val = 0 → s.phase.val ≠ 0 → s.phase.val ≠ 3 →
        i = .init)

/-- 42_buffer_ring R163. -/
def Obligations.AdvAdvancesThePhase : Prop :=
  encode .adv = 0x40000000#32
    ∧ (∀ s : State, s.busy = false → s.frame = 0 ∨ s.frame = s.cfg.chunkFrames →
        ∃ t, exec .adv s = .next t ∧ t.phase.val = (s.phase.val + 1) % 4 ∧ t.frame = 0
          ∧ t = { s with phase := t.phase, frame := t.frame }
          ∧ (∀ a, Memory.read t.chunks a = Memory.read s.chunks a)
          ∧ (s.cfg.wellFormed = true → t.doneBit = false))
    ∧ (∀ s : State, s.busy = true → exec .adv s = .next { s with busyf := true })
    ∧ (∀ s : State, s.busy = false → 0 < s.frame → s.frame < s.cfg.chunkFrames →
        exec .adv s = .next { s with seqf := true })
    ∧ (∀ (c : Fin 4) (r : Role), remap (c + 1 + 1 + 1 + 1) r = remap c r)
    ∧ mapWord 2 = 0x0000034A#32 ∧ remap 2 .playOut = .output 0

/-- 41_echo_filter R137, the command's own effect: the run is only begun. -/
def Obligations.RunBeginsARun : Prop :=
  encode .run = 0x30000000#32
    ∧ (∀ s : State, s.busy = false → s.frame < s.cfg.chunkFrames →
        ∃ t, exec .run s = .next t ∧ t.busy = true ∧ t = { s with busy := t.busy }
          ∧ (∀ a, Memory.read t.chunks a = Memory.read s.chunks a))
    ∧ (∀ s : State, s.busy = true → exec .run s = .next { s with busyf := true })
    ∧ (∀ s : State, s.busy = false → s.frame = s.cfg.chunkFrames → exec .run s = .next { s with seqf := true })

/-- 41_echo_filter R135 with R128, R129: the frame at `FRAME` is computed into `load_out` and `FRAME` advances;
a NaN raises `NANF` and leaves a free Sample. -/
def Obligations.StepComputesTheNextFrame : Prop :=
  encode .step = 0x20000000#32
    ∧ (∀ s : State, s.cfg.wellFormed = true → Memory.wf s.chunks = true → s.busy = false →
        s.frame < s.cfg.chunkFrames →
        ∃ t, exec .step s = .next t ∧ t.frame = s.frame + 1 ∧ t.busy = false
          ∧ (∀ ch x, clip (s.filterValue s.frame ch) = some x →
              t.sample (remap s.phase .loadOut) (sampleIndex s.frame ch) = x)
          ∧ (∀ ch, (s.filterValue s.frame ch).isNaN = true →
              ∃ d, t.sample (remap s.phase .loadOut) (sampleIndex s.frame ch) = Config.freeSample d)
          ∧ (t.nanf = true ↔ s.nanf = true ∨ ∃ ch, (s.filterValue s.frame ch).isNaN = true)
          ∧ (t.doneBit = true ↔ s.frame + 1 = s.cfg.chunkFrames)
          ∧ (∀ f, f ≠ .nanf → t.flag f = s.flag f))
    ∧ (∀ s : State, s.busy = true → exec .step s = .next { s with busyf := true })
    ∧ (∀ s : State, s.busy = false → s.frame = s.cfg.chunkFrames → exec .step s = .next { s with seqf := true })

/-- 41_echo_filter R120, R135: what a `STEP` leaves alone. The four bytes stored to start at the address of
`load_out{FRAME, 0}`; they are the frame's two Samples. -/
def Obligations.StepFrameOfTheState : Prop :=
  ∀ s t : State, s.busy = false → s.frame < s.cfg.chunkFrames → exec .step s = .next t →
    t = { s with frame := s.frame + 1, chunks := t.chunks, nanf := t.nanf, draws := t.draws }
      ∧ (∀ a, a < sampleAddr s.cfg (remap s.phase .loadOut) (2 * s.frame)
            ∨ sampleAddr s.cfg (remap s.phase .loadOut) (2 * s.frame) + 4 ≤ a →
          Memory.read t.chunks a = Memory.read s.chunks a)
      ∧ (∀ f, f ≠ .nanf → t.flag f = s.flag f)

/-- 40_clipper R108, its last corner case as 90_conflicts C8 settles it: `CLIP` gives the clipped operand, raises
`NANF` on a NaN and changes nothing else; repeated on a number it gives the same again. -/
def Obligations.ClipDeliversTheClippedOperand : Prop :=
  encode .clip = 0x50000000#32
    ∧ (∀ (s : State) (x : Sample), s.busy = false → clip (f32 s.clipin) = some x →
        exec .clip s = .next { s with clipout := x })
    ∧ (∀ s : State, s.busy = false → (f32 s.clipin).isNaN = true →
        ∃ t, exec .clip s = .next t ∧ t.nanf = true ∧ t.clipout = Config.freeSample s.draws
          ∧ s.draws < t.draws ∧ t = { s with nanf := true, clipout := t.clipout, draws := t.draws })
    ∧ (∀ s : State, s.busy = true → exec .clip s = .next { s with busyf := true })
    ∧ (∀ s t : State, s.busy = false → (f32 s.clipin).isNaN = false → exec .clip s = .next t →
        exec .clip t = .next t)
    ∧ (∀ w : Word, (f32 w).isNaN = true ↔ (w.extractLsb' 23 8 = 0xFF#8 ∧ w.extractLsb' 0 23 ≠ 0#23))
    ∧ (∀ s : State, s.cfg.wellFormed = true →
        ReadsAs (s.clipout.signExtend 32) (readAccess (regBase s.cfg + 0x18) 4) s)
    ∧ clip (f32 0x7F800000#32) = some (BitVec.ofInt 16 32767)
    ∧ clip (f32 0xFF800000#32) = some (BitVec.ofInt 16 (-32768))
    ∧ clip (f32 0x80000000#32) = some 0#16 ∧ clip (f32 0x3EFFFFFF#32) = some 0#16
    ∧ clip (f32 0x3F000000#32) = some 1#16 ∧ clip (f32 0xBF000000#32) = some (BitVec.ofInt 16 (-1))
    ∧ clip (f32 0x46FFFECD#32) = some (BitVec.ofInt 16 32767)

/-- Derived from 42 R163, R164, 41 R137, 40 R108: what `INIT`, `ADV`, `RUN` and `CLIP` leave alone when they answer, refused or
not: the reply, the configuration, the schedule, the script, the flags they do not raise, `CLIPIN`, and, `INIT`
apart, every byte of memory. -/
def Obligations.CommandsFrameOfTheState : Prop :=
  ∀ (i : Instr) (s t : State), exec i s = .next t →
    t.cfg = s.cfg ∧ t.turns = s.turns ∧ t.script = s.script ∧ t.reply = s.reply ∧ t.clipin = s.clipin
      ∧ t.cmdf = s.cmdf ∧ t.accf = s.accf
      ∧ (i ≠ .clip → t.clipout = s.clipout)
      ∧ (i ≠ .step → i ≠ .clip → t.nanf = s.nanf ∧ t.draws = s.draws)
      ∧ (i ≠ .run → t.busy = s.busy)
      ∧ (i ≠ .adv → i ≠ .init → t.phase = s.phase)
      ∧ (i = .run ∨ i = .clip → t.frame = s.frame)
      ∧ (i = .init ∨ i = .clip → t.seqf = s.seqf)
      ∧ (s.busy = false → t.busyf = s.busyf)
      ∧ (i = .run ∨ i = .adv ∨ i = .clip → ∀ a, Memory.read t.chunks a = Memory.read s.chunks a)

/-! ## The engine and runs -/

/-- 41_echo_filter R136: an engine step is the frame a `STEP` would compute, and the end of the run after the last
frame; with `BUSY = 0` there is none. -/
def Obligations.EngineStepIsTheStepOfAFrame : Prop :=
  (∀ s : State, s.busy = true → s.frame < s.cfg.chunkFrames →
      ∃ u, exec .step { s with busy := false } = .next u
        ∧ engineStep s = { u with busy := decide (u.frame ≠ s.cfg.chunkFrames) })
    ∧ (∀ s : State, s.busy = false → engineStep s = s)

/-- 41_echo_filter R137, R138: a run takes exactly `CHUNK_FRAMES - FRAME` engine steps, one frame each in ascending
order, and ends with `FRAME = CHUNK_FRAMES`, `BUSY = 0`, `DONE = 1`. -/
def Obligations.RunTakesExactlyTheRemainingSteps : Prop :=
  ∀ s : State, s.busy = false → s.frame < s.cfg.chunkFrames →
    ∃ u, exec .run s = .next u
      ∧ (∀ j, j ≤ s.cfg.chunkFrames - s.frame →
          (engineSteps j u).frame = s.frame + j
            ∧ (engineSteps j u).busy = decide (j < s.cfg.chunkFrames - s.frame))
      ∧ (engineSteps (s.cfg.chunkFrames - s.frame) u).frame = s.cfg.chunkFrames
      ∧ (engineSteps (s.cfg.chunkFrames - s.frame) u).busy = false
      ∧ (engineSteps (s.cfg.chunkFrames - s.frame) u).doneBit = true

/-- 41_echo_filter R136, R137: under any schedule without a reset, a run ends with the turn that is the engine's
`CHUNK_FRAMES - FRAME`th, whatever host turns lie between, as long as the host stays inside the EFU's range (log 10).
With no turn scheduled it ends by the machine's own steps, the model's form of weak fairness (log 4). -/
def Obligations.RunEndsUnderAFairSchedule : Prop :=
  (∀ (s : State) (before after : List Turn), s.Inv → s.busy = true → s.turns = before ++ .engine :: after →
      .reset ∉ before → before.count .engine + 1 = s.cfg.chunkFrames - s.frame →
      (∀ a, .access a ∈ s.script → a.addr < regBase s.cfg + 0x100) →
      ∃ t : State, Host.Core.run Sys2Proof.core (before.length + 1) s = .next t ∧ t.busy = false
        ∧ t.frame = s.cfg.chunkFrames ∧ t.phase = s.phase ∧ t.turns = after ∧ t.script <:+ s.script)
    ∧ (∀ s : State, s.Inv → s.busy = true → s.turns = [] →
      ∃ t : State, Host.Core.run Sys2Proof.core (s.cfg.chunkFrames - s.frame) s = .next t ∧ t.busy = false
        ∧ t.frame = s.cfg.chunkFrames ∧ t.script = s.script ∧ t.phase = s.phase)

/-- 41_echo_filter R128, R138, R144: when a run has ended, every frame it computed holds the clipped value of the
difference equation on the stored Samples of the finished chunk. -/
def Obligations.RunComputesEveryFrame : Prop :=
  ∀ s : State, s.Inv → s.busy = true →
    ∀ t, t = engineSteps (s.cfg.chunkFrames - s.frame) s →
      ∀ n, s.frame ≤ n → n < s.cfg.chunkFrames → ∀ ch,
        (∀ x, clip (t.filterValue n ch) = some x → t.roleSample .loadOut n ch = x)
          ∧ ((t.filterValue n ch).isNaN = true → t.nanf = true)

/-- 41_echo_filter R137, 95 V-F6: a `STEP` and then a run give what the run alone gives. -/
def Obligations.StepsAndRunCompose : Prop :=
  ∀ s u : State, s.busy = false → s.frame + 1 < s.cfg.chunkFrames → exec .step s = .next u →
    ∃ v w, exec .run s = .next v ∧ exec .run u = .next w
      ∧ engineSteps (s.cfg.chunkFrames - s.frame) v = engineSteps (s.cfg.chunkFrames - u.frame) w

/-- 41_echo_filter R140: silence is a fixed point, whatever the coefficients. -/
def Obligations.SilenceIsAFixedPoint : Prop :=
  ∀ s : State, s.Inv → s.busy = true → s.frame = 0 → zeroChunk s (remap s.phase .currIn) →
    zeroChunk s (remap s.phase .prevIn) → zeroChunk s (remap s.phase .feedbackOut) →
    ∀ t, t = engineSteps s.cfg.chunkFrames s → zeroChunk t (remap s.phase .loadOut) ∧ t.nanf = s.nanf

/-! ## The filter -/

/-- 41_echo_filter R126, R127, R128, R132 for `M = N = 3`: the sums from +0.0 in ascending order, then one subtraction. -/
def Obligations.FilterValueIsTheOrderedSum : Prop :=
  ∀ (s : State) (n : Nat) (ch : Channel), s.cfg.m = 3 → s.cfg.n = 3 →
    s.filterValue n ch =
      fsub
        (fadd (fadd (fadd (fadd Flt.zero (fmul (coefB s.cfg 0) (toF (s.tapX n 0 ch))))
          (fmul (coefB s.cfg 1) (toF (s.tapX n 1 ch)))) (fmul (coefB s.cfg 2) (toF (s.tapX n 2 ch))))
          (fmul (coefB s.cfg 3) (toF (s.tapX n 3 ch))))
        (fadd (fadd (fadd Flt.zero (fmul (coefA s.cfg 0) (toF (s.tapY n 1 ch))))
          (fmul (coefA s.cfg 1) (toF (s.tapY n 2 ch)))) (fmul (coefA s.cfg 2) (toF (s.tapY n 3 ch))))

/-- 41_echo_filter R123, R142: where a tap reads, and that it reads inside the chunk. -/
def Obligations.TapPositionsStayInBounds : Prop :=
  ∀ (c : Config) (n k : Nat), c.wellFormed = true → n < c.chunkFrames → k ≤ max c.m c.n →
    (k * c.delay ≤ n → tapPos c n k = .same (n - k * c.delay) ∧ n - k * c.delay < c.chunkFrames
        ∧ ∀ ch, sampleIndex (n - k * c.delay) ch < c.bufferSize)
      ∧ (n < k * c.delay → ∃ f, tapPos c n k = .preceding f ∧ f + k * c.delay = c.chunkFrames + n
          ∧ f < c.chunkFrames ∧ ∀ ch, sampleIndex f ch < c.bufferSize)

/-- 41_echo_filter R139: the filter's value at frame `n` does not depend on `load_out` at frame `n` or later. -/
def Obligations.FilterReadsNoStaleFrame : Prop :=
  ∀ (s t : State) (n : Nat) (ch : Channel), s.cfg.wellFormed = true → n < s.cfg.chunkFrames → t.cfg = s.cfg →
    t.phase = s.phase →
    (∀ (r : Role) (f : Nat), f < s.cfg.chunkFrames → r ≠ .loadOut ∨ f < n → r ≠ .playOut →
      t.roleSample r f ch = s.roleSample r f ch) →
    t.filterValue n ch = s.filterValue n ch

/-- 41_echo_filter R121, 93 I10: a channel's value depends on that channel's Samples alone, and the order of the channels
inside a frame cannot be seen (on values that are no NaN: a NaN's Sample is a free value of its own draw). -/
def Obligations.ChannelsAreIndependent : Prop :=
  (∀ (s t : State) (n : Nat) (ch : Channel), t.cfg = s.cfg → t.phase = s.phase →
      (∀ sl f, t.sample sl (sampleIndex f ch) = s.sample sl (sampleIndex f ch)) →
      t.filterValue n ch = s.filterValue n ch)
    ∧ (∀ s : State, s.Inv → s.frame < s.cfg.chunkFrames → (∀ ch, (s.filterValue s.frame ch).isNaN = false) →
        computeChannel s.frame .right (computeChannel s.frame .left s)
          = computeChannel s.frame .left (computeChannel s.frame .right s))

/-- 41_echo_filter R134: with every coefficient of magnitude at most 2^100 no infinity and no NaN arises, and `NANF`
cannot be reached from the engine. -/
def Obligations.BoundedCoefficientsNeverGiveNaN : Prop :=
  ∀ s : State, s.cfg.wellFormed = true → (∀ k, k ≤ s.cfg.m → |(coefB s.cfg k).value| ≤ 2 ^ 100) →
    (∀ j, j < s.cfg.n → |(coefA s.cfg j).value| ≤ 2 ^ 100) →
    (∀ n ch, (s.filterValue n ch).isNumber = true) ∧ (engineStep s).nanf = s.nanf

/-- 41_echo_filter R148: scaled coefficients of a bounded sum make the arithmetic exact. -/
def Obligations.ScaledCoefficientsAreExact : Prop :=
  ∀ (s : State) (q : Nat), s.cfg.wellFormed = true → q ≤ 100 →
    (∀ k, k ≤ s.cfg.m → ∃ z : ℤ, (coefB s.cfg k).value * 2 ^ q = z) →
    (∀ j, j < s.cfg.n → ∃ z : ℤ, (coefA s.cfg j).value * 2 ^ q = z) →
    ((∑ k ∈ Finset.range (s.cfg.m + 1), |(coefB s.cfg k).value|)
        + ∑ j ∈ Finset.range s.cfg.n, |(coefA s.cfg j).value|) * 2 ^ q ≤ 512 →
    ∀ n ch, (s.filterValue n ch).isNumber = true
      ∧ (s.filterValue n ch).value
        = (∑ k ∈ Finset.range (s.cfg.m + 1), (coefB s.cfg k).value * ((s.tapX n k ch).toInt : ℚ))
          - ∑ j ∈ Finset.range s.cfg.n, (coefA s.cfg j).value * ((s.tapY n (j + 1) ch).toInt : ℚ)

/-! ## The number format and the clipper -/

/-- 41_echo_filter R130: each operation is the exact result rounded once, to nearest, ties to even, with overflow to
an infinity. -/
def Obligations.ArithmeticIsRoundedOnce : Prop :=
  ∀ p q : Flt, p.isNumber = true → q.isNumber = true →
    RoundsTo (p.value * q.value) (fmul p q) ∧ RoundsTo (p.value + q.value) (fadd p q)
      ∧ RoundsTo (p.value - q.value) (fsub p q)

/-- 41_echo_filter R131: `toF` is exact, `toF(0) = +0.0`, and every integer of magnitude at most 2^24 is a binary32 value. -/
def Obligations.ToFIsExact : Prop :=
  (∀ s : Sample, (toF s).isNumber = true ∧ (toF s).value = (s.toInt : ℚ)) ∧ toF 0#16 = Flt.zero
    ∧ (∀ z : ℤ, |z| ≤ 2 ^ 24 → ∃ v : Flt, v.isNumber = true ∧ v.value = (z : ℚ))

/-- 00_scope R11: `bits32` is the inverse of `f32`, on every word, the NaN words among them, and on every value a
word has; and the operations and `toF` give only such values, whatever NaN an operation gives (log 9). -/
def Obligations.BitsAndValuesAgree : Prop :=
  (∀ w : Word, bits32 (f32 w) = w)
    ∧ (∀ v : Flt, v.representable = true → f32 (bits32 v) = v)
    ∧ (∀ w : Word, (f32 w).representable = true)
    ∧ (∀ x : Sample, (toF x).representable = true)
    ∧ (∀ p q : Flt, (fmul p q).representable = true ∧ (fadd p q).representable = true ∧ (fsub p q).representable = true)

/-- 40_clipper R100, R101, R103: `clip` rounds the exact value half away from zero and saturates; infinities
saturate. R102: saturating the incoming value and rounding what lies between is the same function. -/
def Obligations.ClipRoundsThenSaturates : Prop :=
  (∀ (neg : Bool) (mag : Nat) (v : Flt), v = .fin neg mag →
      ∃ x, clip v = some x
        ∧ x.toInt = max (-32768) (min 32767 ((if 0 ≤ v.value then 1 else -1) * ⌊|v.value| + 1 / 2⌋)))
    ∧ clip (.inf false) = some (BitVec.ofInt 16 32767) ∧ clip (.inf true) = some (BitVec.ofInt 16 (-32768))
    ∧ (∀ v : Flt, clip v = none ↔ v.isNaN = true)
    ∧ (∀ (neg : Bool) (mag : Nat) (v : Flt) (x : Sample), v = .fin neg mag → clip v = some x →
        (32767 ≤ v.value → x.toInt = 32767) ∧ (v.value ≤ -32768 → x.toInt = -32768)
          ∧ (-32768 < v.value → v.value < 32767 → x.toInt = rha neg mag))

/-- 40_clipper R106: `clip` is idempotent. -/
def Obligations.ClipIsIdempotent : Prop :=
  ∀ (v : Flt) (x : Sample), clip v = some x → clip (toF x) = some x

/-- 40_clipper R105: zeros and every value of magnitude below 1/2, subnormals included, clip to 0.
R107: monotone, odd except at the bounds, in range, within 1/2. -/
def Obligations.ClipLaws : Prop :=
  (∀ (neg : Bool) (mag : Nat), |(Flt.fin neg mag).value| < 1 / 2 → clip (.fin neg mag) = some 0#16)
    ∧ (∀ (a b : Bool) (p q : Nat) (x y : Sample), (Flt.fin a p).value ≤ (Flt.fin b q).value →
      clip (.fin a p) = some x → clip (.fin b q) = some y → x.toInt ≤ y.toInt)
    ∧ (∀ (v : Flt) (x lo hi : Sample), clip v = some x → clip (.inf true) = some lo → clip (.inf false) = some hi →
        lo.toInt ≤ x.toInt ∧ x.toInt ≤ hi.toInt)
    ∧ (∀ (v : Flt) (x y : Sample), clip v = some x → clip (fneg v) = some y → -32768 < x.toInt → -32768 < y.toInt →
        y.toInt = -x.toInt)
    ∧ (∀ (v : Flt) (x : Sample), clip v = some x → -32768 ≤ x.toInt ∧ x.toInt ≤ 32767)
    ∧ (∀ (neg : Bool) (mag : Nat) (x : Sample), clip (.fin neg mag) = some x →
        -32768 ≤ (Flt.fin neg mag).value → (Flt.fin neg mag).value ≤ 32767 →
        |(x.toInt : ℚ) - (Flt.fin neg mag).value| ≤ 1 / 2)

/-! ## The ring -/

/-- 42_buffer_ring R160, R161, with the idle slot: the table. -/
def Obligations.RemapIsTheTable : Prop :=
  (∀ c : Fin 4, (remap c .currIn).number = c.val % 2 ∧ (remap c .prevIn).number = (c.val + 1) % 2
      ∧ (remap c .loadOut).number = c.val ∧ (remap c .playOut).number = (c.val + 2) % 4
      ∧ (remap c .feedbackOut).number = (c.val + 3) % 4 ∧ (idleSlot c).number = (c.val + 1) % 4)
    ∧ remap 0 .currIn = .input 0 ∧ remap 0 .prevIn = .input 1 ∧ remap 0 .loadOut = .output 0
    ∧ remap 0 .playOut = .output 2 ∧ remap 0 .feedbackOut = .output 3 ∧ idleSlot 0 = .output 1
    ∧ remap 1 .currIn = .input 1 ∧ remap 1 .prevIn = .input 0 ∧ remap 1 .loadOut = .output 1
    ∧ remap 1 .playOut = .output 3 ∧ remap 1 .feedbackOut = .output 0 ∧ idleSlot 1 = .output 2
    ∧ remap 2 .currIn = .input 0 ∧ remap 2 .prevIn = .input 1 ∧ remap 2 .loadOut = .output 2
    ∧ remap 2 .playOut = .output 0 ∧ remap 2 .feedbackOut = .output 1 ∧ idleSlot 2 = .output 3
    ∧ remap 3 .currIn = .input 1 ∧ remap 3 .prevIn = .input 0 ∧ remap 3 .loadOut = .output 3
    ∧ remap 3 .playOut = .output 1 ∧ remap 3 .feedbackOut = .output 2 ∧ idleSlot 3 = .output 0

/-- 42_buffer_ring R162: the roles are distinct chunks, and distinct chunks do not share a Sample. -/
def Obligations.RolesAreDistinctChunks : Prop :=
  (∀ (c : Fin 4) (r r' : Role), r ≠ r' → remap c r ≠ remap c r')
    ∧ (∀ (c : Fin 4) (r : Role), remap c r ≠ idleSlot c)
    ∧ (∀ (s : State) (sl sl' : Slot) (i j : Nat) (v : Sample), i < s.cfg.bufferSize → j < s.cfg.bufferSize →
        sl ≠ sl' → (s.setSample sl i v).sample sl' j = s.sample sl' j)

/-- 10_state R23: the fields of `MAP` and its four values. -/
def Obligations.MapSpellsOutRemap : Prop :=
  (∀ c : Fin 4, (mapWord c).extractLsb' 0 1 = BitVec.ofNat 1 (remap c .currIn).number
      ∧ (mapWord c).extractLsb' 1 1 = BitVec.ofNat 1 (remap c .prevIn).number
      ∧ (mapWord c).extractLsb' 2 2 = BitVec.ofNat 2 (remap c .loadOut).number
      ∧ (mapWord c).extractLsb' 4 2 = BitVec.ofNat 2 (remap c .playOut).number
      ∧ (mapWord c).extractLsb' 6 2 = BitVec.ofNat 2 (remap c .feedbackOut).number
      ∧ (mapWord c).extractLsb' 8 2 = BitVec.ofNat 2 (idleSlot c).number
      ∧ (mapWord c).extractLsb' 10 22 = 0#22)
    ∧ mapWord 0 = 0x000001E2#32 ∧ mapWord 1 = 0x00000235#32 ∧ mapWord 2 = 0x0000034A#32 ∧ mapWord 3 = 0x0000009D#32

/-- 42_buffer_ring R166: after an `ADV` each role holds what another held before it. -/
def Obligations.HistoryMovesWithThePhase : Prop :=
  ∀ s t : State, s.busy = false → s.frame = 0 ∨ s.frame = s.cfg.chunkFrames → exec .adv s = .next t →
    ∀ i, t.sample (remap t.phase .prevIn) i = s.sample (remap s.phase .currIn) i
      ∧ t.sample (remap t.phase .currIn) i = s.sample (remap s.phase .prevIn) i
      ∧ t.sample (remap t.phase .feedbackOut) i = s.sample (remap s.phase .loadOut) i
      ∧ t.sample (remap t.phase .playOut) i = s.sample (remap s.phase .feedbackOut) i
      ∧ t.sample (idleSlot t.phase) i = s.sample (remap s.phase .playOut) i
      ∧ t.sample (remap t.phase .loadOut) i = s.sample (idleSlot s.phase) i

/-- Derived from 41_echo_filter R143, 42_buffer_ring R166: after the `ADV` that ends a complete chunk, a tap that wraps reads the
frame of the last cycle's input or output chunk whose stream index is `k * DELAY` back, so a chunk boundary does not show. -/
def Obligations.ChunkBoundariesDoNotShow : Prop :=
  ∀ s t : State, s.busy = false → s.frame = s.cfg.chunkFrames → exec .adv s = .next t →
    ∀ n k ch,
      (n < k * s.cfg.delay →
          t.tapX n k ch = s.roleSample .currIn (s.cfg.chunkFrames + n - k * s.cfg.delay) ch
            ∧ t.tapY n k ch = s.roleSample .loadOut (s.cfg.chunkFrames + n - k * s.cfg.delay) ch)
        ∧ (k * s.cfg.delay ≤ n →
          t.tapX n k ch = t.roleSample .currIn (n - k * s.cfg.delay) ch
            ∧ t.tapY n k ch = t.roleSample .loadOut (n - k * s.cfg.delay) ch)

/-! ## The whole machine -/

/-- 42_buffer_ring R165: `PHASE` is never skipped, never moved backwards and never set to an arbitrary value. -/
def Obligations.PhaseOnlyAdvancesOrReturnsToZero : Prop :=
  ∀ s t : State, step s = .next t →
    t.phase = s.phase ∨ (t.phase.val = (s.phase.val + 1) % 4 ∧ IssuesCommand .adv s)
      ∨ (t.phase.val = 0 ∧ (nextTurn s = .reset ∨ IssuesCommand .init s))

/-- 10_state R24, 41_echo_filter R138: `FRAME` advances by exactly 1 per computed frame, or returns to 0. -/
def Obligations.FrameOnlyAdvancesOrReturnsToZero : Prop :=
  ∀ s t : State, s.Inv → step s = .next t →
    t.frame = s.frame
      ∨ (t.frame = s.frame + 1 ∧ s.frame < s.cfg.chunkFrames
          ∧ ((nextTurn s = .engine ∧ s.busy = true) ∨ IssuesCommand .step s))
      ∨ (t.frame = 0 ∧ (nextTurn s = .reset ∨ IssuesCommand .init s ∨ IssuesCommand .adv s))

/-- 60_exceptions R190, 10_state R25: a fault flag once set is cleared by reset and by nothing else. -/
def Obligations.FaultFlagsAreSticky : Prop :=
  ∀ (s t : State) (f : FaultFlag), step s = .next t →
    (nextTurn s ≠ .reset → s.flag f = true → t.flag f = true) ∧ (nextTurn s = .reset → t.flag f = false)

/-- 60_exceptions R187, first sentence: a step raises at most one flag, and an engine step none but `NANF`. -/
def Obligations.AtMostOneFaultPerStep : Prop :=
  ∀ s t : State, step s = .next t →
    (∃ f : FaultFlag, ∀ g, g ≠ f → t.flag g = true → s.flag g = true)
      ∧ (nextTurn s = .engine → ∀ g : FaultFlag, g ≠ .nanf → t.flag g = s.flag g)

/-- 70_reset R212, 10_state R31: no step, a reset included, changes a coefficient or any other parameter. -/
def Obligations.NoStepChangesTheConfiguration : Prop :=
  ∀ s t : State, step s = .next t → t.cfg = s.cfg

/-- 10_state R33: who writes which chunk. -/
def Obligations.OnlyTheOwnerWritesAChunk : Prop :=
  ∀ s t : State, s.Inv → step s = .next t → nextTurn s ≠ .reset → ¬ IssuesCommand .init s →
    ∀ i, i < s.cfg.bufferSize →
      (∀ sl, sl ≠ remap s.phase .currIn → sl ≠ remap s.phase .loadOut → t.sample sl i = s.sample sl i)
        ∧ (i ≠ 2 * s.frame → i ≠ 2 * s.frame + 1 →
            t.sample (remap s.phase .loadOut) i = s.sample (remap s.phase .loadOut) i)
        ∧ (t.frame = s.frame → t.sample (remap s.phase .loadOut) i = s.sample (remap s.phase .loadOut) i)
        ∧ (nextTurn s ≠ .host ∨ s.busy = true →
            t.sample (remap s.phase .currIn) i = s.sample (remap s.phase .currIn) i)

/-! ## The host port -/

/-- 20_memory R53: the four access forms of a window. The last clause, the order of a Sample's bytes, rests on R54, which
the spec marks as derived, and on `sampleAddr`, the model's own layout (log 7). -/
def Obligations.WindowAccessesFollowRemap : Prop :=
  (∀ (s : State) (r : Role) (off : Nat), s.Inv → off < s.cfg.chunkBytes → s.busy = false ∨ r ≠ .loadOut →
      (off % 2 = 0 → ReadsAs ((s.sample (remap s.phase r) (off / 2)).zeroExtend 32)
          (readAccess (windowAddr s.cfg r off) 2) s)
        ∧ (off % 4 = 0 → ReadsAs (s.sample (remap s.phase r) (off / 2 + 1) ++ s.sample (remap s.phase r) (off / 2))
            (readAccess (windowAddr s.cfg r off) 4) s))
    ∧ (∀ (s : State) (off : Nat) (v : Word), s.Inv → off < s.cfg.chunkBytes → s.busy = false →
        (off % 2 = 0 → ∃ u, hostAccess (writeAccess (windowAddr s.cfg .currIn off) 2 v) s = .next u
            ∧ u = { s with chunks := u.chunks, reply := .done }
            ∧ u.sample (remap s.phase .currIn) (off / 2) = v.extractLsb' 0 16
            ∧ ∀ sl i, i < s.cfg.bufferSize → sl ≠ remap s.phase .currIn ∨ i ≠ off / 2 →
                u.sample sl i = s.sample sl i)
          ∧ (off % 4 = 0 → ∃ u, hostAccess (writeAccess (windowAddr s.cfg .currIn off) 4 v) s = .next u
              ∧ u = { s with chunks := u.chunks, reply := .done }
              ∧ u.sample (remap s.phase .currIn) (off / 2) = v.extractLsb' 0 16
              ∧ u.sample (remap s.phase .currIn) (off / 2 + 1) = v.extractLsb' 16 16
              ∧ ∀ sl i, i < s.cfg.bufferSize → sl ≠ remap s.phase .currIn ∨ (i ≠ off / 2 ∧ i ≠ off / 2 + 1) →
                  u.sample sl i = s.sample sl i))
    ∧ (∀ (s : State) (sl : Slot) (i : Nat),
        (s.sample sl i).extractLsb' 0 8 = Memory.read s.chunks (sampleAddr s.cfg sl i)
          ∧ (s.sample sl i).extractLsb' 8 8 = Memory.read s.chunks (sampleAddr s.cfg sl i + 1))

/-- 20_memory R59, 60_exceptions R183: every row of the table of accesses during a run. -/
def Obligations.AccessesDuringARun : Prop :=
  ∀ s : State, s.Inv → s.busy = true →
    (∀ r v, r.allows .read = true → regAt s.cfg r.offset = some r → v = s.readReg r →
        ReadsAs v (readAccess (regAddr s.cfg r) 4) s)
      ∧ (∀ v, hostAccess (writeAccess (regAddr s.cfg .clipin) 4 v) s
          = .next { s with clipin := v, reply := .done })
      ∧ (∀ w, hostAccess (commandAccess s.cfg w) s = .next { s with busyf := true, reply := .done })
      ∧ (∀ (r : Role) (off : Nat), off < s.cfg.chunkBytes → r ≠ .loadOut →
          (off % 2 = 0 → ReadsAs ((s.sample (remap s.phase r) (off / 2)).zeroExtend 32)
              (readAccess (windowAddr s.cfg r off) 2) s)
            ∧ (off % 4 = 0 → ReadsAs
                (s.sample (remap s.phase r) (off / 2 + 1) ++ s.sample (remap s.phase r) (off / 2))
                (readAccess (windowAddr s.cfg r off) 4) s))
      ∧ (∀ off width v, off < s.cfg.chunkBytes → (width = 2 ∧ off % 2 = 0) ∨ (width = 4 ∧ off % 4 = 0) →
          hostAccess (writeAccess (windowAddr s.cfg .currIn off) width v) s
              = .next { s with busyf := true, reply := .done }
            ∧ RefusedWith .busyf (readAccess (windowAddr s.cfg .loadOut off) width) s)

/-- 60_exceptions R186: every cause of `ACCF`, during a run or not, and that the access does nothing else. -/
def Obligations.BadAccessRaisesOnlyAccf : Prop :=
  ∀ (s : State) (a : Access), s.cfg.wellFormed = true → a.addr < regBase s.cfg + 0x100 →
    (a.width ≠ 2 → a.width ≠ 4 → RefusedWith .accf a s)
      ∧ (a.width = 2 ∨ a.width = 4 → a.addr % a.width ≠ 0 → RefusedWith .accf a s)
      ∧ (a.width = 2 → regBase s.cfg ≤ a.addr → RefusedWith .accf a s)
      ∧ (∀ off, a.addr = regBase s.cfg + off →
          (0x1C ≤ off ∧ off < 0x40) ∨ (0x40 + 4 * (s.cfg.m + 1) ≤ off ∧ off < 0x80)
            ∨ (0x80 + 4 * s.cfg.n ≤ off ∧ off < 0xC0) ∨ (0xC0 ≤ off ∧ off < 0x100) → RefusedWith .accf a s)
      ∧ (∀ r, a.kind = .write → a.addr = regAddr s.cfg r → r ≠ .cmd → r ≠ .clipin →
          regAt s.cfg r.offset = some r → RefusedWith .accf a s)
      ∧ (a.kind = .read → a.addr = regAddr s.cfg .cmd → RefusedWith .accf a s)
      ∧ (a.kind = .write → s.cfg.chunkBytes ≤ a.addr → a.addr < regBase s.cfg → RefusedWith .accf a s)

/-- 20_memory R57: `CURR_IN` is the one window the host may write; after `ADV` the slot is `prev_in`, which it may not. -/
def Obligations.OnlyCurrInIsWritable : Prop :=
  (∀ (s : State) (r : Role) (off width : Nat) (v : Word), s.cfg.wellFormed = true → r ≠ .currIn →
      off < s.cfg.chunkBytes →
      hostAccess (writeAccess (windowAddr s.cfg r off) width v) s = .next { s with accf := true, reply := .done })
    ∧ (∀ (s : State) (off width : Nat) (v : Word), s.cfg.wellFormed = true → s.busy = true → off < s.cfg.chunkBytes →
        (width = 2 ∧ off % 2 = 0) ∨ (width = 4 ∧ off % 4 = 0) →
        hostAccess (writeAccess (windowAddr s.cfg .currIn off) width v) s
          = .next { s with busyf := true, reply := .done })
    ∧ (∀ s t u : State, s.busy = false → exec .adv s = .next t → t.phase ≠ s.phase → t.busy = false →
        exec .adv t = .next u → u.phase ≠ t.phase →
        remap t.phase .prevIn = remap s.phase .currIn ∧ remap u.phase .currIn = remap s.phase .currIn)

/-- 20_memory R56: a read has no side effect on the EFU beyond a fault flag, and may be repeated. -/
def Obligations.ReadsHaveNoSideEffect : Prop :=
  ∀ (a : Access) (s u : State), a.kind = .read → hostAccess a s = .next u →
    (u = { s with reply := u.reply } ∧ hostAccess a u = .next u) ∨ RefusedWith .accf a s
      ∨ (s.busy = true ∧ RefusedWith .busyf a s)

/-- 10_state R22, R24, R25, R30, R31: what each readable register reads as, and that `CLIPIN` stores any pattern
written to it, during a run or not. -/
def Obligations.RegistersReadTheirContents : Prop :=
  ∀ s : State, s.cfg.wellFormed = true →
    ReadsAs s.statusWord (readAccess (regBase s.cfg + 0x04) 4) s
      ∧ ReadsAs (BitVec.ofNat 32 s.phase.val) (readAccess (regBase s.cfg + 0x08) 4) s
      ∧ (s.frame < 2 ^ 32 → ∃ v, ReadsAs v (readAccess (regBase s.cfg + 0x0C) 4) s ∧ v.toNat = s.frame)
      ∧ ReadsAs (mapWord s.phase) (readAccess (regBase s.cfg + 0x10) 4) s
      ∧ ReadsAs s.clipin (readAccess (regBase s.cfg + 0x14) 4) s
      ∧ (∃ v, ReadsAs v (readAccess (regBase s.cfg + 0x18) 4) s ∧ v.toInt = s.clipout.toInt)
      ∧ (∀ k x, k ≤ s.cfg.m → s.cfg.b[k]? = some x →
          ReadsAs (coefWord x) (readAccess (regBase s.cfg + 0x40 + 4 * k) 4) s)
      ∧ (∀ j x, j < s.cfg.n → s.cfg.a[j]? = some x →
          ReadsAs (coefWord x) (readAccess (regBase s.cfg + 0x80 + 4 * j) 4) s)
      ∧ (∀ v, hostAccess (writeAccess (regBase s.cfg + 0x14) 4 v) s = .next { s with clipin := v, reply := .done })

/-- 10_state R25: every bit of `STATUS`. -/
def Obligations.StatusBitsAreTheFlags : Prop :=
  ∀ (s : State) (j : Nat), s.statusWord.getLsbD j = true ↔
    (j = 0 ∧ s.busy = true) ∨ (j = 1 ∧ s.frame = s.cfg.chunkFrames) ∨ (∃ f : FaultFlag, j = f.code ∧ s.flag f = true)

/-- 60_exceptions R187: `ACCF` before `BUSYF` before `CMDF` before `SEQF`: the rule's examples, and each pair of
neighbours in states a run reaches. During a run `FRAME` is below `CHUNK_FRAMES` (10_state R26), so the command out of
sequence then is `ADV`. -/
def Obligations.FaultsAreRaisedInOrder : Prop :=
  ∀ s : State, s.cfg.wellFormed = true →
    (∀ v, s.busy = true → hostAccess (writeAccess (regBase s.cfg) 2 v) s = .next { s with accf := true, reply := .done })
      ∧ (∀ w, s.busy = true → (∀ i, w ≠ encode i) →
          hostAccess (commandAccess s.cfg w) s = .next { s with busyf := true, reply := .done })
      ∧ (∀ off width v, s.busy = true → off < s.cfg.chunkBytes →
          hostAccess (writeAccess (windowAddr s.cfg .playOut off) width v) s
            = .next { s with accf := true, reply := .done })
      ∧ (∀ i, s.busy = true →
          hostAccess (commandAccess s.cfg (encode i)) s = .next { s with busyf := true, reply := .done })
      ∧ (s.Inv → s.busy = true → 0 < s.frame →
          hostAccess (commandAccess s.cfg (encode .adv)) s = .next { s with busyf := true, reply := .done }
            ∧ ∀ t, t = { s with busy := false } →
              hostAccess (commandAccess s.cfg (encode .adv)) t = .next { t with seqf := true, reply := .done })
      ∧ (∀ w, s.busy = false → (∀ i, w ≠ encode i) →
          hostAccess (commandAccess s.cfg w) s = .next { s with cmdf := true, reply := .done })
      ∧ (∀ i, i = .step ∨ i = .run → s.busy = false → s.frame = s.cfg.chunkFrames →
          hostAccess (commandAccess s.cfg (encode i)) s = .next { s with seqf := true, reply := .done })
      ∧ (s.busy = false → 0 < s.frame → s.frame < s.cfg.chunkFrames →
          hostAccess (commandAccess s.cfg (encode .adv)) s = .next { s with seqf := true, reply := .done })

/-- 30_encoding R86: `PUT f, L, R` stores frame `f`, and `GET CURR_IN, f` then reads it back, left in the low half. -/
def Obligations.PutThenGetReturnsTheFrame : Prop :=
  ∀ (s : State) (f : Nat) (l r : Int), s.Inv → s.busy = false → f < s.cfg.chunkFrames →
    ∃ a g u, (Line.put f l r).expand s.cfg = [.access a] ∧ (Line.get .currIn f).expand s.cfg = [.access g]
      ∧ hostAccess a s = .next u ∧ ReadsAs (BitVec.ofInt 16 r ++ BitVec.ofInt 16 l) g u
      ∧ u.roleSample .currIn f .left = BitVec.ofInt 16 l ∧ u.roleSample .currIn f .right = BitVec.ofInt 16 r
end

