-- ==== Sys2Proof/Laws/Config.lean ====
section
/-! SUPPORT. What a well-formed configuration gives (00_scope R8), and the words of the commands. -/

namespace Sys2Proof

/-- 00_scope R8 as arithmetic. -/
theorem Config.wellFormed_iff (c : Config) :
    c.wellFormed = true ↔
      0 < c.bufferSize ∧ c.bufferSize % 2 = 0 ∧ c.m * c.delay ≤ c.chunkFrames ∧ c.n * c.delay ≤ c.chunkFrames
        ∧ 1 ≤ c.delay ∧ c.m ≤ 15 ∧ c.n ≤ 16 ∧ c.b.length = c.m + 1 ∧ c.a.length = c.n := by
  simp only [Config.wellFormed, Config.sizeOk, Config.delayOk, Config.ordersOk, Config.coefsOk, Bool.and_eq_true,
    decide_eq_true_eq]
  simp only [Config.channels, Config.maxFfDelay, Config.maxFbDelay]
  constructor
  · rintro ⟨⟨⟨⟨h1, h2⟩, h3, h4⟩, ⟨h5, h6⟩, h7⟩, h8, h9⟩; exact ⟨h1, h2, h3, h4, h5, h6, h7, h8, h9⟩
  · rintro ⟨h1, h2, h3, h4, h5, h6, h7, h8, h9⟩; exact ⟨⟨⟨⟨h1, h2⟩, h3, h4⟩, ⟨h5, h6⟩, h7⟩, h8, h9⟩

/-- A well-formed chunk is two Samples a frame and holds a frame. -/
theorem Config.bufferSize_eq {c : Config} (h : c.wellFormed = true) :
    c.bufferSize = 2 * c.chunkFrames ∧ 0 < c.chunkFrames := by
  have h' := (Config.wellFormed_iff c).1 h
  have : c.chunkFrames = c.bufferSize / 2 := rfl
  omega

/-- A chunk's bytes are a multiple of 4 (20_memory R55). -/
theorem Config.chunkBytes_of_wellFormed {c : Config} (h : c.wellFormed = true) :
    c.chunkBytes = 4 * c.chunkFrames := by
  have h' := Config.bufferSize_eq h
  have : c.chunkBytes = c.bufferSize * 2 := rfl
  omega

/-- A word is its two fields put together (30_encoding R80). -/
theorem append_fields (w : Word) : opcField w ++ zeroField w = w := by
  unfold opcField zeroField
  apply BitVec.eq_of_getLsbD_eq
  intro j hj
  rw [BitVec.getLsbD_append, BitVec.getLsbD_extractLsb', BitVec.getLsbD_extractLsb']
  by_cases h : j < 28
  · simp [h]
  · have : j - 28 < 4 := by omega
    simp [h, this, show 28 + (j - 28) = j by omega]

end Sys2Proof
end

