-- ==== Sys2Proof/Laws/State.lean ====
section
/-! SUPPORT. What each update of the state leaves of each field, one lemma per field and update. -/

namespace Sys2Proof.Machine

variable (f g : FaultFlag) (s : State) (r : Reply) (sl : Slot) (i : Nat) (v : Sample)

@[simp] theorem raise_phase : (raise f s).phase = s.phase := by cases f <;> rfl
@[simp] theorem raise_frame : (raise f s).frame = s.frame := by cases f <;> rfl
@[simp] theorem raise_busy : (raise f s).busy = s.busy := by cases f <;> rfl
@[simp] theorem raise_clipin : (raise f s).clipin = s.clipin := by cases f <;> rfl
@[simp] theorem raise_clipout : (raise f s).clipout = s.clipout := by cases f <;> rfl
@[simp] theorem raise_chunks : (raise f s).chunks = s.chunks := by cases f <;> rfl
@[simp] theorem raise_cfg : (raise f s).cfg = s.cfg := by cases f <;> rfl
@[simp] theorem raise_turns : (raise f s).turns = s.turns := by cases f <;> rfl
@[simp] theorem raise_script : (raise f s).script = s.script := by cases f <;> rfl
@[simp] theorem raise_reply : (raise f s).reply = s.reply := by cases f <;> rfl
@[simp] theorem raise_draws : (raise f s).draws = s.draws := by cases f <;> rfl

/-- Raising a flag sets it and no other (60_exceptions R181). -/
theorem raise_flag : (raise f s).flag g = (s.flag g || decide (g = f)) := by
  cases f <;> cases g <;> simp [raise, State.flag]

@[simp] theorem drawn_phase : (drawn s).phase = s.phase := rfl
@[simp] theorem drawn_frame : (drawn s).frame = s.frame := rfl
@[simp] theorem drawn_busy : (drawn s).busy = s.busy := rfl
@[simp] theorem drawn_cmdf : (drawn s).cmdf = s.cmdf := rfl
@[simp] theorem drawn_busyf : (drawn s).busyf = s.busyf := rfl
@[simp] theorem drawn_seqf : (drawn s).seqf = s.seqf := rfl
@[simp] theorem drawn_nanf : (drawn s).nanf = s.nanf := rfl
@[simp] theorem drawn_accf : (drawn s).accf = s.accf := rfl
@[simp] theorem drawn_clipin : (drawn s).clipin = s.clipin := rfl
@[simp] theorem drawn_clipout : (drawn s).clipout = s.clipout := rfl
@[simp] theorem drawn_chunks : (drawn s).chunks = s.chunks := rfl
@[simp] theorem drawn_cfg : (drawn s).cfg = s.cfg := rfl
@[simp] theorem drawn_turns : (drawn s).turns = s.turns := rfl
@[simp] theorem drawn_script : (drawn s).script = s.script := rfl
@[simp] theorem drawn_reply : (drawn s).reply = s.reply := rfl
@[simp] theorem drawn_draws : (drawn s).draws = s.draws + 1 := rfl
@[simp] theorem drawn_flag : (drawn s).flag g = s.flag g := by cases g <;> rfl

@[simp] theorem withReply_phase : (withReply r s).phase = s.phase := rfl
@[simp] theorem withReply_frame : (withReply r s).frame = s.frame := rfl
@[simp] theorem withReply_busy : (withReply r s).busy = s.busy := rfl
@[simp] theorem withReply_cmdf : (withReply r s).cmdf = s.cmdf := rfl
@[simp] theorem withReply_busyf : (withReply r s).busyf = s.busyf := rfl
@[simp] theorem withReply_seqf : (withReply r s).seqf = s.seqf := rfl
@[simp] theorem withReply_nanf : (withReply r s).nanf = s.nanf := rfl
@[simp] theorem withReply_accf : (withReply r s).accf = s.accf := rfl
@[simp] theorem withReply_clipin : (withReply r s).clipin = s.clipin := rfl
@[simp] theorem withReply_clipout : (withReply r s).clipout = s.clipout := rfl
@[simp] theorem withReply_chunks : (withReply r s).chunks = s.chunks := rfl
@[simp] theorem withReply_cfg : (withReply r s).cfg = s.cfg := rfl
@[simp] theorem withReply_turns : (withReply r s).turns = s.turns := rfl
@[simp] theorem withReply_script : (withReply r s).script = s.script := rfl
@[simp] theorem withReply_reply : (withReply r s).reply = r := rfl
@[simp] theorem withReply_draws : (withReply r s).draws = s.draws := rfl
@[simp] theorem withReply_flag : (withReply r s).flag g = s.flag g := by cases g <;> rfl

@[simp] theorem setSample_phase : (s.setSample sl i v).phase = s.phase := rfl
@[simp] theorem setSample_frame : (s.setSample sl i v).frame = s.frame := rfl
@[simp] theorem setSample_busy : (s.setSample sl i v).busy = s.busy := rfl
@[simp] theorem setSample_cmdf : (s.setSample sl i v).cmdf = s.cmdf := rfl
@[simp] theorem setSample_busyf : (s.setSample sl i v).busyf = s.busyf := rfl
@[simp] theorem setSample_seqf : (s.setSample sl i v).seqf = s.seqf := rfl
@[simp] theorem setSample_nanf : (s.setSample sl i v).nanf = s.nanf := rfl
@[simp] theorem setSample_accf : (s.setSample sl i v).accf = s.accf := rfl
@[simp] theorem setSample_clipin : (s.setSample sl i v).clipin = s.clipin := rfl
@[simp] theorem setSample_clipout : (s.setSample sl i v).clipout = s.clipout := rfl
@[simp] theorem setSample_chunks :
    (s.setSample sl i v).chunks = writeSampleAt s.chunks (sampleAddr s.cfg sl i) v := rfl
@[simp] theorem setSample_cfg : (s.setSample sl i v).cfg = s.cfg := rfl
@[simp] theorem setSample_turns : (s.setSample sl i v).turns = s.turns := rfl
@[simp] theorem setSample_script : (s.setSample sl i v).script = s.script := rfl
@[simp] theorem setSample_reply : (s.setSample sl i v).reply = s.reply := rfl
@[simp] theorem setSample_draws : (s.setSample sl i v).draws = s.draws := rfl
@[simp] theorem setSample_flag : (s.setSample sl i v).flag g = s.flag g := by cases g <;> rfl

@[simp] theorem resetEvent_phase : (resetEvent s).phase = 0 := rfl
@[simp] theorem resetEvent_frame : (resetEvent s).frame = 0 := rfl
@[simp] theorem resetEvent_busy : (resetEvent s).busy = false := rfl
@[simp] theorem resetEvent_clipin : (resetEvent s).clipin = 0#32 := rfl
@[simp] theorem resetEvent_clipout : (resetEvent s).clipout = 0#16 := rfl
@[simp] theorem resetEvent_chunks : (resetEvent s).chunks = [] := rfl
@[simp] theorem resetEvent_cfg : (resetEvent s).cfg = s.cfg := rfl
@[simp] theorem resetEvent_turns : (resetEvent s).turns = s.turns := rfl
@[simp] theorem resetEvent_script : (resetEvent s).script = s.script := rfl
@[simp] theorem resetEvent_reply : (resetEvent s).reply = s.reply := rfl
@[simp] theorem resetEvent_draws : (resetEvent s).draws = s.draws := rfl
@[simp] theorem resetEvent_flag : (resetEvent s).flag g = false := by cases g <;> rfl

@[simp] theorem advEffect_phase : (advEffect s).phase = s.phase + 1 := rfl
@[simp] theorem advEffect_frame : (advEffect s).frame = 0 := rfl
@[simp] theorem advEffect_busy : (advEffect s).busy = s.busy := rfl
@[simp] theorem advEffect_chunks : (advEffect s).chunks = s.chunks := rfl
@[simp] theorem advEffect_cfg : (advEffect s).cfg = s.cfg := rfl
@[simp] theorem advEffect_flag : (advEffect s).flag g = s.flag g := by cases g <;> rfl

@[simp] theorem initEffect_phase : (initEffect s).phase = 0 := rfl
@[simp] theorem initEffect_frame : (initEffect s).frame = 0 := rfl
@[simp] theorem initEffect_busy : (initEffect s).busy = s.busy := rfl
@[simp] theorem initEffect_chunks : (initEffect s).chunks = [] := rfl
@[simp] theorem initEffect_cfg : (initEffect s).cfg = s.cfg := rfl
@[simp] theorem initEffect_flag : (initEffect s).flag g = s.flag g := by cases g <;> rfl

@[simp] theorem runEffect_phase : (runEffect s).phase = s.phase := rfl
@[simp] theorem runEffect_frame : (runEffect s).frame = s.frame := rfl
@[simp] theorem runEffect_busy : (runEffect s).busy = true := rfl
@[simp] theorem runEffect_chunks : (runEffect s).chunks = s.chunks := rfl
@[simp] theorem runEffect_cfg : (runEffect s).cfg = s.cfg := rfl
@[simp] theorem runEffect_flag : (runEffect s).flag g = s.flag g := by cases g <;> rfl

/-- Applying `clip` changes `NANF` and the count of draws at most (40_clipper R104). -/
theorem afterClip_eq (x : Flt) :
    afterClip s x = { s with nanf := s.nanf || x.isNaN, draws := s.draws + (if x.isNaN then 1 else 0) } := by
  cases x with
  | nan => simp [afterClip, clip, Flt.isNaN, drawn, raise]
  | inf b => cases b <;> simp [afterClip, clip, Flt.isNaN]
  | fin b m => simp [afterClip, clip, Flt.isNaN]

@[simp] theorem afterClip_phase (x : Flt) : (afterClip s x).phase = s.phase := by rw [afterClip_eq]
@[simp] theorem afterClip_frame (x : Flt) : (afterClip s x).frame = s.frame := by rw [afterClip_eq]
@[simp] theorem afterClip_busy (x : Flt) : (afterClip s x).busy = s.busy := by rw [afterClip_eq]
@[simp] theorem afterClip_cmdf (x : Flt) : (afterClip s x).cmdf = s.cmdf := by rw [afterClip_eq]
@[simp] theorem afterClip_busyf (x : Flt) : (afterClip s x).busyf = s.busyf := by rw [afterClip_eq]
@[simp] theorem afterClip_seqf (x : Flt) : (afterClip s x).seqf = s.seqf := by rw [afterClip_eq]
@[simp] theorem afterClip_accf (x : Flt) : (afterClip s x).accf = s.accf := by rw [afterClip_eq]
@[simp] theorem afterClip_nanf (x : Flt) : (afterClip s x).nanf = (s.nanf || x.isNaN) := by rw [afterClip_eq]
@[simp] theorem afterClip_clipin (x : Flt) : (afterClip s x).clipin = s.clipin := by rw [afterClip_eq]
@[simp] theorem afterClip_clipout (x : Flt) : (afterClip s x).clipout = s.clipout := by rw [afterClip_eq]
@[simp] theorem afterClip_chunks (x : Flt) : (afterClip s x).chunks = s.chunks := by rw [afterClip_eq]
@[simp] theorem afterClip_cfg (x : Flt) : (afterClip s x).cfg = s.cfg := by rw [afterClip_eq]
@[simp] theorem afterClip_turns (x : Flt) : (afterClip s x).turns = s.turns := by rw [afterClip_eq]
@[simp] theorem afterClip_script (x : Flt) : (afterClip s x).script = s.script := by rw [afterClip_eq]
@[simp] theorem afterClip_reply (x : Flt) : (afterClip s x).reply = s.reply := by rw [afterClip_eq]

end Sys2Proof.Machine
end

