-- ==== Sys2Proof/Laws/Memory.lean ====
section
/-! SUPPORT. The laws of memory: read after write, the canonical form, and the places of the Samples. -/

namespace Sys2Proof.Machine

@[simp] theorem Memory.read_nil (a : Nat) : Memory.read [] a = 0#8 := rfl

@[simp] theorem Memory.wf_nil : Memory.wf [] = true := rfl

/-- A write leaves every other byte alone. -/
theorem Memory.read_write_ne (m : Memory) {a b : Nat} (v : Byte) (h : b ≠ a) :
    Memory.read (Memory.write m a v) b = Memory.read m b := by
  induction m with
  | nil =>
    by_cases hv : v = 0#8
    · simp [Memory.write, hv]
    · simp [Memory.write, hv, Memory.read, Ne.symm h]
  | cons c t ih =>
    obtain ⟨k, w⟩ := c
    have h' : a ≠ b := Ne.symm h
    unfold Memory.write
    split_ifs with h1 h2 h3 h4
    · rfl
    · simp [Memory.read, h']
    · subst h3; simp [Memory.read, h']
    · subst h3; simp [Memory.read, h']
    · by_cases hk : k = b <;> simp [Memory.read, hk, ih]

/-- A lower bound below is a lower bound above: the canonical form asks no more of a smaller bound. -/
theorem Memory.wfAbove_mono {lo lo' : Option Nat} (m : Memory) (h : Memory.wfAbove lo m = true)
    (hlo : ∀ b', lo' = some b' → ∃ b, lo = some b ∧ b' ≤ b) : Memory.wfAbove lo' m = true := by
  cases m with
  | nil => rfl
  | cons c t =>
    obtain ⟨k, v⟩ := c
    cases lo' with
    | none =>
      simp only [Memory.wfAbove, Bool.and_eq_true] at h ⊢
      exact ⟨⟨rfl, h.1.2⟩, h.2⟩
    | some b' =>
      obtain ⟨b, rfl, hb⟩ := hlo b' rfl
      simp only [Memory.wfAbove, aboveBound, Bool.and_eq_true, decide_eq_true_eq] at h ⊢
      exact ⟨⟨by omega, h.1.2⟩, h.2⟩

/-- A byte at or below the lower bound is not listed. -/
theorem Memory.read_of_le {b : Nat} (m : Memory) (h : Memory.wfAbove (some b) m = true) {a : Nat} (ha : a ≤ b) :
    Memory.read m a = 0#8 := by
  induction m generalizing b with
  | nil => rfl
  | cons c t ih =>
    obtain ⟨k, v⟩ := c
    simp only [Memory.wfAbove, aboveBound, Bool.and_eq_true, decide_eq_true_eq] at h
    rw [Memory.read, if_neg (by omega)]
    exact ih h.2 (by omega)

theorem Memory.read_write_same_above {lo : Option Nat} (m : Memory) (a : Nat) (v : Byte)
    (h : Memory.wfAbove lo m = true) : Memory.read (Memory.write m a v) a = v := by
  induction m generalizing lo with
  | nil => by_cases hv : v = 0#8 <;> simp [Memory.write, hv, Memory.read]
  | cons c t ih =>
    obtain ⟨k, w⟩ := c
    simp only [Memory.wfAbove, Bool.and_eq_true, decide_eq_true_eq] at h
    unfold Memory.write
    split_ifs with h1 h2 h3 h4
    · rw [Memory.read, if_neg (by omega), Memory.read_of_le t h.2 (by omega), h2]
    · simp [Memory.read]
    · subst h3; rw [Memory.read_of_le t h.2 le_rfl, h4]
    · simp [Memory.read]
    · rw [Memory.read, if_neg (by omega)]; exact ih h.2

/-- A byte written is read back. -/
theorem Memory.read_write_same (m : Memory) (a : Nat) (v : Byte) (h : Memory.wf m = true) :
    Memory.read (Memory.write m a v) a = v := Memory.read_write_same_above m a v h

theorem Memory.wfAbove_write {lo : Option Nat} (m : Memory) (a : Nat) (v : Byte) (h : Memory.wfAbove lo m = true)
    (ha : ∀ b, lo = some b → b < a) : Memory.wfAbove lo (Memory.write m a v) = true := by
  induction m generalizing lo with
  | nil =>
    by_cases hv : v = 0#8
    · simp [Memory.write, hv, Memory.wfAbove]
    · cases lo <;> simp_all [Memory.write, Memory.wfAbove, aboveBound]
  | cons c t ih =>
    obtain ⟨k, w⟩ := c
    have h0 := h
    simp only [Memory.wfAbove, Bool.and_eq_true, decide_eq_true_eq] at h
    have hlo : aboveBound lo a = true := by
      cases lo with
      | none => rfl
      | some b => simpa [aboveBound] using ha b rfl
    unfold Memory.write
    split_ifs with h1 h2 h3 h4
    · exact h0
    · simp only [Memory.wfAbove, Bool.and_eq_true, decide_eq_true_eq]
      exact ⟨⟨hlo, h2⟩, ⟨by simpa [aboveBound] using h1, h.1.2⟩, h.2⟩
    · subst h3
      refine Memory.wfAbove_mono t h.2 fun b' hb' => ⟨a, rfl, ?_⟩
      exact (ha b' hb').le
    · subst h3
      simp only [Memory.wfAbove, Bool.and_eq_true, decide_eq_true_eq]
      exact ⟨⟨hlo, h4⟩, h.2⟩
    · simp only [Memory.wfAbove, Bool.and_eq_true, decide_eq_true_eq]
      exact ⟨h.1, ih h.2 fun b hb => by cases hb; omega⟩

/-- A write keeps the canonical form. -/
theorem Memory.wf_write (m : Memory) (a : Nat) (v : Byte) (h : Memory.wf m = true) :
    Memory.wf (Memory.write m a v) = true :=
  Memory.wfAbove_write m a v h fun _ hb => by cases hb

/-- Two memories in canonical form that read alike are the same list. -/
theorem Memory.ext_above {lo lo' : Option Nat} (m m' : Memory) (h : Memory.wfAbove lo m = true)
    (h' : Memory.wfAbove lo' m' = true) (hr : ∀ a, Memory.read m a = Memory.read m' a) : m = m' := by
  induction m generalizing lo lo' m' with
  | nil =>
    cases m' with
    | nil => rfl
    | cons c t =>
      obtain ⟨k, v⟩ := c
      simp only [Memory.wfAbove, Bool.and_eq_true, decide_eq_true_eq] at h'
      have := hr k
      simp [Memory.read] at this
      exact absurd this.symm h'.1.2
  | cons c t ih =>
    obtain ⟨k, v⟩ := c
    simp only [Memory.wfAbove, Bool.and_eq_true, decide_eq_true_eq] at h
    cases m' with
    | nil =>
      have := hr k
      simp [Memory.read] at this
      exact absurd this h.1.2
    | cons c' t' =>
      obtain ⟨k', v'⟩ := c'
      simp only [Memory.wfAbove, Bool.and_eq_true, decide_eq_true_eq] at h'
      rcases lt_trichotomy k k' with hk | hk | hk
      · have := hr k
        rw [Memory.read, if_pos rfl, Memory.read, if_neg (by omega), Memory.read_of_le t' h'.2 (by omega)] at this
        exact absurd this h.1.2
      · subst hk
        have hv := hr k
        simp only [Memory.read, if_true] at hv
        subst hv
        congr 1
        refine ih t' h.2 h'.2 fun a => ?_
        by_cases ha : k = a
        · subst ha
          rw [Memory.read_of_le t h.2 le_rfl, Memory.read_of_le t' h'.2 le_rfl]
        · simpa [Memory.read, ha] using hr a
      · have := hr k'
        rw [Memory.read, if_neg (by omega), Memory.read_of_le t h.2 (by omega), Memory.read, if_pos rfl] at this
        exact absurd this.symm h'.1.2

/-- Equal memories are equal data. -/
theorem Memory.ext_of_wf {m m' : Memory} (h : Memory.wf m = true) (h' : Memory.wf m' = true)
    (hr : ∀ a, Memory.read m a = Memory.read m' a) : m = m' := Memory.ext_above m m' h h' hr

/-- The reset memory is in canonical form. -/
theorem reset_memory_wf : Memory.wf State.reset.chunks = true := rfl

/-- A write inside the chunks keeps the memory inside them. -/
theorem inChunks_write (c : Config) (m : Memory) (a : Nat) (v : Byte) (h : inChunks c m = true)
    (ha : a < 6 * c.chunkBytes) : inChunks c (Memory.write m a v) = true := by
  induction m with
  | nil => by_cases hv : v = 0#8 <;> simp [Memory.write, hv, inChunks, ha]
  | cons x t ih =>
    obtain ⟨k, w⟩ := x
    have h0 := h
    simp only [inChunks, List.all_cons, Bool.and_eq_true, decide_eq_true_eq] at h ih ⊢
    unfold Memory.write
    split_ifs with h1 h2 h3 h4
    · exact h0
    · simp only [List.all_cons, Bool.and_eq_true, decide_eq_true_eq]; exact ⟨ha, h⟩
    · exact h.2
    · simp only [List.all_cons, Bool.and_eq_true, decide_eq_true_eq]; exact ⟨ha, h.2⟩
    · simp only [List.all_cons, Bool.and_eq_true, decide_eq_true_eq]; exact ⟨h.1, ih h.2⟩

theorem writeSampleAt_wf (m : Memory) (a : Nat) (v : Sample) (h : Memory.wf m = true) :
    Memory.wf (writeSampleAt m a v) = true := Memory.wf_write _ _ _ (Memory.wf_write _ _ _ h)

theorem writeSampleAt_inChunks (c : Config) (m : Memory) (a : Nat) (v : Sample) (h : inChunks c m = true)
    (ha : a + 1 < 6 * c.chunkBytes) : inChunks c (writeSampleAt m a v) = true :=
  inChunks_write _ _ _ _ (inChunks_write _ _ _ _ h (by omega)) ha

/-- Writing a Sample changes the two bytes at its address and no other. -/
theorem read_writeSampleAt_ne (m : Memory) (a b : Nat) (v : Sample) (h : b < a ∨ a + 2 ≤ b) :
    Memory.read (writeSampleAt m a v) b = Memory.read m b := by
  rw [writeSampleAt, Memory.read_write_ne _ _ (by omega), Memory.read_write_ne _ _ (by omega)]

/-- A Sample written is read back. -/
theorem readSampleAt_writeSampleAt_same (m : Memory) (a : Nat) (v : Sample) (h : Memory.wf m = true) :
    readSampleAt (writeSampleAt m a v) a = v := by
  unfold readSampleAt writeSampleAt
  rw [Memory.read_write_same _ _ _ (Memory.wf_write _ _ _ h), Memory.read_write_ne _ _ (by omega),
    Memory.read_write_same _ _ _ h]
  apply BitVec.eq_of_getLsbD_eq
  intro i hi
  simp only [BitVec.getLsbD_append, BitVec.getLsbD_extractLsb']
  by_cases h8 : i < 8
  · simp [h8]
  · simp only [h8, if_false]
    have : i - 8 < 8 := by omega
    simp [this, show 8 + (i - 8) = i by omega]

/-- Samples two or more bytes apart do not meet. -/
theorem readSampleAt_writeSampleAt_ne (m : Memory) (a b : Nat) (v : Sample) (h : b + 2 ≤ a ∨ a + 2 ≤ b) :
    readSampleAt (writeSampleAt m a v) b = readSampleAt m b := by
  unfold readSampleAt
  rw [read_writeSampleAt_ne _ _ _ _ (by omega), read_writeSampleAt_ne _ _ _ _ (by omega)]

/-- `CHUNK_BYTES` is two bytes a Sample (00_scope R7). -/
theorem chunkBytes_eq (c : Config) : c.chunkBytes = 2 * c.bufferSize := by
  simp [Config.chunkBytes, Config.sampleBytes, Config.sampleBits, Nat.mul_comm]

theorem chunkFrames_eq (c : Config) : c.chunkFrames = c.bufferSize / 2 := rfl

@[simp] theorem sampleIndex_left (f : Nat) : sampleIndex f .left = 2 * f := by
  simp [sampleIndex, Channel.index, Config.channels]

@[simp] theorem sampleIndex_right (f : Nat) : sampleIndex f .right = 2 * f + 1 := by
  simp [sampleIndex, Channel.index, Config.channels]

theorem sampleAddr_eq (c : Config) (sl : Slot) (i : Nat) :
    sampleAddr c sl i = sl.place * (2 * c.bufferSize) + 2 * i := by
  simp [sampleAddr, chunkBytes_eq, Config.sampleBytes, Config.sampleBits]

theorem place_lt (sl : Slot) : sl.place < 6 := by
  cases sl with
  | input s => have := s.isLt; simp [Slot.place]; omega
  | output s => have := s.isLt; simp [Slot.place]; omega

theorem place_injective {sl sl' : Slot} (h : sl.place = sl'.place) : sl = sl' := by
  cases sl with
  | input s =>
    cases sl' with
    | input s' => simp only [Slot.place] at h; exact congrArg _ (Fin.ext h)
    | output s' => have := s.isLt; simp only [Slot.place] at h; omega
  | output s =>
    cases sl' with
    | input s' => have := s'.isLt; simp only [Slot.place] at h; omega
    | output s' => simp only [Slot.place] at h; exact congrArg _ (Fin.ext (by omega))

/-- Samples of a chunk lie inside the chunk memories. -/
theorem sampleAddr_lt (c : Config) (sl : Slot) (i : Nat) (h : i < c.bufferSize) :
    sampleAddr c sl i + 1 < 6 * c.chunkBytes := by
  have hp := place_lt sl
  rw [sampleAddr_eq, chunkBytes_eq]
  have : sl.place * (2 * c.bufferSize) ≤ 5 * (2 * c.bufferSize) := Nat.mul_le_mul_right _ (by omega)
  omega

/-- Different Samples of the six chunks have different places. -/
theorem sampleAddr_apart (c : Config) {sl sl' : Slot} {i j : Nat} (hi : i < c.bufferSize) (hj : j < c.bufferSize)
    (h : sl ≠ sl' ∨ i ≠ j) :
    sampleAddr c sl' j + 2 ≤ sampleAddr c sl i ∨ sampleAddr c sl i + 2 ≤ sampleAddr c sl' j := by
  rw [sampleAddr_eq, sampleAddr_eq]
  by_cases hs : sl.place = sl'.place
  · have : sl = sl' := place_injective hs
    subst this
    have hne : i ≠ j := by simpa using h
    omega
  · rcases Nat.lt_or_gt_of_ne hs with hlt | hgt
    · have : (sl.place + 1) * (2 * c.bufferSize) ≤ sl'.place * (2 * c.bufferSize) := Nat.mul_le_mul_right _ hlt
      rw [Nat.add_mul] at this
      omega
    · have : (sl'.place + 1) * (2 * c.bufferSize) ≤ sl.place * (2 * c.bufferSize) := Nat.mul_le_mul_right _ hgt
      rw [Nat.add_mul] at this
      omega

/-- The Sample just written. -/
theorem sample_setSample_same (s : State) (sl : Slot) (i : Nat) (v : Sample) (h : Memory.wf s.chunks = true) :
    (s.setSample sl i v).sample sl i = v := readSampleAt_writeSampleAt_same _ _ _ h

/-- Every other Sample of the six chunks keeps its value. -/
theorem sample_setSample_ne (s : State) {sl sl' : Slot} {i j : Nat} (v : Sample) (hi : i < s.cfg.bufferSize)
    (hj : j < s.cfg.bufferSize) (h : sl ≠ sl' ∨ i ≠ j) :
    (s.setSample sl i v).sample sl' j = s.sample sl' j :=
  readSampleAt_writeSampleAt_ne _ _ _ _ (sampleAddr_apart s.cfg hi hj h)

theorem sample_congr {s t : State} (hm : t.chunks = s.chunks) (hc : t.cfg = s.cfg) (sl : Slot) (i : Nat) :
    t.sample sl i = s.sample sl i := by simp [State.sample, hm, hc]

@[simp] theorem sample_of_empty {s : State} (h : s.chunks = []) (sl : Slot) (i : Nat) : s.sample sl i = 0#16 := by
  simp [State.sample, readSampleAt, h]

end Sys2Proof.Machine
end

