-- ==== Sys2Proof/Laws/Filter.lean ====
section
/-! SUPPORT. What computing a frame, a `STEP` and an engine step can do (41_echo_filter). -/

namespace Sys2Proof.Machine

/-- The commands' acceptance (30_encoding R87): one of three outcomes, each a next state. -/
theorem accept_cases {q : Bool} {e : State → State} {s u : State} (h : accept q e s = .next u) :
    (s.busy = true ∧ u = raise .busyf s) ∨ (s.busy = false ∧ q = false ∧ u = raise .seqf s)
      ∨ (s.busy = false ∧ q = true ∧ u = e s) := by
  unfold accept at h
  cases hb : s.busy <;> cases q <;> simp_all

/-- An accepted command takes its effect. -/
theorem accept_of_ready {q : Bool} {e : State → State} {s : State} (hb : s.busy = false) (hq : q = true) :
    accept q e s = .next (e s) := by simp [accept, hb, hq]

/-- While a run is in progress every command is refused with `BUSYF` (60_exceptions R183). -/
theorem accept_of_busy {q : Bool} {e : State → State} {s : State} (hb : s.busy = true) :
    accept q e s = .next (raise .busyf s) := by simp [accept, hb]

/-- A command out of sequence is refused with `SEQF` (60_exceptions R184). -/
theorem accept_of_out_of_sequence {q : Bool} {e : State → State} {s : State} (hb : s.busy = false)
    (hq : q = false) : accept q e s = .next (raise .seqf s) := by simp [accept, hb, hq]

variable (n : Nat) (ch : Channel) (s : State)

@[simp] theorem computeChannel_phase : (computeChannel n ch s).phase = s.phase := by simp [computeChannel]
@[simp] theorem computeChannel_frame : (computeChannel n ch s).frame = s.frame := by simp [computeChannel]
@[simp] theorem computeChannel_busy : (computeChannel n ch s).busy = s.busy := by simp [computeChannel]
@[simp] theorem computeChannel_cmdf : (computeChannel n ch s).cmdf = s.cmdf := by simp [computeChannel]
@[simp] theorem computeChannel_busyf : (computeChannel n ch s).busyf = s.busyf := by simp [computeChannel]
@[simp] theorem computeChannel_seqf : (computeChannel n ch s).seqf = s.seqf := by simp [computeChannel]
@[simp] theorem computeChannel_accf : (computeChannel n ch s).accf = s.accf := by simp [computeChannel]
@[simp] theorem computeChannel_nanf :
    (computeChannel n ch s).nanf = (s.nanf || (s.filterValue n ch).isNaN) := by simp [computeChannel]
@[simp] theorem computeChannel_clipin : (computeChannel n ch s).clipin = s.clipin := by simp [computeChannel]
@[simp] theorem computeChannel_clipout : (computeChannel n ch s).clipout = s.clipout := by simp [computeChannel]
@[simp] theorem computeChannel_cfg : (computeChannel n ch s).cfg = s.cfg := by simp [computeChannel]
@[simp] theorem computeChannel_turns : (computeChannel n ch s).turns = s.turns := by simp [computeChannel]
@[simp] theorem computeChannel_script : (computeChannel n ch s).script = s.script := by simp [computeChannel]
@[simp] theorem computeChannel_reply : (computeChannel n ch s).reply = s.reply := by simp [computeChannel]
@[simp] theorem computeChannel_chunks :
    (computeChannel n ch s).chunks = writeSampleAt s.chunks
      (sampleAddr s.cfg (remap s.phase .loadOut) (sampleIndex n ch)) (clippedSample s (s.filterValue n ch)) := by
  simp [computeChannel]

@[simp] theorem computeFrame_phase : (computeFrame n s).phase = s.phase := by simp [computeFrame]
@[simp] theorem computeFrame_frame : (computeFrame n s).frame = s.frame := by simp [computeFrame]
@[simp] theorem computeFrame_busy : (computeFrame n s).busy = s.busy := by simp [computeFrame]
@[simp] theorem computeFrame_cmdf : (computeFrame n s).cmdf = s.cmdf := by simp [computeFrame]
@[simp] theorem computeFrame_busyf : (computeFrame n s).busyf = s.busyf := by simp [computeFrame]
@[simp] theorem computeFrame_seqf : (computeFrame n s).seqf = s.seqf := by simp [computeFrame]
@[simp] theorem computeFrame_accf : (computeFrame n s).accf = s.accf := by simp [computeFrame]
@[simp] theorem computeFrame_clipin : (computeFrame n s).clipin = s.clipin := by simp [computeFrame]
@[simp] theorem computeFrame_clipout : (computeFrame n s).clipout = s.clipout := by simp [computeFrame]
@[simp] theorem computeFrame_cfg : (computeFrame n s).cfg = s.cfg := by simp [computeFrame]
@[simp] theorem computeFrame_turns : (computeFrame n s).turns = s.turns := by simp [computeFrame]
@[simp] theorem computeFrame_script : (computeFrame n s).script = s.script := by simp [computeFrame]
@[simp] theorem computeFrame_reply : (computeFrame n s).reply = s.reply := by simp [computeFrame]

/-- Every byte outside the four bytes of frame `n` of `load_out` keeps its value (20_memory R60). -/
theorem computeFrame_read (a : Nat)
    (h : a < sampleAddr s.cfg (remap s.phase .loadOut) (sampleIndex n .left)
      ∨ sampleAddr s.cfg (remap s.phase .loadOut) (sampleIndex n .left) + 4 ≤ a) :
    Memory.read (computeFrame n s).chunks a = Memory.read s.chunks a := by
  rw [computeFrame, computeChannel_chunks, computeChannel_chunks]
  simp only [computeChannel_cfg, computeChannel_phase, sampleIndex_left, sampleIndex_right, sampleAddr_eq] at h ⊢
  rw [read_writeSampleAt_ne _ _ _ _ (by omega), read_writeSampleAt_ne _ _ _ _ (by omega)]

/-- Computing a frame keeps memory canonical. -/
theorem computeFrame_wf (h : Memory.wf s.chunks = true) : Memory.wf (computeFrame n s).chunks = true := by
  rw [computeFrame, computeChannel_chunks, computeChannel_chunks]
  exact writeSampleAt_wf _ _ _ (writeSampleAt_wf _ _ _ h)

/-- Computing a frame of the chunk stays inside the chunk memories. -/
theorem computeFrame_inChunks (hn : n < s.cfg.chunkFrames) (h : inChunks s.cfg s.chunks = true) :
    inChunks s.cfg (computeFrame n s).chunks = true := by
  rw [chunkFrames_eq] at hn
  rw [computeFrame, computeChannel_chunks, computeChannel_chunks]
  simp only [computeChannel_cfg, computeChannel_phase]
  refine writeSampleAt_inChunks _ _ _ _ (writeSampleAt_inChunks _ _ _ _ h (sampleAddr_lt _ _ _ ?_))
    (sampleAddr_lt _ _ _ ?_)
  · rw [sampleIndex_left]; omega
  · rw [sampleIndex_right]; omega

@[simp] theorem nextFrame_phase : (nextFrame s).phase = s.phase := by simp [nextFrame]
@[simp] theorem nextFrame_frame : (nextFrame s).frame = s.frame + 1 := rfl
@[simp] theorem nextFrame_busy : (nextFrame s).busy = s.busy := by simp [nextFrame]
@[simp] theorem nextFrame_cfg : (nextFrame s).cfg = s.cfg := by simp [nextFrame]
@[simp] theorem nextFrame_turns : (nextFrame s).turns = s.turns := by simp [nextFrame]
@[simp] theorem nextFrame_script : (nextFrame s).script = s.script := by simp [nextFrame]
@[simp] theorem nextFrame_reply : (nextFrame s).reply = s.reply := by simp [nextFrame]
@[simp] theorem nextFrame_chunks : (nextFrame s).chunks = (computeFrame s.frame s).chunks := rfl

/-- A frame computed clears no flag (10_state R25). -/
theorem nextFrame_flag (f : FaultFlag) (h : s.flag f = true) : (nextFrame s).flag f = true := by
  cases f <;> simp_all [State.flag, nextFrame, computeFrame]

/-- An engine step of a running engine (41_echo_filter R136). -/
theorem engineStep_of_busy (h : s.busy = true) :
    engineStep s = { nextFrame s with busy := !decide (s.frame + 1 = s.cfg.chunkFrames) } := by
  rw [engineStep, if_pos h]; rfl

/-- An engine that is not enabled takes no step. -/
theorem engineStep_of_idle (h : s.busy = false) : engineStep s = s := by simp [engineStep, h]

@[simp] theorem engineStep_cfg : (engineStep s).cfg = s.cfg := by
  cases hb : s.busy
  · rw [engineStep_of_idle _ hb]
  · rw [engineStep_of_busy _ hb]; simp

@[simp] theorem engineStep_phase : (engineStep s).phase = s.phase := by
  cases hb : s.busy
  · rw [engineStep_of_idle _ hb]
  · rw [engineStep_of_busy _ hb]; simp

@[simp] theorem engineStep_script : (engineStep s).script = s.script := by
  cases hb : s.busy
  · rw [engineStep_of_idle _ hb]
  · rw [engineStep_of_busy _ hb]; simp

@[simp] theorem engineStep_turns : (engineStep s).turns = s.turns := by
  cases hb : s.busy
  · rw [engineStep_of_idle _ hb]
  · rw [engineStep_of_busy _ hb]; simp

/-- The engine never accepts a fault flag's return to 0 (10_state R25). -/
theorem engineStep_flag (f : FaultFlag) (h : s.flag f = true) : (engineStep s).flag f = true := by
  cases hb : s.busy
  · rwa [engineStep_of_idle _ hb]
  · rw [engineStep_of_busy _ hb]
    have := nextFrame_flag s f h
    cases f <;> simpa [State.flag] using this

/-- The filter's value at a frame depends only on the configuration, the phase and the tapped Samples. -/
theorem filterValue_congr {s t : State} (hc : t.cfg = s.cfg)
    (hx : ∀ k, k ≤ s.cfg.m → t.tapX n k ch = s.tapX n k ch)
    (hy : ∀ k, 1 ≤ k → k ≤ s.cfg.n → t.tapY n k ch = s.tapY n k ch) :
    t.filterValue n ch = s.filterValue n ch := by
  have key : ∀ (f g : Nat → Flt) (c : Nat), (∀ k, k < c → f k = g k) → sumTerms f c = sumTerms g c := by
    intro f g c h
    induction c with
    | zero => rfl
    | succ c ih => simp only [sumTerms]; rw [ih fun k hk => h k (by omega), h c (by omega)]
  unfold State.filterValue State.inputSum State.outputSum
  rw [hc]
  congr 1
  · exact key _ _ _ fun k hk => by rw [hx k (by omega)]
  · exact key _ _ _ fun k hk => by rw [hy (k + 1) (by omega) (by omega)]

end Sys2Proof.Machine
end

