-- ==== Sys2Proof/Laws/PerInstr.lean ====
section
/-! SUPPORT. Statements about every command as syntax, one lemma per constructor (30_encoding R80, R81). -/

namespace Sys2Proof.Laws.Encoding

/-- The command is well formed and its word decodes to it and to nothing else. -/
def Statement (i : Instr) : Prop :=
  i.wellFormed = true ∧ decode (encode i) = .ok i ∧ zeroField (encode i) = 0#28

theorem init : Statement .init := by unfold Statement; decide
theorem step : Statement .step := by unfold Statement; decide
theorem run : Statement .run := by unfold Statement; decide
theorem adv : Statement .adv := by unfold Statement; decide
theorem clip : Statement .clip := by unfold Statement; decide

end Sys2Proof.Laws.Encoding
end

