-- ==== Sys2Proof/Laws/Step.lean ====
section
/-! SUPPORT. What a command, a host access and a step can do, said once each. -/

namespace Sys2Proof.Machine

/-- What a command that answers can do (30_encoding R87). -/
theorem exec_cases {i : Instr} {s u : State} (h : exec i s = .next u) :
    (s.busy = true ∧ u = raise .busyf s) ∨ (s.busy = false ∧ u = raise .seqf s)
      ∨ (s.busy = false ∧ i = .init ∧ u = initEffect s)
      ∨ (s.busy = false ∧ i = .step ∧ s.frame < s.cfg.chunkFrames ∧ u = nextFrame s)
      ∨ (s.busy = false ∧ i = .run ∧ s.frame < s.cfg.chunkFrames ∧ u = runEffect s)
      ∨ (s.busy = false ∧ i = .adv ∧ (s.frame = 0 ∨ s.frame = s.cfg.chunkFrames) ∧ u = advEffect s)
      ∨ (s.busy = false ∧ i = .clip ∧ u = clipEffect s) := by
  cases i <;> simp only [exec, execInit, execStep, execRun, execAdv, execClip] at h <;>
    rcases accept_cases h with ⟨h1, h2⟩ | ⟨h1, -, h2⟩ | ⟨h1, h3, h2⟩ <;> simp_all

/-- A command never stops the machine. -/
theorem exec_next (i : Instr) (s : State) : ∃ u, exec i s = .next u := by
  cases i <;> simp only [exec, execInit, execStep, execRun, execAdv, execClip, accept] <;> split_ifs <;>
    exact ⟨_, rfl⟩

/-- `CMD` is at offset 0 of the register block and at no other (10_state R35). -/
theorem regAt_cmd {c : Config} {off : Nat} (h : regAt c off = some .cmd) : off = 0 := by
  unfold regAt at h
  split_ifs at h <;> first | assumption | simp at h

/-- A 4-byte write at `CMD` is the issue of a command word (30_encoding R80). -/
theorem eq_commandAccess {a : Access} {c : Config} {off : Nat} (ht : target c a.addr = some (.register off))
    (hr : regAt c off = some .cmd) (hw : a.width = 4) (hk : a.kind = .write) : a = commandAccess c a.data := by
  have h0 := regAt_cmd hr
  unfold target at ht
  split_ifs at ht with h1 h2
  · cases ht
  · simp only [Option.some.injEq, Target.register.injEq] at ht
    have : a.addr = regBase c := by omega
    cases a
    simp_all [commandAccess, Reg.offset]

/-- What a host access that answers can do (60_exceptions R187). -/
theorem hostAccess_cases {a : Access} {s u : State} (h : hostAccess a s = .next u) :
    u = refuseAccess .accf a s ∨ (s.busy = true ∧ u = refuseAccess .busyf a s)
      ∨ (a.kind = .read ∧ ∃ v, u = withReply (.value v) s)
      ∨ (a.kind = .write ∧ s.busy = false ∧ ∃ off, off < s.cfg.chunkBytes ∧ windowWidthOk a.width off = true
          ∧ u = withReply .done (writeWindow .currIn off a.width a.data s))
      ∨ (a.kind = .write ∧ u = { withReply .done s with clipin := a.data })
      ∨ (a = commandAccess s.cfg a.data ∧ s.busy = false ∧ (∃ e, decode a.data = .error e)
          ∧ u = raise .cmdf (withReply .done s))
      ∨ (a = commandAccess s.cfg a.data ∧ s.busy = false
          ∧ ∃ i, decode a.data = .ok i ∧ exec i (withReply .done s) = .next u) := by
  unfold hostAccess at h
  cases ht : target s.cfg a.addr with
  | none => simp [ht] at h
  | some t =>
    simp only [ht] at h
    cases hp : permitted s.cfg a.kind a.width t with
    | false => simp [hp] at h; exact .inl h.symm
    | true =>
      simp only [hp, if_true] at h
      cases hb : (s.busy && barredWhileBusy s.cfg a.kind t) with
      | true =>
        simp [hb] at h
        simp only [Bool.and_eq_true] at hb
        exact .inr (.inl ⟨hb.1, h.symm⟩)
      | false =>
        simp only [hb, Bool.false_eq_true, if_false] at h
        cases t with
        | window r off =>
          cases hk : a.kind with
          | read =>
            simp [performAccess, hk] at h
            exact .inr (.inr (.inl ⟨rfl, _, h.symm⟩))
          | write =>
            simp [permitted, hk] at hp
            obtain ⟨hw, rfl⟩ := hp
            simp [barredWhileBusy, hk] at hb
            simp [performAccess, hk] at h
            refine .inr (.inr (.inr (.inl ⟨rfl, hb, off, ?_, hw, h.symm⟩)))
            unfold target at ht
            split_ifs at ht with h1 h2
            · simp only [Option.some.injEq, Target.window.injEq] at ht
              rw [← ht.2]
              refine Nat.mod_lt _ (Nat.pos_of_ne_zero fun h0 => ?_)
              simp [regBase, h0] at h1
            · cases ht
        | register off =>
          cases hr : regAt s.cfg off with
          | none => simp [permitted, hr] at hp
          | some r =>
            cases hk : a.kind with
            | read =>
              simp [performAccess, hk, hr] at h
              exact .inr (.inr (.inl ⟨rfl, _, h.symm⟩))
            | write =>
              simp only [performAccess, hk, hr] at h
              simp only [permitted, hr, hk, Bool.and_eq_true] at hp
              cases r <;> simp [Reg.allows] at hp <;> simp only [writeReg] at h
              · have ha := eq_commandAccess ht hr hp hk
                simp [barredWhileBusy, hr, hk] at hb
                simp only [issue, withReply_busy, hb, Bool.false_eq_true, if_false] at h
                cases hd : decode a.data with
                | error e =>
                  simp only [hd, Host.Outcome.next.injEq] at h
                  exact .inr (.inr (.inr (.inr (.inr (.inl ⟨ha, hb, ⟨e, rfl⟩, h.symm⟩)))))
                | ok i =>
                  simp only [hd] at h
                  exact .inr (.inr (.inr (.inr (.inr (.inr ⟨ha, hb, i, rfl, h⟩)))))
              · simp only [Host.Outcome.next.injEq] at h
                exact .inr (.inr (.inr (.inr (.inl ⟨rfl, h.symm⟩))))

/-- A host access inside the EFU's range always answers (00_scope R13). -/
theorem hostAccess_next {a : Access} {s : State} (h : a.addr < regBase s.cfg + regBlockBytes) :
    ∃ u, hostAccess a s = .next u := by
  unfold hostAccess
  have ht : ∃ t, target s.cfg a.addr = some t := by
    unfold target; split_ifs <;> exact ⟨_, rfl⟩
  obtain ⟨t, ht⟩ := ht
  simp only [ht]
  split_ifs
  · exact ⟨_, rfl⟩
  · unfold performAccess
    split
    · exact ⟨_, rfl⟩
    · exact ⟨_, rfl⟩
    · split <;> exact ⟨_, rfl⟩
    · split
      · unfold writeReg
        split
        · unfold issue
          split
          · exact ⟨_, rfl⟩
          · split
            · exact ⟨_, rfl⟩
            · exact exec_next _ _
        · exact ⟨_, rfl⟩
        · exact ⟨_, rfl⟩
      · exact ⟨_, rfl⟩
  · exact ⟨_, rfl⟩

/-- The state in which an agent takes its turn: the schedule has moved on. -/
def afterTurn (s : State) : State := { s with turns := s.turns.tail }

/-- What a step that answers can do: the host idles, makes an access or polls; the engine steps; or the reset
event happens (00_scope R12). -/
theorem step_cases {s t : State} (h : step s = .next t) :
    s.cfg.wellFormed = true ∧
      ((nextTurn s = .host ∧ s.script = [] ∧ t = afterTurn s)
        ∨ (nextTurn s = .host ∧ ∃ a rest, s.script = .access a :: rest
            ∧ hostAccess a { afterTurn s with script := rest } = .next t)
        ∨ (nextTurn s = .host ∧ ∃ rest, s.script = .wait :: rest
            ∧ hostAccess (pollAccess s.cfg) (if s.busy then afterTurn s else { afterTurn s with script := rest })
              = .next t)
        ∨ (nextTurn s = .engine ∧ t = engineStep (afterTurn s))
        ∨ (nextTurn s = .reset ∧ t = resetEvent (afterTurn s))) := by
  unfold step takeTurn at h
  cases hw : s.cfg.wellFormed with
  | false => simp [hw] at h
  | true =>
    simp only [hw, if_true] at h
    refine ⟨rfl, ?_⟩
    cases hn : nextTurn s with
    | engine => simp only [hn, Host.Outcome.next.injEq] at h; exact .inr (.inr (.inr (.inl ⟨rfl, h.symm⟩)))
    | reset => simp only [hn, Host.Outcome.next.injEq] at h; exact .inr (.inr (.inr (.inr ⟨rfl, h.symm⟩)))
    | host =>
      simp only [hn, hostTurn] at h
      cases hs : s.script with
      | nil => simp only [hs, Host.Outcome.next.injEq] at h; exact .inl ⟨rfl, rfl, by rw [← h, afterTurn, hs]⟩
      | cons x rest =>
        cases x with
        | access a => simp only [hs] at h; exact .inr (.inl ⟨rfl, a, rest, rfl, h⟩)
        | wait =>
          simp only [hs] at h
          refine .inr (.inr (.inl ⟨rfl, rest, rfl, ?_⟩))
          simpa [afterTurn, hs] using h

end Sys2Proof.Machine
end

