-- ==== Sys2Proof/Laws/Bus.lean ====
section
/-! SUPPORT. The host port's address arithmetic, and what an access comes to once its target is known. -/

namespace Sys2Proof.Machine

variable {c : Config} {s : State} {a : Access}

/-- An offset of the register block is a register address (20_memory R51). -/
theorem target_register {off : Nat} (h : off < 0x100) : target c (regBase c + off) = some (.register off) := by
  unfold target regBlockBytes
  rw [if_neg (by omega), if_pos (by omega)]
  simp

/-- An offset inside a window is a window address (20_memory R51). -/
theorem target_window {r : Role} {off : Nat} (h : off < c.chunkBytes) :
    target c (windowAddr c r off) = some (.window r off) := by
  have hr : r.window < 5 := by cases r <;> decide
  have hb : r.window * c.chunkBytes ≤ 4 * c.chunkBytes := Nat.mul_le_mul_right _ (by omega)
  unfold target windowAddr regBase
  rw [if_pos (by omega), Nat.mul_comm, Nat.mul_add_div (by omega), Nat.mul_add_mod, Nat.div_eq_of_lt h, Nat.mod_eq_of_lt h]
  cases r <;> rfl

/-- An access that is not permitted raises `ACCF` and nothing else (60_exceptions R186). -/
theorem hostAccess_of_not_permitted {t : Target} (ht : target s.cfg a.addr = some t)
    (hp : permitted s.cfg a.kind a.width t = false) : hostAccess a s = .next (refuseAccess .accf a s) := by
  simp only [hostAccess, ht, hp, Bool.false_eq_true, if_false]

/-- A permitted access that a run in progress bars raises `BUSYF` and nothing else (60_exceptions R183). -/
theorem hostAccess_of_barred {t : Target} (ht : target s.cfg a.addr = some t)
    (hp : permitted s.cfg a.kind a.width t = true) (hb : s.busy = true)
    (hbar : barredWhileBusy s.cfg a.kind t = true) : hostAccess a s = .next (refuseAccess .busyf a s) := by
  simp only [hostAccess, ht, hp, hb, hbar, Bool.and_self, if_true]

/-- Every other permitted access is carried out. -/
theorem hostAccess_of_allowed {t : Target} (ht : target s.cfg a.addr = some t)
    (hp : permitted s.cfg a.kind a.width t = true)
    (hbar : s.busy = false ∨ barredWhileBusy s.cfg a.kind t = false) : hostAccess a s = performAccess a t s := by
  have : (s.busy && barredWhileBusy s.cfg a.kind t) = false := by
    rcases hbar with h | h <;> simp [h]
  simp only [hostAccess, ht, hp, this, if_true, Bool.false_eq_true, if_false]

/-- A refused write answers `done` (log 11). -/
theorem refuseAccess_write (f : FaultFlag) (h : a.kind = .write) :
    refuseAccess f a s = withReply .done (raise f s) := by simp only [refuseAccess, h]

/-- A refused access is `RefusedWith`. -/
theorem refusedWith_of_eq {f : FaultFlag} (h : hostAccess a s = .next (refuseAccess f a s)) : RefusedWith f a s := by
  refine ⟨_, h, ?_⟩
  unfold refuseAccess
  split
  · cases f <;> rfl
  · split_ifs <;> cases f <;> rfl

/-- The feed-forward coefficients' stretch of the register block (10_state R35). -/
theorem regAt_coefB {off k : Nat} (ho : off = 0x40 + 4 * k) (hk : k ≤ c.m) (hm : c.m ≤ 15) :
    regAt c off = some (.coefB k) := by
  have he : (off - 0x40) / 4 = k := by omega
  unfold regAt
  rw [he]
  split_ifs <;> first | rfl | omega

/-- The feedback coefficients' stretch of the register block (10_state R35). -/
theorem regAt_coefA {off j : Nat} (ho : off = 0x80 + 4 * j) (hj : j < c.n) (hn : c.n ≤ 16) :
    regAt c off = some (.coefA j) := by
  have he : (off - 0x80) / 4 = j := by omega
  unfold regAt
  rw [he]
  split_ifs <;> first | rfl | omega

/-- The registers' offsets are their places (10_state R35). -/
theorem regAt_offset (hm : c.m ≤ 15) (hn : c.n ≤ 16) (r : Reg)
    (h : match r with | .coefB k => k ≤ c.m | .coefA j => j < c.n | _ => True) : regAt c r.offset = some r := by
  cases r with
  | coefB k => exact regAt_coefB rfl h hm
  | coefA j => exact regAt_coefA rfl h hn
  | _ => rfl

/-- Only offsets below 0x100 that are multiples of 4 hold a register. -/
theorem offset_of_regAt {off : Nat} {r : Reg} (h : regAt c off = some r) : off % 4 = 0 ∧ off < 0x100 := by
  unfold regAt at h
  split_ifs at h <;> omega

/-- A command write while no run is in progress issues its word; during a run it is refused undecoded
(30_encoding R87). -/
theorem hostAccess_command (s : State) (w : Word) :
    hostAccess (commandAccess s.cfg w) s
      = if s.busy then .next (withReply .done (raise .busyf s)) else issue w (withReply .done s) := by
  have ht : target s.cfg (commandAccess s.cfg w).addr = some (.register 0) := target_register (by decide)
  cases hb : s.busy with
  | true =>
    rw [hostAccess_of_barred ht rfl hb rfl, refuseAccess_write _ rfl]; rfl
  | false =>
    rw [hostAccess_of_allowed ht rfl (.inl hb)]; rfl

/-- A permitted read of a register returns its contents (20_memory R56). -/
theorem hostAccess_readReg {off : Nat} {r : Reg} (hr : regAt s.cfg off = some r) (hrd : r.allows .read = true) :
    ReadsAs (s.readReg r) (readAccess (regBase s.cfg + off) 4) s := by
  have h := offset_of_regAt hr
  have ht : target s.cfg (readAccess (regBase s.cfg + off) 4).addr = some (.register off) := target_register h.2
  have hp : permitted s.cfg (readAccess (regBase s.cfg + off) 4).kind (readAccess (regBase s.cfg + off) 4).width
      (.register off) = true := by simp [permitted, readAccess, hr, hrd]
  unfold ReadsAs
  rw [hostAccess_of_allowed ht hp (.inr (by simp [barredWhileBusy, readAccess]))]
  simp only [performAccess, readAccess, hr]
  rfl

/-- A permitted read of a window returns its Samples (20_memory R53). -/
theorem hostAccess_readWindow {r : Role} {off width : Nat} (ho : off < s.cfg.chunkBytes)
    (hw : windowWidthOk width off = true) (hb : s.busy = false ∨ r ≠ .loadOut) :
    ReadsAs (s.readWindow r off width) (readAccess (windowAddr s.cfg r off) width) s := by
  have ht : target s.cfg (readAccess (windowAddr s.cfg r off) width).addr = some (.window r off) := target_window ho
  unfold ReadsAs
  rw [hostAccess_of_allowed ht (by simp [permitted, readAccess, hw])]
  · rfl
  · refine hb.imp id fun h => ?_
    simp [barredWhileBusy, readAccess, h]

/-- A permitted write of `CURR_IN` outside a run stores (20_memory R57). -/
theorem hostAccess_writeWindow {off width : Nat} {v : Word} (ho : off < s.cfg.chunkBytes)
    (hw : windowWidthOk width off = true) (hb : s.busy = false) :
    hostAccess (writeAccess (windowAddr s.cfg .currIn off) width v) s
      = .next (withReply .done (writeWindow .currIn off width v s)) := by
  have ht : target s.cfg (writeAccess (windowAddr s.cfg .currIn off) width v).addr = some (.window .currIn off) :=
    target_window ho
  rw [hostAccess_of_allowed ht (by simp [permitted, writeAccess, hw]) (.inl hb)]
  rfl

end Sys2Proof.Machine
end

