-- ==== Sys2Proof/Laws/Float.lean ====
section
/-! SUPPORT. What each operation of `FLT` gives, by the kinds of its operands (41_echo_filter R130, R134). -/

namespace Sys2Proof.Machine

/-- The product of two finite values is one rounding. -/
theorem fmul_fin (x y : Bool) (p q : Nat) : fmul (.fin x p) (.fin y q) = roundFlt (x != y) (p * q) 149 := rfl

/-- The rounded sum of two finite values: one rounding of the exact sum, or a zero. -/
def finSum (x y : Bool) (p q : Nat) : Flt :=
  if signedMag x p + signedMag y q = 0 then .fin (x && y) 0
  else roundFlt (decide (signedMag x p + signedMag y q < 0)) (signedMag x p + signedMag y q).natAbs 0

theorem sumFlt_fin (x y : Bool) (p q : Nat) : sumFlt (.fin x p) (.fin y q) = some (finSum x y p q) := by
  simp only [sumFlt, finSum]
  split_ifs <;> rfl

theorem fadd_fin (x y : Bool) (p q : Nat) : fadd (.fin x p) (.fin y q) = finSum x y p q := by
  simp only [fadd, sumFlt_fin]

/-- The difference of two finite values is the sum with the second sign turned. -/
theorem fsub_fin (x y : Bool) (p q : Nat) : fsub (.fin x p) (.fin y q) = finSum x (!y) p q := by
  simp only [fsub, fneg, sumFlt_fin]

/-- The NaN an operation gives is a NaN that has a word. -/
@[simp] theorem nanResult_isNaN (op : FltOp) (p q : Flt) : (nanResult op p q).isNaN = true := rfl

theorem nanResult_representable (op : FltOp) (p q : Flt) : (nanResult op p q).representable = true := by
  have h := (Config.freeNaN op (bits32 p) (bits32 q)).2.isLt
  simp only [nanResult, Flt.representable, Bool.and_eq_true, decide_eq_true_eq]
  omega

/-- `clip` gives no Sample exactly for a NaN (40_clipper R100, R104). -/
theorem clip_eq_none_iff (v : Flt) : clip v = none ↔ v.isNaN = true := by
  cases v with
  | nan neg frac => simp [clip, Flt.isNaN]
  | inf neg => cases neg <;> simp [clip, Flt.isNaN]
  | fin neg mag => simp [clip, Flt.isNaN]

end Sys2Proof.Machine
end

