-- ==== Sys2Proof/Laws/Samples.lean ====
section
/-! SUPPORT. Which Samples computing a channel or a frame changes, and where the taps read (41_echo_filter R123, R128, R139, R142). -/

namespace Sys2Proof.Machine

/-- The roles name distinct chunks (42_buffer_ring R162). -/
theorem remap_injective (c : Fin 4) {r r' : Role} (h : remap c r = remap c r') : r = r' := by
  fin_cases c <;> cases r <;> cases r' <;> first | rfl | exact absurd h (by decide)

/-- A Sample of a frame of the chunk lies in the chunk (41_echo_filter R122). -/
theorem sampleIndex_lt {c : Config} (hc : c.wellFormed = true) {f : Nat} (hf : f < c.chunkFrames) (ch : Channel) :
    sampleIndex f ch < c.bufferSize := by
  have := Config.bufferSize_eq hc
  cases ch <;> simp <;> omega

/-- A tap of the filter reads a frame of the chunk: not above `n` in the same one, below `n` from the first delay on,
or one of the preceding chunk (41_echo_filter R142). -/
theorem tapPos_cases {c : Config} (hc : c.wellFormed = true) {n k : Nat} (hn : n < c.chunkFrames)
    (hk : k ≤ max c.m c.n) :
    (∃ f, tapPos c n k = .same f ∧ f ≤ n ∧ (1 ≤ k → f < n)) ∨ ∃ f, tapPos c n k = .preceding f ∧ f < c.chunkFrames := by
  have h := (Config.wellFormed_iff c).1 hc
  have hd : k * c.delay ≤ c.chunkFrames := by
    rcases Nat.le_total c.m c.n with h1 | h1
    · exact (Nat.mul_le_mul_right _ (by omega)).trans h.2.2.2.1
    · exact (Nat.mul_le_mul_right _ (by omega)).trans h.2.2.1
  have hk' : 1 ≤ k → 1 ≤ k * c.delay := fun h1 => by
    have := Nat.mul_le_mul h1 h.2.2.2.2.1; omega
  unfold tapPos
  simp only
  split_ifs with hle
  · exact .inl ⟨_, rfl, by omega, fun h1 => by have := hk' h1; omega⟩
  · exact .inr ⟨_, rfl, by omega⟩

/-- The one Sample that computing a channel writes (41_echo_filter R128). -/
theorem computeChannel_sample {s : State} (hc : s.cfg.wellFormed = true) (hm : Memory.wf s.chunks = true) {n : Nat}
    (hn : n < s.cfg.chunkFrames) (ch : Channel) (sl : Slot) (i : Nat) (hi : i < s.cfg.bufferSize) :
    (computeChannel n ch s).sample sl i =
      if sl = remap s.phase .loadOut ∧ i = sampleIndex n ch then clippedSample s (s.filterValue n ch)
      else s.sample sl i := by
  have e : ∀ x : Sample, ((afterClip s (s.filterValue n ch)).setSample (remap s.phase .loadOut) (sampleIndex n ch)
      x).sample sl i = (s.setSample (remap s.phase .loadOut) (sampleIndex n ch) x).sample sl i := by
    intro x; apply sample_congr <;> simp
  unfold computeChannel
  rw [e]
  split_ifs with h
  · obtain ⟨rfl, rfl⟩ := h
    exact sample_setSample_same _ _ _ _ hm
  · rw [sample_setSample_ne _ _ (sampleIndex_lt hc hn ch) hi]
    by_contra hh
    push Not at hh
    exact h ⟨hh.1.symm, hh.2.symm⟩

/-- Computing a channel keeps memory canonical. -/
theorem computeChannel_wf {s : State} (n : Nat) (ch : Channel) (hm : Memory.wf s.chunks = true) :
    Memory.wf (computeChannel n ch s).chunks = true := by
  rw [computeChannel_chunks]; exact writeSampleAt_wf _ _ _ hm

/-- Computing a channel changes the filter's value at the same frame for no channel: a feedback tap reads below the
frame. -/
theorem filterValue_computeChannel {s : State} (hc : s.cfg.wellFormed = true) (hm : Memory.wf s.chunks = true)
    {n : Nat} (hn : n < s.cfg.chunkFrames) (ch ch' : Channel) :
    (computeChannel n ch s).filterValue n ch' = s.filterValue n ch' := by
  have key : ∀ (r : Role) (f : Nat), f < s.cfg.chunkFrames → r ≠ .loadOut ∨ f < n →
      (computeChannel n ch s).roleSample r f ch' = s.roleSample r f ch' := by
    intro r f hf h
    unfold State.roleSample
    simp only [computeChannel_phase]
    rw [computeChannel_sample hc hm hn _ _ _ (sampleIndex_lt hc hf ch'), if_neg]
    rintro ⟨e1, e2⟩
    rcases h with h | h
    · exact h (remap_injective _ e1)
    · cases ch <;> cases ch' <;> simp at e2 <;> omega
  refine filterValue_congr n ch' (by simp) (fun k hk => ?_) fun k hk1 hk => ?_
  · unfold State.tapX
    simp only [computeChannel_cfg]
    rcases tapPos_cases hc hn (k := k) (by omega) with ⟨f, hf, h1, -⟩ | ⟨f, hf, h1⟩
    · simp only [hf]; exact key _ _ (by omega) (.inl (by simp))
    · simp only [hf]; exact key _ _ (by omega) (.inl (by simp))
  · unfold State.tapY
    simp only [computeChannel_cfg]
    rcases tapPos_cases hc hn (k := k) (by omega) with ⟨f, hf, h1, h2⟩ | ⟨f, hf, h1⟩
    · simp only [hf]; exact key _ _ (by omega) (.inr (h2 hk1))
    · simp only [hf]; exact key _ _ (by omega) (.inl (by simp))

/-- The two Samples that computing a frame writes (41_echo_filter R129). -/
theorem computeFrame_sample {s : State} (hc : s.cfg.wellFormed = true) (hm : Memory.wf s.chunks = true) {n : Nat}
    (hn : n < s.cfg.chunkFrames) (sl : Slot) (i : Nat) (hi : i < s.cfg.bufferSize) :
    (computeFrame n s).sample sl i =
      if sl = remap s.phase .loadOut ∧ i = 2 * n then clippedSample s (s.filterValue n .left)
      else if sl = remap s.phase .loadOut ∧ i = 2 * n + 1 then
        clippedSample (computeChannel n .left s) (s.filterValue n .right)
      else s.sample sl i := by
  unfold computeFrame
  rw [computeChannel_sample (by simpa) (computeChannel_wf n .left hm) (by simpa) _ _ _ (by simpa),
    filterValue_computeChannel hc hm hn, computeChannel_sample hc hm hn _ _ _ hi]
  simp only [computeChannel_phase, sampleIndex_left, sampleIndex_right]
  split_ifs <;> first | rfl | omega

/-- Whether computing a frame raises `NANF` (41_echo_filter R129). -/
theorem computeFrame_nanf {s : State} (hc : s.cfg.wellFormed = true) (hm : Memory.wf s.chunks = true) {n : Nat}
    (hn : n < s.cfg.chunkFrames) :
    (computeFrame n s).nanf = (s.nanf || (s.filterValue n .left).isNaN || (s.filterValue n .right).isNaN) := by
  unfold computeFrame
  rw [computeChannel_nanf, computeChannel_nanf, filterValue_computeChannel hc hm hn]

end Sys2Proof.Machine
end

