-- ==== Sys2Proof/Tests/Slice0.lean ====
section
/-! SUPPORT. Tests with expected results from 95_test_vectors, and a witness for the hypotheses of every statement. -/

namespace Sys2Proof.Tests.Slice0

open Sys2Proof Sys2Proof.Machine

/-! ## Helpers -/

/-- A coefficient from its binary32 word. -/
def coef (w : Word) : Coef := (coefOfWord w).getD default

/-- TINY with the coefficients `T1` (95 section 0): `CHUNK_FRAMES` 8, `CHUNK_BYTES` 0x20, `REG_BASE` 0xA0. -/
def tiny : Config where
  bufferSize := 16
  delay := 2
  m := 3
  n := 3
  b := [coef 0x3F800000#32, coef 0x3F000000#32, coef 0x3E800000#32, coef 0x3E000000#32]
  a := [coef 0x3E800000#32, coef 0xBE000000#32, coef 0x3D800000#32]
  efuBase := 0
  rate := .hz48000

/-- The state after reset in TINY. -/
def start : State := { State.reset with cfg := tiny }

/-- `start` with a frame counter, and a run in progress or not. -/
def at' (frame : Nat) (busy : Bool) : State := { start with frame := frame, busy := busy }

/-- The next state of an outcome. -/
def nextOf (o : Host.Outcome State Fault Refusal) : Option State :=
  match o with
  | .next t => some t
  | _ => none

/-- A state with frame `f` of a chunk set. -/
def put (sl : Slot) (f : Nat) (l r : Int) (s : State) : State :=
  (s.setSample sl (2 * f) (BitVec.ofInt 16 l)).setSample sl (2 * f + 1) (BitVec.ofInt 16 r)

/-- Frame `f` of a chunk, left and right, as signed integers. -/
def frameAt (sl : Slot) (f : Nat) (s : State) : Int × Int := ((s.sample sl (2 * f)).toInt, (s.sample sl (2 * f + 1)).toInt)

/-- A configuration whose filter reaches a NaN: `b[0]` and `a[0]` are the greatest finite number, so both sums
overflow to `+inf` (41_echo_filter R134). -/
def huge : Config :=
  { tiny with delay := 1, m := 0, n := 1, b := [coef 0x7F7FFFFF#32], a := [coef 0x7F7FFFFF#32] }

/-- In `huge`, the input frame 0 and the feedback frame before it are 2 on the left. -/
def toNaN : State := put (.input 0) 0 2 0 (put (.output 3) 7 2 0 { start with cfg := huge })

/-- In `huge`, a run whose last frame is a NaN on the left. -/
def runToNaN : State :=
  put (.input 0) 7 2 0 (put (.output 0) 6 2 0 { start with cfg := huge, frame := 7, busy := true })

/-- `start` with one host step to take. -/
def doing (a : Access) (s : State) : State := { s with script := [.access a], turns := [.host] }

/-! ## Decoding: words written out from 30_encoding R80, R81 -/

theorem test_decode_init : decode 0b00010000000000000000000000000000#32 = .ok .init := by decide
theorem test_decode_step : decode 0b00100000000000000000000000000000#32 = .ok .step := by decide
theorem test_decode_run : decode 0b00110000000000000000000000000000#32 = .ok .run := by decide
theorem test_decode_adv : decode 0b01000000000000000000000000000000#32 = .ok .adv := by decide
theorem test_decode_clip : decode 0b01010000000000000000000000000000#32 = .ok .clip := by decide

/-- 95 V-D2: the illegal words. -/
theorem test_decode_illegal :
    [0x00000000#32, 0x00000001#32, 0x0FFFFFFF#32, 0x60000000#32, 0x70000000#32, 0x80000000#32, 0xF0000000#32,
        0xFFFFFFFF#32, 0x00000003#32, 0x03000000#32].all (fun w => decode w = .error .reservedOpcode)
      ∧ [0x10000001#32, 0x20000001#32, 0x30000100#32, 0x48000000#32, 0x5FFFFFFF#32].all
        (fun w => decode w = .error .nonzeroZeroField) := by decide

theorem test_decodeTableWord :
    decodeTableWord 32 0x30000000 = some .run ∧ decodeTableWord 32 0x30000001 = none
      ∧ decodeTableWord 64 0x0000000130000000 = none := by decide

/-! ## Well-formedness (00_scope R8): an ill-formed term for each check -/

theorem test_tiny_and_reference_wellFormed :
    tiny.wellFormed = true ∧ huge.wellFormed = true ∧ Config.reference.wellFormed = true := by decide

theorem test_wellFormed_refuses_size :
    { tiny with bufferSize := 0 }.wellFormed = false ∧ { tiny with bufferSize := 17 }.wellFormed = false := by decide

theorem test_wellFormed_refuses_delay :
    { tiny with delay := 3 }.wellFormed = false ∧ { tiny with delay := 0 }.wellFormed = false
      ∧ { tiny with m := 0, b := [default], delay := 3 }.wellFormed = false := by decide

theorem test_wellFormed_refuses_orders :
    { tiny with bufferSize := 64, delay := 1, m := 16, b := List.replicate 17 default }.wellFormed = false
      ∧ { tiny with bufferSize := 64, delay := 1, n := 17, a := List.replicate 17 default }.wellFormed = false := by
  decide

theorem test_wellFormed_refuses_missing_coefficients :
    { tiny with b := [] }.wellFormed = false ∧ { tiny with a := [] }.wellFormed = false := by decide

/-- R8(d): a NaN or an infinity is no coefficient. -/
theorem test_coefficients_are_finite :
    coefOfWord 0x7F800000#32 = none ∧ coefOfWord 0xFF800000#32 = none ∧ coefOfWord 0x7FC00000#32 = none
      ∧ coefOfWord 0x7F7FFFFF#32 = some ⟨false, 254, 0x7FFFFF#23⟩ := by decide

/-! ## Arithmetic and the clipper -/

/-- 95 V-D1. -/
theorem test_clip_table :
    [(0x00000000, 0), (0x80000000, 0), (0x00000001, 0), (0x3EFFFFFF, 0), (0xBEFFFFFF, 0), (0x3F000000, 1),
        (0xBF000000, -1), (0x3FC00000, 2), (0xBFC00000, -2), (0x40200000, 3), (0xC0200000, -3), (0x431C4000, 156),
        (0x43436000, 195), (0x46FFFCFB, 32766), (0x46FFFD00, 32767), (0x46FFFE00, 32767),
        (0x46FFFECD, 32767)].all
      (fun p : Nat × Int => clip (f32 (BitVec.ofNat 32 p.1)) = some (BitVec.ofInt 16 p.2)) := by decide +kernel

/-- 95 V-D1, the saturating rows. -/
theorem test_clip_table_saturating :
    [(0x46FFFF00, 32767), (0xC6FFFF00, -32768), (0xC7000000, -32768), (0xC7000080, -32768), (0xC700009A, -32768),
        (0x4AFFFFFF, 32767), (0x501502F9, 32767), (0xD01502F9, -32768), (0x7F7FFFFF, 32767), (0x7F800000, 32767),
        (0xFF800000, -32768)].all
      (fun p : Nat × Int => clip (f32 (BitVec.ofNat 32 p.1)) = some (BitVec.ofInt 16 p.2)) := by decide +kernel

/-- 95 V-F9: the products of `T2`'s `b` with the taps 14000, 9658, -32658, -16529. -/
theorem test_products :
    [(0x3F800000, 14000, 0x465AC000), (0x3F19999A, 9658, 0x45B51667), (0x3E99999A, -32658, 0xC619159A),
        (0x3DCCCCCD, -16529, 0xC4CE9CCD)].all
      (fun p : Nat × Int × Nat =>
        bits32 (fmul (f32 (BitVec.ofNat 32 p.1)) (toF (BitVec.ofInt 16 p.2.1))) = BitVec.ofNat 32 p.2.2) := by
  decide +kernel

/-- 95 V-F9: the accumulator after each addition, and the tie that decides the Sample. -/
theorem test_ordered_sum :
    [(0x00000000, 0x465AC000, 0x465AC000), (0x465AC000, 0x45B51667, 0x469AA59A),
        (0x469AA59A, 0xC619159A, 0x461C359A), (0x461C359A, 0xC4CE9CCD, 0x46026200)].all
      (fun p : Nat × Nat × Nat =>
        bits32 (fadd (f32 (BitVec.ofNat 32 p.1)) (f32 (BitVec.ofNat 32 p.2.1))) = BitVec.ofNat 32 p.2.2)
      ∧ clip (fsub (f32 0x46026200#32) Flt.zero) = some (BitVec.ofInt 16 8345) := by decide +kernel

/-- 41_echo_filter R134: the operations that give a NaN or an infinity. -/
theorem test_invalid_operations :
    (fadd (.inf false) (.inf true)).isNaN = true ∧ (fsub (.inf false) (.inf false)).isNaN = true
      ∧ (fmul (.inf true) Flt.zero).isNaN = true ∧ (fmul Flt.zero (.inf false)).isNaN = true
      ∧ fmul (f32 0x7F7FFFFF#32) (toF 2#16) = .inf false ∧ fsub (.inf false) (.inf true) = .inf false
      ∧ (fadd (f32 0x7F800001#32) Flt.zero).isNaN = true := by decide +kernel

/-- 00_scope R11 on the three NaN words of 95 V-D1. -/
theorem test_bits32_keeps_NaN_words :
    [0x7FC00000#32, 0x7F800001#32, 0xFFC00000#32].all (fun w => (f32 w).isNaN && bits32 (f32 w) = w) := by decide

/-! ## The commands: at most two tests each -/

theorem test_init_zeroes_and_keeps_flags :
    (nextOf (exec .init { put (.output 2) 7 5 6 (at' 3 false) with phase := 3, nanf := true, clipin := 7#32 })).map
        (fun t => (frameAt (.output 2) 7 t, t.phase.val, t.frame, t.nanf, t.clipin))
      = some ((0, 0), 0, 0, true, 7#32) := by decide

theorem test_init_busy : (nextOf (exec .init (at' 3 true))).map (fun t => (t.busyf, t.frame)) = some (true, 3) := by
  decide

/-- 95 V-F7, cycle 0: frame 2 is `0.5*1000 - 0.25*1000`. -/
theorem test_step_frame_2 :
    (nextOf (exec .step (put (.output 0) 0 1000 (-1000) (put (.input 0) 0 1000 (-1000) (at' 2 false))))).map
        (fun t => (frameAt (.output 0) 2 t, t.frame, t.nanf, t.busy))
      = some ((250, -250), 3, false, false) := by decide +kernel

/-- 95 V-F7, cycle 1, frame 0: the feedback taps read frames 6, 4, 2 of the preceding output chunk. -/
theorem test_step_wraps_into_the_preceding_chunk :
    (nextOf (exec .step (put (.output 0) 6 16 (-16) (put (.output 0) 4 313 (-313)
        (put (.output 0) 2 250 (-250) { at' 0 false with phase := 1 }))))).map (fun t => frameAt (.output 1) 0 t)
      = some (20, -20) := by decide +kernel

theorem test_run_begins :
    (nextOf (exec .run (at' 7 false))).map (fun t => (t.busy, t.frame)) = some (true, 7) := by decide

theorem test_run_out_of_sequence :
    (nextOf (exec .run (at' 8 false))).map (fun t => (t.busy, t.seqf)) = some (false, true) := by decide

theorem test_adv_wraps :
    (nextOf (exec .adv { at' 8 false with phase := 3 })).map (fun t => (t.phase.val, t.frame)) = some (0, 0) := by
  decide

theorem test_adv_out_of_sequence :
    (nextOf (exec .adv (at' 1 false))).map (fun t => (t.phase.val, t.frame, t.seqf)) = some (0, 1, true) := by decide

/-- 95 V-S2. -/
theorem test_clip_tie :
    (nextOf (exec .clip { start with clipin := 0xBFC00000#32 })).map (fun t => (t.clipout.toInt, t.nanf))
      = some (-2, false) := by decide +kernel

/-- 95 V-D1: a signalling NaN raises `NANF`. -/
theorem test_clip_nan :
    (nextOf (exec .clip { start with clipin := 0x7F800001#32 })).map (fun t => (t.nanf, t.clipin))
      = some (true, 0x7F800001#32) := by decide +kernel

/-! ## The engine, the ring, the host port -/

theorem test_engine_ends_the_run :
    (engineStep (at' 7 true)).busy = false ∧ (engineStep (at' 7 true)).statusWord = 0x00000002#32
      ∧ (engineStep (at' 6 true)).busy = true := by decide +kernel

/-- 95 V-D3. -/
theorem test_map :
    mapWord 0 = 0x000001E2#32 ∧ mapWord 1 = 0x00000235#32 ∧ mapWord 2 = 0x0000034A#32 ∧ mapWord 3 = 0x0000009D#32 := by
  decide

/-- 95 V-D4, REF. -/
theorem test_tapPos :
    tapPos Config.reference 0 1 = .preceding 32636 ∧ tapPos Config.reference 0 3 = .preceding 32372
      ∧ tapPos Config.reference 131 1 = .preceding 32767 ∧ tapPos Config.reference 132 1 = .same 0
      ∧ tapPos Config.reference 395 3 = .preceding 32767 ∧ tapPos Config.reference 32767 3 = .same 32371 := by decide

/-- 95 V-D3: host address 0x60210 is `PLAY_OUT`, offset 0x210; 0x3FFFE is `PREV_IN`, Sample 65535. -/
theorem test_target :
    target Config.reference 0x60210 = some (.window .playOut 0x210)
      ∧ target Config.reference 0x3FFFE = some (.window .prevIn 0x1FFFE) ∧ windowIndex 0x1FFFE = 65535
      ∧ target Config.reference 0xA0018 = some (.register 0x18) ∧ target Config.reference 0xA0100 = none := by decide

/-- 95 V-D5: the byte order of a window. -/
theorem test_window_byte_order :
    (nextOf (hostAccess (writeAccess 0 4 0xFC1803E8#32) start)).map
        (fun t => (frameAt (.input 0) 0 t, (nextOf (hostAccess (readAccess 2 2) t)).map State.reply))
      = some ((1000, -1000), some (.value 0x0000FC18#32)) := by decide

/-- 95 P4, rows 22 to 32. -/
theorem test_bad_accesses :
    [writeAccess 0x20 2 1#32, writeAccess 0xA4 4 0#32, readAccess 0xA0 4, readAccess 0xBC 4, readAccess 0xF0 4,
        readAccess 0x12C 4, readAccess 0xA4 2, readAccess 2 4, readAccess 1 2].all
      (fun a => (nextOf (hostAccess a start)).map State.statusWord = some 0x00001000#32) := by decide

/-- 95 P4, rows 27 and 28. -/
theorem test_coefficient_reads :
    (nextOf (hostAccess (readAccess 0xEC 4) start)).map State.reply = some (.value 0x3E000000#32)
      ∧ (nextOf (hostAccess (readAccess 0x128 4) start)).map State.reply = some (.value 0x3D800000#32) := by
  decide +kernel

/-- 95 P4, rows 10 to 13, during a run. -/
theorem test_accesses_during_a_run :
    [commandAccess tiny (encode .clip), writeAccess 4 4 0x12345678#32, readAccess 0x40 4].all
        (fun a => (nextOf (hostAccess a (at' 1 true))).map State.statusWord = some 0x00000201#32)
      ∧ (nextOf (hostAccess (readAccess 0x60 4) (at' 1 true))).map State.reply = some (.value 0#32) := by decide

/-- 30_encoding R86: `PUT`, `GET`, `CYCLE` as transactions, with the addresses of 95 P3. -/
theorem test_script_expansion :
    Line.expand tiny (.put 7 32767 (-32768)) = [writeStep 0x1C 4 0x80007FFF#32]
      ∧ Line.expand tiny (.get .playOut 2) = [readStep 0x68 4]
      ∧ Line.expand tiny .cycle = [writeStep 0xA0 4 0x30000000#32, .wait, writeStep 0xA0 4 0x40000000#32]
      ∧ (Line.expand tiny (.fill 0 0)).length = 8 := by decide

theorem test_withFetchWord_runs_the_command :
    (nextOf (step (State.reset.withFetchWord 32 0x40000000))).map (fun t => t.phase.val) = some 1 := by decide

/-- 41_echo_filter R146: at 48000 Hz, tap 1 of TINY is 2 frames, 4 samples, 8 bytes, 1/24000 s. -/
theorem test_sample_rate :
    tapDelaySamples tiny 1 = 4 ∧ tapDelayBytes tiny 1 = 8 ∧ streamByteRate tiny = 192000
      ∧ tapDelaySeconds tiny 1 = 1 / 24000 := by
  refine ⟨by decide, by decide, by decide, ?_⟩
  norm_num [tapDelaySeconds, tapDelayFrames, tiny, rateHz]

/-! ## Witnesses: states and operands that meet each statement's hypotheses -/

theorem witness_IllegalWordRaisesOnlyCmdf : start.busy = false ∧ ∀ i, 0x20000001#32 ≠ encode i :=
  ⟨rfl, fun i => by cases i <;> decide⟩

theorem witness_StepRunsTheDecodedCommand :
    start.cfg.wellFormed = true ∧ nextTurn (doing (commandAccess tiny (encode .step)) start) = .host
      ∧ (doing (commandAccess tiny (encode .step)) start).script = .access (commandAccess tiny (encode .step)) :: []
      ∧ decode (encode .step) = .ok .step ∧ decode (BitVec.ofNat 32 0x20000000) = .ok .step := by decide

theorem witness_TurnsGoToTheScheduledAgent :
    start.cfg.wellFormed = true
      ∧ (nextTurn (doing (readAccess 0 4) start) = .host
          ∧ (doing (readAccess 0 4) start).script = .access (readAccess 0 4) :: [])
      ∧ nextTurn { at' 0 true with turns := [.engine] } = .engine ∧ (nextTurn start = .host ∧ start.script = [])
      ∧ { start with turns := [.reset] }.turns = .reset :: []
      ∧ ((at' 0 true).turns = [] ∧ (at' 0 true).busy = true) ∧ (start.turns = [] ∧ start.busy = false) := by decide

theorem witness_WaitPollsStatusUntilIdle :
    start.cfg.wellFormed = true
      ∧ nextTurn { at' 0 true with turns := [.host], script := [.wait] } = .host
      ∧ { at' 0 true with turns := [.host], script := [.wait] }.script = .wait :: []
      ∧ nextTurn { start with script := [.wait] } = .host := by decide

/-- The address is the last of the EFU's range in TINY. -/
theorem witness_EveryStepCompletes :
    (doing (readAccess 0x19F 4) start).cfg.wellFormed = true
      ∧ ∀ a rest, (doing (readAccess 0x19F 4) start).script = .access a :: rest →
          a.addr < 5 * (doing (readAccess 0x19F 4) start).cfg.chunkBytes + 0x100 := by
  refine ⟨by decide, fun a rest h => ?_⟩
  simp only [doing, List.cons.injEq, HostStep.access.injEq] at h
  rw [← h.1]
  decide

theorem witness_BadConfigurationIsRefused :
    { tiny with bufferSize := 0 }.bufferSize = 0 ∧ { tiny with bufferSize := 15 }.bufferSize % 2 ≠ 0
      ∧ { tiny with delay := 3 }.chunkFrames < 3 * 3 ∧ { tiny with m := 5, n := 0 }.chunkFrames < 5 * tiny.delay
      ∧ { tiny with m := 0, n := 5 }.chunkFrames < 5 * tiny.delay
      ∧ { tiny with delay := 0 }.delay = 0 ∧ 15 < { tiny with m := 16 }.m ∧ 16 < { tiny with n := 17 }.n
      ∧ (f32 0x7F800001#32).isNaN = true ∧ f32 0xFF800000#32 = .inf true := by decide

/-- The first address above the EFU's range in TINY. -/
theorem witness_AccessOutsideTheRangeFaults :
    5 * start.cfg.chunkBytes + 0x100 ≤ (readAccess 0x1A0 4).addr ∧ target tiny 0x19F = some (.register 0xFF) := by
  decide

theorem witness_ResetGivesEveryStateItsValue :
    { at' 3 true with turns := [.reset] }.cfg.wellFormed = true
      ∧ nextTurn { at' 3 true with turns := [.reset] } = .reset := by decide

theorem witness_InitAndResetCompared : (at' 3 false).busy = false ∧ (at' 3 true).busy = true := by decide

theorem witness_EveryStepKeepsTheInvariant :
    (at' 7 true).Inv ∧ ∃ t, step (at' 7 true) = .next t := ⟨by decide, _, rfl⟩

theorem witness_ReachableBusyHasAFrameLeft : ∃ s, Reachable s ∧ s.busy = true := by
  have h : Reachable { start with script := [commandStep tiny .run] } := Reachable.start tiny _ [] (by decide)
  exact ⟨_, Reachable.next _ { start with busy := true, reply := .done } h rfl, rfl⟩

theorem witness_InitStartsAStream :
    (at' 3 false).busy = false ∧ (at' 3 true).busy = true
      ∧ (nextOf (exec .init { start with phase := 2 })).map (fun t => t.phase.val) = some 0 := by decide

/-- `FRAME` at both accepted values, and at both ends of the refused range. -/
theorem witness_AdvAdvancesThePhase :
    (at' 0 false).busy = false ∧ (at' 0 false).frame = 0 ∧ (at' 8 false).frame = (at' 8 false).cfg.chunkFrames
      ∧ (at' 8 false).cfg.wellFormed = true ∧ (at' 0 true).busy = true
      ∧ (0 < (at' 1 false).frame ∧ (at' 1 false).frame < (at' 1 false).cfg.chunkFrames)
      ∧ (0 < (at' 7 false).frame ∧ (at' 7 false).frame < (at' 7 false).cfg.chunkFrames) := by decide

theorem witness_RunBeginsARun :
    ((at' 0 false).busy = false ∧ (at' 0 false).frame < (at' 0 false).cfg.chunkFrames)
      ∧ ((at' 7 false).busy = false ∧ (at' 7 false).frame < (at' 7 false).cfg.chunkFrames)
      ∧ (at' 7 true).busy = true ∧ ((at' 8 false).busy = false ∧ (at' 8 false).frame = (at' 8 false).cfg.chunkFrames) := by
  decide

/-- The last frame of the chunk; a number, and, in `huge`, a NaN. -/
theorem witness_StepComputesTheNextFrame :
    (at' 7 false).cfg.wellFormed = true ∧ Memory.wf (at' 7 false).chunks = true ∧ (at' 7 false).busy = false
      ∧ (at' 7 false).frame < (at' 7 false).cfg.chunkFrames ∧ clip ((at' 7 false).filterValue 7 .left) = some 0#16
      ∧ (toNaN.cfg.wellFormed = true ∧ Memory.wf toNaN.chunks = true ∧ toNaN.busy = false
          ∧ toNaN.frame < toNaN.cfg.chunkFrames ∧ (toNaN.filterValue toNaN.frame .left).isNaN = true)
      ∧ (at' 7 true).busy = true ∧ ((at' 8 false).busy = false ∧ (at' 8 false).frame = (at' 8 false).cfg.chunkFrames) := by
  decide +kernel

theorem witness_StepFrameOfTheState :
    (at' 7 false).busy = false ∧ (at' 7 false).frame < (at' 7 false).cfg.chunkFrames
      ∧ ∃ t, exec .step (at' 7 false) = .next t := ⟨by decide, by decide, _, rfl⟩

theorem witness_ClipDeliversTheClippedOperand :
    (start.busy = false ∧ start.cfg.wellFormed = true ∧ clip (f32 { start with clipin := 0x46FFFD00#32 }.clipin) = some (BitVec.ofInt 16 32767))
      ∧ (f32 { start with clipin := 0x7F800001#32 }.clipin).isNaN = true ∧ (at' 0 true).busy = true
      ∧ (f32 { start with clipin := 0x7F800000#32 }.clipin).isNaN = false
      ∧ ∃ t, exec .clip { start with clipin := 0x7F800000#32 } = .next t :=
  ⟨by decide +kernel, by decide +kernel, by decide, by decide +kernel, _, rfl⟩

theorem witness_CommandsFrameOfTheState :
    (∃ t, exec .init start = .next t) ∧ (∃ t, exec .step start = .next t) ∧ (∃ t, exec .run start = .next t)
      ∧ (∃ t, exec .adv start = .next t) ∧ (∃ t, exec .clip start = .next t) ∧ start.busy = false :=
  ⟨⟨_, rfl⟩, ⟨_, rfl⟩, ⟨_, rfl⟩, ⟨_, rfl⟩, ⟨_, rfl⟩, rfl⟩

theorem witness_EngineStepIsTheStepOfAFrame :
    ((at' 7 true).busy = true ∧ (at' 7 true).frame < (at' 7 true).cfg.chunkFrames) ∧ (at' 7 false).busy = false := by
  decide

theorem witness_RunTakesExactlyTheRemainingSteps :
    (at' 5 false).busy = false ∧ (at' 5 false).frame < (at' 5 false).cfg.chunkFrames
      ∧ (0 ≤ (at' 5 false).cfg.chunkFrames - (at' 5 false).frame)
      ∧ 3 ≤ (at' 5 false).cfg.chunkFrames - (at' 5 false).frame := by decide

/-- Two frames left; the host reads `STATUS` and tries an `ADV` between the engine's turns. -/
theorem witness_RunEndsUnderAFairSchedule :
    (∃ s : State, ∃ before after : List Turn, s.Inv ∧ s.busy = true ∧ s.turns = before ++ .engine :: after
        ∧ .reset ∉ before ∧ before.count .engine + 1 = s.cfg.chunkFrames - s.frame
        ∧ ∀ a, .access a ∈ s.script → a.addr < regBase s.cfg + 0x100)
      ∧ (at' 7 true).Inv ∧ (at' 7 true).busy = true ∧ (at' 7 true).turns = [] := by
  refine ⟨⟨{ at' 6 true with turns := [.host, .engine, .host, .engine, .host],
                             script := [.access (pollAccess tiny), commandStep tiny .adv] },
    [.host, .engine, .host], [.host], by decide, rfl, rfl, by decide, by decide, fun a ha => ?_⟩, by decide⟩
  simp only [commandStep, List.mem_cons, HostStep.access.injEq, List.not_mem_nil, or_false] at ha
  rcases ha with rfl | rfl <;> decide

/-- The engine's step of a frame leaves the filter's value at that frame as it was. -/
theorem filterValue_engineStep (s : State) (hc : s.cfg.wellFormed = true) (hm : Memory.wf s.chunks = true)
    (hn : s.frame < s.cfg.chunkFrames) (hb : s.busy = true) (ch : Channel) :
    (engineSteps 1 s).filterValue s.frame ch = s.filterValue s.frame ch := by
  have h : (engineSteps 1 s).filterValue s.frame ch
      = (computeChannel s.frame .right (computeChannel s.frame .left s)).filterValue s.frame ch := by
    rw [engineSteps, engineSteps, engineStep_of_busy _ hb]
    unfold nextFrame computeFrame
    exact filterValue_congr s.frame ch rfl (fun _ _ => rfl) fun _ _ _ => rfl
  rw [h, filterValue_computeChannel (by simpa) (computeChannel_wf s.frame .left hm) (by simpa),
    filterValue_computeChannel hc hm hn]

theorem runToNaN_isNaN : (runToNaN.filterValue runToNaN.frame .left).isNaN = true := by decide +kernel

theorem runToNaN_inv : runToNaN.Inv := by decide

/-- A number and, in `huge`, a NaN, both in the finished chunk. -/
theorem witness_RunComputesEveryFrame :
    (at' 7 true).Inv ∧ (at' 7 true).busy = true ∧ (at' 7 true).frame ≤ 7 ∧ 7 < (at' 7 true).cfg.chunkFrames
      ∧ clip ((engineSteps 1 (at' 7 true)).filterValue 7 .left) = some 0#16
      ∧ runToNaN.Inv ∧ runToNaN.busy = true ∧ runToNaN.frame < runToNaN.cfg.chunkFrames
      ∧ ((engineSteps 1 runToNaN).filterValue runToNaN.frame .left).isNaN = true := by
  have hi := runToNaN_inv
  refine ⟨by decide, rfl, by decide, by decide, by decide +kernel, hi, rfl, hi.2.2.1 rfl, ?_⟩
  rw [filterValue_engineStep _ hi.1 hi.2.2.2.1 (hi.2.2.1 rfl) rfl]
  exact runToNaN_isNaN

theorem witness_StepsAndRunCompose :
    (at' 6 false).busy = false ∧ (at' 6 false).frame + 1 < (at' 6 false).cfg.chunkFrames
      ∧ ∃ u, exec .step (at' 6 false) = .next u := ⟨by decide, by decide, _, rfl⟩

theorem witness_SilenceIsAFixedPoint :
    (at' 0 true).Inv ∧ (at' 0 true).busy = true ∧ (at' 0 true).frame = 0
      ∧ (zeroChunk (at' 0 true) (remap (at' 0 true).phase .currIn)
          ∧ zeroChunk (at' 0 true) (remap (at' 0 true).phase .prevIn)
          ∧ zeroChunk (at' 0 true) (remap (at' 0 true).phase .feedbackOut)) := by
  exact ⟨by decide, rfl, rfl, fun i _ => sample_of_empty rfl _ i, fun i _ => sample_of_empty rfl _ i,
    fun i _ => sample_of_empty rfl _ i⟩

theorem witness_FilterValueIsTheOrderedSum : start.cfg.m = 3 ∧ start.cfg.n = 3 := by decide

/-- Both sides of the wrap: the tap `k = 3` of TINY at frames 6 and 5. -/
theorem witness_TapPositionsStayInBounds :
    tiny.wellFormed = true ∧ 3 ≤ max tiny.m tiny.n ∧ (6 < tiny.chunkFrames ∧ 3 * tiny.delay ≤ 6)
      ∧ (5 < tiny.chunkFrames ∧ 5 < 3 * tiny.delay) ∧ (7 < tiny.chunkFrames ∧ 0 * tiny.delay ≤ 7) := by decide

/-- Two states that differ in `load_out` at frame 2 agree below it. -/
theorem witness_FilterReadsNoStaleFrame :
    start.cfg.wellFormed = true ∧ 2 < start.cfg.chunkFrames
      ∧ (put (.output 0) 2 5 5 start).cfg = start.cfg ∧ (put (.output 0) 2 5 5 start).phase = start.phase
      ∧ put (.output 0) 2 5 5 start ≠ start
      ∧ ∀ r ∈ [Role.currIn, .prevIn, .loadOut, .feedbackOut], ∀ f < start.cfg.chunkFrames, r ≠ .loadOut ∨ f < 2 →
          (put (.output 0) 2 5 5 start).roleSample r f .left = start.roleSample r f .left := by decide

/-- Two states that differ on the right channel alone; and a state whose frame is no NaN. -/
theorem witness_ChannelsAreIndependent :
    ((put (.output 0) 2 0 5 start).cfg = start.cfg ∧ (put (.output 0) 2 0 5 start).phase = start.phase
        ∧ ∀ sl f, (put (.output 0) 2 0 5 start).sample sl (sampleIndex f .left) = start.sample sl (sampleIndex f .left))
      ∧ start.Inv ∧ start.frame < start.cfg.chunkFrames
      ∧ (start.filterValue start.frame .left).isNaN = false ∧ (start.filterValue start.frame .right).isNaN = false := by
  refine ⟨⟨rfl, rfl, fun sl f => ?_⟩, by decide, by decide, by decide +kernel, by decide +kernel⟩
  have : (put (.output 0) 2 0 5 start).chunks = [(74, 5#8)] := by decide
  have ha : sampleAddr tiny sl (sampleIndex f .left) % 4 = 0 := by
    show (sl.place * 32 + 2 * (2 * f + 0)) % 4 = 0
    omega
  show readSampleAt (put (.output 0) 2 0 5 start).chunks (sampleAddr tiny sl (sampleIndex f .left)) = readSampleAt [] _
  rw [this]
  simp only [readSampleAt, Memory.read]
  rw [if_neg (by omega), if_neg (by omega)]

/-- Coefficients at the bound 2^100 exactly. -/
theorem witness_BoundedCoefficientsNeverGiveNaN :
    ∃ s : State, s.cfg.wellFormed = true ∧ (∀ k, k ≤ s.cfg.m → |(coefB s.cfg k).value| ≤ 2 ^ 100)
      ∧ (∀ j, j < s.cfg.n → |(coefA s.cfg j).value| ≤ 2 ^ 100) ∧ (coefB s.cfg 0).value = 2 ^ 100 := by
  refine ⟨{ start with cfg := { huge with b := [coef 0x71800000#32], a := [coef 0xF1800000#32] } }, by decide, ?_, ?_, ?_⟩
  · intro k hk; obtain rfl : k = 0 := Nat.le_zero.1 hk; decide +kernel
  · intro j hj; obtain rfl : j = 0 := Nat.lt_one_iff.1 hj; decide +kernel
  · decide +kernel

/-- `T1` meets 41_echo_filter R148 with `q = 4` (95 section 0). -/
theorem witness_ScaledCoefficientsAreExact :
    start.cfg.wellFormed = true ∧ (4 ≤ 100)
      ∧ (∀ k, k ≤ start.cfg.m → ∃ z : ℤ, (coefB start.cfg k).value * 2 ^ 4 = z)
      ∧ (∀ j, j < start.cfg.n → ∃ z : ℤ, (coefA start.cfg j).value * 2 ^ 4 = z)
      ∧ ((∑ k ∈ Finset.range (start.cfg.m + 1), |(coefB start.cfg k).value|)
          + ∑ j ∈ Finset.range start.cfg.n, |(coefA start.cfg j).value|) * 2 ^ 4 ≤ 512 := by
  have hb : ∀ k, k ≤ 3 → ∃ z ∈ [16, 8, 4, 2], (coefB tiny k).value * 2 ^ 4 = ((z : ℤ) : ℚ) := by decide +kernel
  have ha : ∀ j, j < 3 → ∃ z ∈ [4, -2, 1], (coefA tiny j).value * 2 ^ 4 = ((z : ℤ) : ℚ) := by decide +kernel
  refine ⟨by decide, by decide, fun k hk => (hb k hk).imp fun _ h => h.2, fun j hj => (ha j hj).imp fun _ h => h.2, ?_⟩
  decide +kernel

theorem witness_ArithmeticIsRoundedOnce :
    (toF (BitVec.ofInt 16 (-32768))).isNumber = true ∧ (f32 0x7F7FFFFF#32).isNumber = true
      ∧ Flt.zero.isNumber = true := by decide +kernel

theorem witness_ToFIsExact : |(-(2 ^ 24) : ℤ)| ≤ 2 ^ 24 := by decide

/-- A NaN, a subnormal and the greatest finite number. -/
theorem witness_BitsAndValuesAgree :
    (Flt.nan true 0x7FFFFF).representable = true ∧ (Flt.fin true 1).representable = true
      ∧ (f32 0x7F7FFFFF#32).representable = true := by decide +kernel

/-- A value at each bound and one between (95 V-D1). -/
theorem witness_ClipRoundsThenSaturates :
    (∃ neg mag x, f32 0x46FFFE00#32 = .fin neg mag ∧ clip (.fin neg mag) = some x ∧ 32767 ≤ (Flt.fin neg mag).value)
      ∧ (∃ neg mag x, f32 0xC7000000#32 = .fin neg mag ∧ clip (.fin neg mag) = some x ∧ (Flt.fin neg mag).value ≤ -32768)
      ∧ (∃ neg mag x, f32 0x46FFFD00#32 = .fin neg mag ∧ clip (.fin neg mag) = some x ∧ -32768 < (Flt.fin neg mag).value
          ∧ (Flt.fin neg mag).value < 32767) :=
  ⟨⟨false, 0xFFFE00 * 2 ^ 140, 32767#16, by decide +kernel⟩, ⟨true, 0x800000 * 2 ^ 141, 0x8000#16, by decide +kernel⟩,
    ⟨false, 0xFFFD00 * 2 ^ 140, 32767#16, by decide +kernel⟩⟩

theorem witness_ClipIsIdempotent : clip (f32 0x46FFFF00#32) = some (BitVec.ofInt 16 32767) := by decide +kernel

/-- Clause by clause: below 1/2; two values in order; an infinity; an odd pair; the two bounds. -/
theorem witness_ClipLaws :
    |(Flt.fin true (2 ^ 148 - 2 ^ 124)).value| < 1 / 2
      ∧ ((Flt.fin true (2 ^ 148)).value ≤ (Flt.fin false (2 ^ 148)).value
          ∧ clip (.fin true (2 ^ 148)) = some 0xFFFF#16 ∧ clip (.fin false (2 ^ 148)) = some 1#16)
      ∧ (clip (.inf true) = some 0x8000#16 ∧ clip (.inf false) = some 0x7FFF#16)
      ∧ (clip (f32 0x46FFFC00#32) = some 0x7FFE#16 ∧ clip (fneg (f32 0x46FFFC00#32)) = some 0x8002#16
          ∧ -32768 < (0x7FFE#16).toInt ∧ -32768 < (0x8002#16).toInt)
      ∧ (clip (.fin true (32768 * 2 ^ 149)) = some 0x8000#16 ∧ -32768 ≤ (Flt.fin true (32768 * 2 ^ 149)).value
          ∧ (Flt.fin true (32768 * 2 ^ 149)).value ≤ 32767)
      ∧ (clip (.fin false (32767 * 2 ^ 149)) = some 0x7FFF#16 ∧ -32768 ≤ (Flt.fin false (32767 * 2 ^ 149)).value
          ∧ (Flt.fin false (32767 * 2 ^ 149)).value ≤ 32767) := by decide +kernel

theorem witness_RolesAreDistinctChunks :
    Role.prevIn ≠ .currIn ∧ 0 < start.cfg.bufferSize ∧ 15 < start.cfg.bufferSize ∧ Slot.input 0 ≠ .output 3 := by decide

theorem witness_HistoryMovesWithThePhase :
    ((at' 0 false).busy = false ∧ (at' 0 false).frame = 0 ∧ ∃ t, exec .adv (at' 0 false) = .next t)
      ∧ ((at' 8 false).busy = false ∧ (at' 8 false).frame = (at' 8 false).cfg.chunkFrames
          ∧ ∃ t, exec .adv (at' 8 false) = .next t) := ⟨⟨rfl, rfl, _, rfl⟩, rfl, rfl, _, rfl⟩

/-- Tap 3 of TINY on both sides of the wrap. -/
theorem witness_ChunkBoundariesDoNotShow :
    (at' 8 false).busy = false ∧ (at' 8 false).frame = (at' 8 false).cfg.chunkFrames
      ∧ 5 < 3 * (at' 8 false).cfg.delay ∧ 3 * (at' 8 false).cfg.delay ≤ 6
      ∧ ∃ t, exec .adv (at' 8 false) = .next t := ⟨by decide, by decide, by decide, by decide, _, rfl⟩

/-- An `ADV`, an `INIT` and a reset, each of which moves `PHASE`. -/
theorem witness_PhaseOnlyAdvancesOrReturnsToZero :
    (nextOf (step (doing (commandAccess tiny (encode .adv)) start))).map (fun t => t.phase.val) = some 1
      ∧ (nextOf (step (doing (commandAccess tiny (encode .init)) { start with phase := 2 }))).map (fun t => t.phase.val)
        = some 0
      ∧ (nextOf (step { at' 3 true with phase := 2, turns := [.reset] })).map (fun t => t.phase.val) = some 0 := by decide

/-- The engine's frame, a `STEP`'s and an `ADV`'s return to 0. -/
theorem witness_FrameOnlyAdvancesOrReturnsToZero :
    ((at' 7 true).Inv ∧ (nextOf (step (at' 7 true))).map State.frame = some 8)
      ∧ (doing (commandAccess tiny (encode .step)) start).Inv
      ∧ (nextOf (step (doing (commandAccess tiny (encode .step)) start))).map State.frame = some 1
      ∧ (doing (commandAccess tiny (encode .adv)) (at' 8 false)).Inv
      ∧ (nextOf (step (doing (commandAccess tiny (encode .adv)) (at' 8 false)))).map State.frame = some 0 := by
  decide +kernel

theorem witness_FaultFlagsAreSticky :
    (nextTurn { start with cmdf := true } ≠ .reset ∧ { start with cmdf := true }.flag .cmdf = true
        ∧ (nextOf (step { start with cmdf := true })).isSome = true)
      ∧ nextTurn { start with turns := [.reset] } = .reset
      ∧ (nextOf (step { start with turns := [.reset] })).isSome = true := by decide

/-- A step that raises a flag, and an engine step. -/
theorem witness_AtMostOneFaultPerStep :
    (nextOf (step (doing (commandAccess tiny (encode .step)) (at' 8 false)))).map (fun t => t.flag .seqf) = some true
      ∧ nextTurn (at' 7 true) = .engine ∧ (nextOf (step (at' 7 true))).isSome = true := by decide

theorem witness_NoStepChangesTheConfiguration : ∃ t, step (at' 7 true) = .next t := ⟨_, rfl⟩

/-- A host write of `CURR_IN`, an engine step, and samples at both ends. -/
theorem witness_OnlyTheOwnerWritesAChunk :
    ((doing (writeAccess 0 4 1#32) start).Inv
        ∧ (nextOf (step (doing (writeAccess 0 4 1#32) start))).map (fun t => frameAt (.input 0) 0 t) = some (1, 0)
        ∧ nextTurn (doing (writeAccess 0 4 1#32) start) ≠ .reset
        ∧ (doing (writeAccess 0 4 1#32) start).script ≠ [.access (commandAccess tiny (encode .init))]
        ∧ 0 < tiny.bufferSize)
      ∧ ((at' 7 true).Inv ∧ (nextOf (step (at' 7 true))).isSome = true ∧ nextTurn (at' 7 true) = .engine
          ∧ 15 < tiny.bufferSize ∧ 13 ≠ 2 * (at' 7 true).frame) := by decide

theorem witness_WindowAccessesFollowRemap :
    start.Inv ∧ start.busy = false ∧ (at' 0 true).Inv ∧ Role.playOut ≠ .loadOut ∧ (30 < start.cfg.chunkBytes ∧ 30 % 2 = 0)
      ∧ (28 < start.cfg.chunkBytes ∧ 28 % 4 = 0) := by decide

/-- Readable registers at the ends of the coefficient files, and both ends of a window. -/
theorem witness_AccessesDuringARun :
    (at' 7 true).Inv ∧ (at' 7 true).busy = true
      ∧ ((Reg.coefB 3).allows .read = true ∧ regAt tiny (Reg.coefB 3).offset = some (.coefB 3))
      ∧ ((Reg.coefA 2).allows .read = true ∧ regAt tiny (Reg.coefA 2).offset = some (.coefA 2))
      ∧ (Reg.status.allows .read = true ∧ regAt tiny Reg.status.offset = some .status)
      ∧ (30 < tiny.chunkBytes ∧ 30 % 2 = 0) ∧ (28 < tiny.chunkBytes ∧ 28 % 4 = 0) ∧ Role.feedbackOut ≠ .loadOut := by
  decide

/-- Clause by clause, at the ends of the ranges (95 P4 rows 22 to 32). -/
theorem witness_BadAccessRaisesOnlyAccf :
    start.cfg.wellFormed = true
      ∧ ((readAccess 0 1).addr < regBase tiny + 0x100 ∧ (readAccess 0 1).width ≠ 2 ∧ (readAccess 0 1).width ≠ 4)
      ∧ ((readAccess 1 2).addr % 2 ≠ 0 ∧ (readAccess 2 4).addr % 4 ≠ 0 ∧ (readAccess 0x19F 4).addr < regBase tiny + 0x100)
      ∧ regBase tiny ≤ (readAccess 0xA4 2).addr
      ∧ (regBase tiny + 0x1C = 0xBC ∧ 0x40 + 4 * (tiny.m + 1) ≤ 0x50 ∧ 0x80 + 4 * tiny.n ≤ 0x8C)
      ∧ (regAt tiny Reg.status.offset = some .status ∧ (writeAccess (regAddr tiny .status) 4 0#32).kind = .write)
      ∧ (readAccess (regAddr tiny .cmd) 4).addr = regAddr tiny .cmd
      ∧ (tiny.chunkBytes ≤ (writeAccess 0x20 2 1#32).addr ∧ (writeAccess 0x9C 4 1#32).addr < regBase tiny) := by decide

theorem witness_OnlyCurrInIsWritable :
    start.cfg.wellFormed = true ∧ Role.prevIn ≠ .currIn ∧ 31 < start.cfg.chunkBytes ∧ (at' 7 true).busy = true
      ∧ ∃ t u, exec .adv start = .next t ∧ t.phase ≠ start.phase ∧ t.busy = false ∧ exec .adv t = .next u
          ∧ u.phase ≠ t.phase := ⟨by decide, by decide, by decide, rfl, _, _, rfl, by decide, rfl, rfl, by decide⟩

/-- A read that is carried out, one that raises `ACCF`, one that a run bars. -/
theorem witness_ReadsHaveNoSideEffect :
    (nextOf (hostAccess (readAccess 0xA4 4) start)).map State.reply = some (.value 0#32)
      ∧ (nextOf (hostAccess (readAccess 0xA0 4) start)).map State.accf = some true
      ∧ (nextOf (hostAccess (readAccess 0x40 4) (at' 7 true))).map State.busyf = some true := by decide

theorem witness_RegistersReadTheirContents :
    start.cfg.wellFormed = true ∧ start.frame < 2 ^ 32 ∧ (3 ≤ start.cfg.m ∧ start.cfg.b[3]? = some (coef 0x3E000000#32))
      ∧ (2 < start.cfg.n ∧ start.cfg.a[2]? = some (coef 0x3D800000#32)) := by decide

/-- Both ends of `ADV`'s refused range, during a run and outside one. -/
theorem witness_FaultsAreRaisedInOrder :
    start.cfg.wellFormed = true ∧ (at' 7 true).busy = true ∧ 31 < tiny.chunkBytes
      ∧ ((at' 8 false).busy = false ∧ (at' 8 false).frame = (at' 8 false).cfg.chunkFrames)
      ∧ ((at' 1 true).Inv ∧ (at' 1 true).busy = true ∧ 0 < (at' 1 true).frame)
      ∧ ((at' 7 true).Inv ∧ (at' 7 true).busy = true ∧ 0 < (at' 7 true).frame)
      ∧ ((at' 7 false).busy = false ∧ 0 < (at' 7 false).frame ∧ (at' 7 false).frame < (at' 7 false).cfg.chunkFrames)
      ∧ ∀ i, 0x60000000#32 ≠ encode i :=
  ⟨by decide, by decide, by decide, by decide, by decide, by decide, by decide, fun i => by cases i <;> decide⟩

theorem witness_PutThenGetReturnsTheFrame : start.Inv ∧ start.busy = false ∧ 7 < start.cfg.chunkFrames := by decide

end Sys2Proof.Tests.Slice0
end

section
/-! PROOFS. The reset turn and what it does to the state (10_state R37, 70_reset R210). -/

namespace Sys2Proof.Machine

variable {s : State}

/-- Passing the turn leaves the configuration alone. -/
@[simp] theorem afterTurn_cfg (s : State) : (afterTurn s).cfg = s.cfg := rfl

/-- In an allowed configuration a reset turn answers with the reset event (00_scope R12). -/
theorem step_of_reset_turn (hw : s.cfg.wellFormed = true) (hn : nextTurn s = .reset) :
    step s = .next (resetEvent (afterTurn s)) := by
  simp only [step, takeTurn, hw, if_true, hn, afterTurn]

/-- `DONE` reads 0 whenever `FRAME` is 0: an allowed configuration has at least one frame in a chunk (10_state R25). -/
theorem doneBit_of_frame_zero (hw : s.cfg.wellFormed = true) (hf : s.frame = 0) : s.doneBit = false := by
  have hpos : 0 < s.cfg.chunkFrames := (Config.bufferSize_eq hw).2
  rw [State.doneBit, decide_eq_false_iff_not]
  omega

/-- Settles O10: the turn is the reset event, whose fields the laws of `resetEvent` give; `DONE` turns on a chunk
not being empty. -/
theorem resetGivesEveryStateItsValue : Obligations.ResetGivesEveryStateItsValue := by
  intro s hw hn
  have hflag (f : FaultFlag) : (resetEvent (afterTurn s)).flag f = false := resetEvent_flag f _
  have hdone : (resetEvent (afterTurn s)).doneBit = false := doneBit_of_frame_zero (by simpa using hw) (by simp)
  have hsample (sl : Slot) (i : Nat) : (resetEvent (afterTurn s)).sample sl i = 0#16 := sample_of_empty (by simp) sl i
  have hmap : mapWord (resetEvent (afterTurn s)).phase = 0x000001E2#32 := by rw [resetEvent_phase]; decide
  exact ⟨resetEvent (afterTurn s), step_of_reset_turn hw hn, by simp, by simp, by simp, hflag .cmdf, hflag .busyf,
    hflag .seqf, hflag .nanf, hflag .accf, hdone, by simp, by simp, hsample, by simp, by simp, hmap⟩

end Sys2Proof.Machine
end

section
/-! PROOFS. Host accesses while a run is in progress, and which windows the host may write (20_memory R57 to R59). -/

namespace Sys2Proof.Machine

variable {s : State}

/-- Width and alignment of a window access, spelled out (20_memory R55). -/
theorem windowWidthOk_iff (width off : Nat) :
    windowWidthOk width off = true ↔ (width = 2 ∧ off % 2 = 0) ∨ (width = 4 ∧ off % 4 = 0) := by
  simp [windowWidthOk]

/-- A 16-bit read of a window is one Sample, zero-extended (20_memory R53). -/
theorem readWindow_two (s : State) (r : Role) (off : Nat) :
    s.readWindow r off 2 = (s.sample (remap s.phase r) (off / 2)).zeroExtend 32 := rfl

/-- A 32-bit read of a window is a frame, the left Sample in the low half (20_memory R53). -/
theorem readWindow_four (s : State) (r : Role) (off : Nat) :
    s.readWindow r off 4 = s.sample (remap s.phase r) (off / 2 + 1) ++ s.sample (remap s.phase r) (off / 2) := rfl

/-- A 32-bit write of `CLIPIN` stores the word in every state, a run in progress or not (10_state R30). -/
theorem hostAccess_writeClipin (s : State) (v : Word) :
    hostAccess (writeAccess (regAddr s.cfg .clipin) 4 v) s = .next { s with clipin := v, reply := .done } := by
  have ht : target s.cfg (writeAccess (regAddr s.cfg .clipin) 4 v).addr = some (.register Reg.clipin.offset) :=
    target_register (by decide)
  rw [hostAccess_of_allowed ht rfl (.inr rfl)]
  rfl

/-- During a run every word written to `CMD` is dropped with `BUSYF` (60_exceptions R183). -/
theorem hostAccess_command_of_busy (hb : s.busy = true) (w : Word) :
    hostAccess (commandAccess s.cfg w) s = .next { s with busyf := true, reply := .done } := by
  rw [hostAccess_command, if_pos hb]
  rfl

/-- During a run a well-formed write of `CURR_IN` raises `BUSYF` and stores nothing (60_exceptions R183). -/
theorem hostAccess_writeCurrIn_of_busy (hb : s.busy = true) {off width : Nat} (ho : off < s.cfg.chunkBytes)
    (hw : windowWidthOk width off = true) (v : Word) :
    hostAccess (writeAccess (windowAddr s.cfg .currIn off) width v) s
      = .next { s with busyf := true, reply := .done } := by
  have ht : target s.cfg (writeAccess (windowAddr s.cfg .currIn off) width v).addr = some (.window .currIn off) :=
    target_window ho
  rw [hostAccess_of_barred ht (by simp [permitted, writeAccess, hw]) hb rfl, refuseAccess_write _ rfl]
  rfl

/-- During a run a well-formed read of `LOAD_OUT` raises `BUSYF` and nothing else (60_exceptions R183). -/
theorem hostAccess_readLoadOut_of_busy (hb : s.busy = true) {off width : Nat} (ho : off < s.cfg.chunkBytes)
    (hw : windowWidthOk width off = true) :
    RefusedWith .busyf (readAccess (windowAddr s.cfg .loadOut off) width) s := by
  have ht : target s.cfg (readAccess (windowAddr s.cfg .loadOut off) width).addr = some (.window .loadOut off) :=
    target_window ho
  exact refusedWith_of_eq (hostAccess_of_barred ht (by simp [permitted, readAccess, hw]) hb rfl)

/-- Settles O53: each row of R59's table is the law of that access; only the widths of window reads remain. -/
theorem accessesDuringARun : Obligations.AccessesDuringARun := by
  intro s _ hb
  refine ⟨?registers, hostAccess_writeClipin s, hostAccess_command_of_busy hb, ?windows, ?barred⟩
  case registers =>
    rintro r _ hrd hr rfl
    exact hostAccess_readReg hr hrd
  case windows =>
    refine fun r off ho hr => ⟨fun h2 => ?_, fun h4 => ?_⟩
    · rw [← readWindow_two]
      exact hostAccess_readWindow ho ((windowWidthOk_iff 2 off).2 (.inl ⟨rfl, h2⟩)) (.inr hr)
    · rw [← readWindow_four]
      exact hostAccess_readWindow ho ((windowWidthOk_iff 4 off).2 (.inr ⟨rfl, h4⟩)) (.inr hr)
  case barred =>
    intro off width v ho hwidth
    have hw := (windowWidthOk_iff width off).2 hwidth
    exact ⟨hostAccess_writeCurrIn_of_busy hb ho hw v, hostAccess_readLoadOut_of_busy hb ho hw⟩

/-- A write of any width to a window other than `CURR_IN` raises `ACCF` and nothing else, during a run or not
(20_memory R58). -/
theorem hostAccess_writeWindow_of_ne_currIn (s : State) {r : Role} (hr : r ≠ .currIn) {off : Nat}
    (ho : off < s.cfg.chunkBytes) (width : Nat) (v : Word) :
    hostAccess (writeAccess (windowAddr s.cfg r off) width v) s = .next { s with accf := true, reply := .done } := by
  have ht : target s.cfg (writeAccess (windowAddr s.cfg r off) width v).addr = some (.window r off) :=
    target_window ho
  rw [hostAccess_of_not_permitted ht (by simp [permitted, writeAccess, hr]), refuseAccess_write _ rfl]
  rfl

/-- An `ADV` moves `PHASE` on by one or leaves it, as a refused one does (42_buffer_ring R163). -/
theorem phase_of_exec_adv {t : State} (h : exec .adv s = .next t) : t.phase = s.phase ∨ t.phase = s.phase + 1 := by
  rcases accept_cases h with ⟨-, rfl⟩ | ⟨-, -, rfl⟩ | ⟨-, -, rfl⟩
  · exact .inl (raise_phase _ s)
  · exact .inl (raise_phase _ s)
  · exact .inr rfl

/-- The chunk that was `curr_in` is `prev_in` in the next phase (42_buffer_ring R160). -/
theorem remap_succ_prevIn (c : Fin 4) : remap (c + 1) .prevIn = remap c .currIn := by
  revert c; decide

/-- The chunk that was `curr_in` is `curr_in` again two phases on (42_buffer_ring R160). -/
theorem remap_succ_succ_currIn (c : Fin 4) : remap (c + 1 + 1) .currIn = remap c .currIn := by
  revert c; decide

/-- Settles O55: a window write is permitted for `CURR_IN` alone and barred there by a run; two `ADV`s that move
`PHASE` move it by one each, and the role map does the rest. -/
theorem onlyCurrInIsWritable : Obligations.OnlyCurrInIsWritable := by
  refine ⟨?readOnly, ?barred, ?roles⟩
  case readOnly =>
    intro s r off width v _ hr ho
    exact hostAccess_writeWindow_of_ne_currIn s hr ho width v
  case barred =>
    intro s off width v _ hb ho hwidth
    exact hostAccess_writeCurrIn_of_busy hb ho ((windowWidthOk_iff width off).2 hwidth) v
  case roles =>
    intro s t u _ hst hts _ htu hut
    have ht : t.phase = s.phase + 1 := (phase_of_exec_adv hst).resolve_left hts
    have hu : u.phase = t.phase + 1 := (phase_of_exec_adv htu).resolve_left hut
    rw [hu, ht]
    exact ⟨remap_succ_prevIn s.phase, remap_succ_succ_currIn s.phase⟩

end Sys2Proof.Machine
end

section
/-! PROOFS. The decoder accepts the five command words and no other word (30_encoding R81, R83). -/

namespace Sys2Proof

/-- Every command satisfies its encoding law. -/
theorem encodingStatement (i : Instr) : Laws.Encoding.Statement i := by
  cases i with
  | init => exact Laws.Encoding.init
  | step => exact Laws.Encoding.step
  | run => exact Laws.Encoding.run
  | adv => exact Laws.Encoding.adv
  | clip => exact Laws.Encoding.clip

/-- A command's word decodes to that command (30_encoding R81). -/
@[simp] theorem decode_encode (i : Instr) : decode (encode i) = .ok i := by
  obtain ⟨-, hdecode, -⟩ := encodingStatement i
  exact hdecode

/-- Two commands have two words. -/
theorem encode_injective : Function.Injective encode := fun i j h =>
  Except.ok.inj <| calc
    Except.ok i = decode (encode i) := (decode_encode i).symm
    _ = decode (encode j) := by rw [h]
    _ = .ok j := decode_encode j

/-- A word is its operation code above its `ZERO` field (30_encoding R80). -/
theorem opcField_append_zeroField (w : Word) : opcField w ++ zeroField w = w :=
  (BitVec.extractLsb'_append_extractLsb'_eq_extractLsb' (show 28 = 0 + 28 from rfl)).trans
    BitVec.extractLsb'_eq_self

/-- No operation code but a command's own stands for it (30_encoding R81). -/
theorem eq_opcOf_of_commandOf {opc : BitVec 4} {i : Instr} (h : commandOf opc = some i) : opc = opcOf i := by
  unfold commandOf at h
  split_ifs at h with h1 h2 h3 h4 h5 <;> cases h <;> assumption

/-- What an accepted word looks like: the command's operation code, and `ZERO` clear (30_encoding R83). -/
theorem fields_of_decode_ok {w : Word} {i : Instr} (h : decode w = .ok i) :
    opcField w = opcOf i ∧ zeroField w = 0#28 := by
  unfold decode at h
  split at h
  case h_1 => cases h
  case h_2 j hj =>
    split_ifs at h with hz
    cases h
    exact ⟨eq_opcOf_of_commandOf hj, hz⟩

/-- The decoder reads a command from its one word and from no other (30_encoding R81). -/
theorem decode_eq_ok_iff (w : Word) (i : Instr) : decode w = .ok i ↔ w = encode i := by
  constructor
  · intro h
    obtain ⟨hopc, hzero⟩ := fields_of_decode_ok h
    rw [← opcField_append_zeroField w, hopc, hzero, encode]
  · rintro rfl
    exact decode_encode i

/-- A word is illegal exactly when it is no command's word (30_encoding R83). -/
theorem exists_decode_error_iff (w : Word) : (∃ e, decode w = .error e) ↔ w ∉ Set.range encode := by
  cases h : decode w with
  | error e =>
    refine iff_of_true ⟨e, rfl⟩ ?_
    rintro ⟨i, rfl⟩
    simp at h
  | ok i => exact iff_of_false (by simp) (not_not_intro ⟨i, ((decode_eq_ok_iff w i).1 h).symm⟩)

/-- The five rows of the opcode map (30_encoding R81). -/
def commands : Finset Instr := {.init, .step, .run, .adv, .clip}

/-- The opcode map has a row for every command. -/
theorem mem_commands (i : Instr) : i ∈ commands := by cases i <;> decide

/-- There are five command words, no two rows of the opcode map sharing one (30_encoding R81). -/
theorem ncard_range_encode : (Set.range encode).ncard = 5 := by
  have hrows : Set.range encode = encode '' (commands : Set Instr) := by
    have hall : (commands : Set Instr) = Set.univ := Set.eq_univ_of_forall mem_commands
    rw [hall, Set.image_univ]
  rw [hrows, Set.ncard_image_of_injective _ encode_injective, Set.ncard_coe_finset]
  decide

/-- There are 2^32 words (30_encoding R80). -/
theorem card_word : Nat.card Word = 2 ^ 32 := by
  rw [Nat.card_congr BitVec.equivFin.toEquiv, Nat.card_fin]

/-- The illegal words are all but the five (30_encoding R83). -/
theorem card_illegal_words : Nat.card {w : Word // ∃ e, decode w = .error e} = 2 ^ 32 - 5 := by
  have hillegal : {w : Word | ∃ e, decode w = .error e} = (Set.range encode)ᶜ :=
    Set.ext exists_decode_error_iff
  calc Nat.card {w : Word // ∃ e, decode w = .error e}
      = {w : Word | ∃ e, decode w = .error e}.ncard := Nat.card_coe_set_eq _
    _ = (Set.range encode)ᶜ.ncard := by rw [hillegal]
    _ = 2 ^ 32 - 5 := by rw [Set.ncard_compl, card_word, ncard_range_encode]

/-- Settles O2: an accepted word has its command's two fields and so is that command's word; the illegal words are the
complement of five distinct ones. -/
theorem decodeAcceptsExactlyTheFiveWords : Obligations.DecodeAcceptsExactlyTheFiveWords :=
  ⟨decode_eq_ok_iff, fun _ => BitVec.and_allOnes, card_illegal_words⟩

end Sys2Proof
end

section
/-! PROOFS. `clip` fixes the value of every Sample (40_clipper R106), and what the `CLIP` command does (R108). -/

namespace Sys2Proof.Machine

/-- Rounding fixes an integer, given as its sign and its magnitude in units of `2^-149` (40_clipper R101). -/
theorem rha_of_int (z : Int) : rha (decide (z < 0)) (z.natAbs * 2 ^ 149) = z := by
  have hfloor : (2 * (z.natAbs * 2 ^ 149) + 2 ^ 149) / 2 ^ 150 = z.natAbs := by omega
  rw [rha, hfloor, signedMag]
  split_ifs with hneg <;> simp only [decide_eq_true_eq] at hneg <;> omega

/-- Saturation fixes every integer that a Sample holds (40_clipper R100). -/
theorem saturate_toInt (x : Sample) : saturate x.toInt = x := by
  have hlo : -32768 ≤ x.toInt := BitVec.le_toInt x
  have hhi : x.toInt < 32768 := BitVec.toInt_lt
  have hsame : saturate x.toInt = BitVec.ofInt 16 x.toInt := by
    unfold saturate
    split_ifs with hmax hmin
    · rw [show x.toInt = 32767 by omega]
    · rw [show x.toInt = -32768 by omega]
    · rfl
  rw [hsame, BitVec.ofInt_toInt]

/-- `clip` is a left inverse of `toF` (40_clipper R106). -/
@[simp] theorem clip_toF (x : Sample) : clip (toF x) = some x := by
  rw [toF, clip, rha_of_int, saturate_toInt]

/-- Settles O39: what `clip` gives is a Sample, and `clip` of any Sample's value is that Sample. -/
theorem clipIsIdempotent : Obligations.ClipIsIdempotent :=
  fun _ x _ => clip_toF x

/-- A number has a clipped Sample (40_clipper R100). -/
theorem exists_clip_of_not_isNaN {v : Flt} (h : v.isNaN = false) : ∃ x, clip v = some x := by
  rw [← Option.ne_none_iff_exists', ne_eq, clip_eq_none_iff, h]
  exact Bool.false_ne_true

/-- The NaN words: exponent field 0xFF and a fraction that is not 0 (40_clipper R108). -/
theorem isNaN_f32_iff (w : Word) :
    (f32 w).isNaN = true ↔ w.extractLsb' 23 8 = 0xFF#8 ∧ w.extractLsb' 0 23 ≠ 0#23 := by
  have hexpo : w.extractLsb' 23 8 = 0xFF#8 ↔ (w.extractLsb' 23 8).toNat = 255 := BitVec.toNat_inj.symm
  have hfrac : w.extractLsb' 0 23 = 0#23 ↔ (w.extractLsb' 0 23).toNat = 0 := BitVec.toNat_inj.symm
  rw [hexpo, ne_eq, hfrac, f32]
  split_ifs with h255 h0 hsub
  · exact iff_of_false Bool.false_ne_true fun h => h.2 h0
  · exact iff_of_true rfl ⟨h255, h0⟩
  · exact iff_of_false Bool.false_ne_true fun h => h255 h.1
  · exact iff_of_false Bool.false_ne_true fun h => h255 h.1

variable {s : State}

/-- Outside a run `CLIP` of a number stores its Sample and does nothing else (40_clipper R108). -/
theorem exec_clip_of_number {x : Sample} (hb : s.busy = false) (hx : clip (f32 s.clipin) = some x) :
    exec .clip s = .next { s with clipout := x } := by
  have heffect : clipEffect s = { s with clipout := x } := by
    simp only [clipEffect, afterClip, clippedSample, hx]
  rw [← heffect]
  exact accept_of_ready hb rfl

/-- Outside a run `CLIP` of a NaN raises `NANF` and stores a free draw (40_clipper R104, R108; log 6). -/
theorem exec_clip_of_nan (hb : s.busy = false) (hnan : (f32 s.clipin).isNaN = true) :
    exec .clip s
      = .next { s with nanf := true, clipout := Config.freeSample s.draws, draws := s.draws + 1 } := by
  have hclip : clip (f32 s.clipin) = none := (clip_eq_none_iff _).2 hnan
  have heffect : clipEffect s
      = { s with nanf := true, clipout := Config.freeSample s.draws, draws := s.draws + 1 } := by
    simp only [clipEffect, afterClip, clippedSample, hclip, drawn, raise]
  rw [← heffect]
  exact accept_of_ready hb rfl

/-- Repeating `CLIP` on the same number changes nothing (40_clipper R108). -/
theorem exec_clip_repeat {t : State} (hb : s.busy = false) (hnum : (f32 s.clipin).isNaN = false)
    (ht : exec .clip s = .next t) : exec .clip t = .next t := by
  obtain ⟨x, hx⟩ := exists_clip_of_not_isNaN hnum
  rw [exec_clip_of_number hb hx] at ht
  cases ht
  exact exec_clip_of_number hb hx

/-- Settles O21: an accepted `CLIP` is one of two effects, by whether the operand has a clipped Sample; the corner
cases are computed. -/
theorem clipDeliversTheClippedOperand : Obligations.ClipDeliversTheClippedOperand := by
  refine ⟨rfl, fun s x => exec_clip_of_number, ?nan, fun s => accept_of_busy, fun s t => exec_clip_repeat,
    isNaN_f32_iff, ?reads, ?corners⟩
  case nan =>
    intro s hb hnan
    exact ⟨_, exec_clip_of_nan hb hnan, rfl, rfl, Nat.lt_succ_self s.draws, rfl⟩
  case reads =>
    intro s _
    exact hostAccess_readReg (r := .clipout) (off := 0x18) rfl rfl
  case corners => decide

end Sys2Proof.Machine
end

section
/-! PROOFS. What an accepted `STEP` computes: the frame at `FRAME`, its flags and its refusals (41_echo_filter R135). -/

namespace Sys2Proof.Machine

/-- A number's Sample is what `clip` gives, in every state (40_clipper R100). -/
theorem clippedSample_of_clip {v : Flt} {x : Sample} (h : clip v = some x) (s : State) : clippedSample s v = x := by
  simp only [clippedSample, h]

/-- A NaN's Sample is a free draw (40_clipper R104; log 6). -/
theorem clippedSample_of_isNaN {v : Flt} (h : v.isNaN = true) (s : State) :
    clippedSample s v = Config.freeSample s.draws := by
  simp only [clippedSample, (clip_eq_none_iff v).2 h]

/-- There are two channels (41_echo_filter R121). -/
theorem exists_channel_iff {p : Channel → Prop} : (∃ ch, p ch) ↔ p .left ∨ p .right := by
  constructor
  · rintro ⟨ch, h⟩
    cases ch with
    | left => exact .inl h
    | right => exact .inr h
  · rintro (h | h)
    · exact ⟨.left, h⟩
    · exact ⟨.right, h⟩

variable {s : State}

/-- The next frame raises no flag but `NANF`, and clears none (10_state R25). -/
theorem nextFrame_flag_of_ne_nanf (s : State) {f : FaultFlag} (hf : f ≠ .nanf) : (nextFrame s).flag f = s.flag f := by
  cases f with
  | nanf => exact absurd rfl hf
  | _ => simp [State.flag, nextFrame]

/-- `DONE` after the next frame: it was the last of the chunk (10_state R25). -/
theorem nextFrame_doneBit_iff (s : State) : (nextFrame s).doneBit = true ↔ s.frame + 1 = s.cfg.chunkFrames := by
  simp [State.doneBit]

/-- The next frame raises `NANF` exactly when a channel's value is a NaN (41_echo_filter R129). -/
theorem nextFrame_nanf_iff (hc : s.cfg.wellFormed = true) (hm : Memory.wf s.chunks = true)
    (hn : s.frame < s.cfg.chunkFrames) :
    (nextFrame s).nanf = true ↔ s.nanf = true ∨ ∃ ch, (s.filterValue s.frame ch).isNaN = true := by
  have hnanf : (nextFrame s).nanf
      = (s.nanf || (s.filterValue s.frame .left).isNaN || (s.filterValue s.frame .right).isNaN) :=
    computeFrame_nanf hc hm hn
  rw [hnanf, exists_channel_iff, Bool.or_eq_true, Bool.or_eq_true, or_assoc]

/-- Each channel's Sample of the next frame in `load_out` is the clipped value of the filter before it: the right
channel is computed in another state, whose filter value at the frame is the same (41_echo_filter R128, R129). -/
theorem nextFrame_sample_loadOut (hc : s.cfg.wellFormed = true) (hm : Memory.wf s.chunks = true)
    (hn : s.frame < s.cfg.chunkFrames) (ch : Channel) :
    ∃ u, (nextFrame s).sample (remap s.phase .loadOut) (sampleIndex s.frame ch)
      = clippedSample u (s.filterValue s.frame ch) := by
  have hsample := computeFrame_sample hc hm hn (remap s.phase .loadOut) _ (sampleIndex_lt hc hn ch)
  cases ch with
  | left => exact ⟨s, hsample.trans (if_pos (by simp))⟩
  | right =>
    exact ⟨computeChannel s.frame .left s, hsample.trans ((if_neg (by simp)).trans (if_pos (by simp)))⟩

/-- Outside a run, with a frame of the chunk left, `STEP` computes the next frame (41_echo_filter R135). -/
theorem exec_step_of_ready (hb : s.busy = false) (hn : s.frame < s.cfg.chunkFrames) :
    exec .step s = .next (nextFrame s) :=
  accept_of_ready hb (decide_eq_true hn)

/-- Outside a run, with no frame of the chunk left, `STEP` raises `SEQF` and does nothing else
(60_exceptions R184). -/
theorem exec_step_of_done (hb : s.busy = false) (hn : s.frame = s.cfg.chunkFrames) :
    exec .step s = .next { s with seqf := true } :=
  accept_of_out_of_sequence hb (decide_eq_false hn.not_lt)

/-- Settles O19: an accepted `STEP` is the next frame, and each channel's Sample there is the clipped value of the
filter as it stood, by whether that value is a NaN. -/
theorem stepComputesTheNextFrame : Obligations.StepComputesTheNextFrame := by
  refine ⟨rfl, ?accepted, fun s => accept_of_busy, fun s => exec_step_of_done⟩
  case accepted =>
    intro s hc hm hb hn
    refine ⟨nextFrame s, exec_step_of_ready hb hn, nextFrame_frame s, (nextFrame_busy s).trans hb, ?number, ?nan,
      nextFrame_nanf_iff hc hm hn, nextFrame_doneBit_iff s, fun f => nextFrame_flag_of_ne_nanf s⟩
    case number =>
      intro ch x hx
      obtain ⟨u, hu⟩ := nextFrame_sample_loadOut hc hm hn ch
      exact hu.trans (clippedSample_of_clip hx u)
    case nan =>
      intro ch hnan
      obtain ⟨u, hu⟩ := nextFrame_sample_loadOut hc hm hn ch
      exact ⟨u.draws, hu.trans (clippedSample_of_isNaN hnan u)⟩

end Sys2Proof.Machine
end

section
/-! PROOFS. The buffer ring: the role map, and what `ADV` and `INIT` do to the ring (42_buffer_ring R160 to R164). -/

namespace Sys2Proof.Machine

/-- No role names the idle slot: it is an output chunk, and the three output roles stand 0, 2 and 3 places after
`O[c]` where it stands 1 place after (42_buffer_ring R162). -/
theorem remap_ne_idleSlot (c : Fin 4) (r : Role) : remap c r ≠ idleSlot c := by
  cases r with
  | currIn | prevIn => exact Slot.noConfusion
  | loadOut | playOut | feedbackOut => revert c; decide

/-- Settles O42: the role map is injective and misses the idle slot, and Samples of two chunks lie apart in memory. -/
theorem rolesAreDistinctChunks : Obligations.RolesAreDistinctChunks :=
  ⟨fun c _ _ hne heq => hne (remap_injective c heq), remap_ne_idleSlot,
    fun s _ _ _ _ v hi hj hne => sample_setSample_ne s v hi hj (.inl hne)⟩

/-- Settles O41: the formulas are the definition of the role map, and the rows of the table are its values. -/
theorem remapIsTheTable : Obligations.RemapIsTheTable :=
  ⟨fun _ => ⟨rfl, rfl, rfl, rfl, rfl, rfl⟩, by decide⟩

/-- `CLIP` leaves `PHASE` alone (40_clipper R108). -/
@[simp] theorem clipEffect_phase (s : State) : (clipEffect s).phase = s.phase := afterClip_phase s _

/-- What a command can do to `PHASE`: nothing, `ADV`'s step on, or `INIT`'s return to 0 (42_buffer_ring R165). -/
theorem phase_of_exec {i : Instr} {s t : State} (h : exec i s = .next t) :
    t.phase = s.phase ∨ (i = .adv ∧ t.phase = s.phase + 1) ∨ (i = .init ∧ t.phase = 0) := by
  rcases exec_cases h with ⟨-, rfl⟩ | ⟨-, rfl⟩ | ⟨-, hi, rfl⟩ | ⟨-, -, -, rfl⟩ | ⟨-, -, -, rfl⟩ | ⟨-, hi, -, rfl⟩ |
    ⟨-, -, rfl⟩
  · exact .inl (raise_phase _ s)
  · exact .inl (raise_phase _ s)
  · exact .inr (.inr ⟨hi, initEffect_phase s⟩)
  · exact .inl (nextFrame_phase s)
  · exact .inl (runEffect_phase s)
  · exact .inr (.inl ⟨hi, advEffect_phase s⟩)
  · exact .inl (clipEffect_phase s)

/-- `PHASE + 1` wraps at 4 (10_state R22). -/
theorem val_phase_succ (c : Fin 4) : (c + 1).val = (c.val + 1) % 4 := Fin.val_add c 1

/-- Outside a run `INIT` takes its effect, whatever `FRAME` is (30_encoding R87). -/
theorem exec_init_of_idle {s : State} (hb : s.busy = false) : exec .init s = .next (initEffect s) :=
  accept_of_ready hb rfl

/-- Settles O16: `INIT` has no sequence condition, so it takes its effect unless a run is in progress; of the other
commands only `ADV` moves `PHASE`, and it reaches 0 from 3 alone. -/
theorem initStartsAStream : Obligations.InitStartsAStream := by
  refine ⟨rfl, ?accepted, fun s => accept_of_busy, rfl, ?onlyInit⟩
  case accepted =>
    intro s hb
    exact ⟨initEffect s, exec_init_of_idle hb, sample_of_empty (initEffect_chunks s), Memory.read_nil, rfl, rfl, rfl,
      by rw [initEffect_phase]; decide⟩
  case onlyInit =>
    intro i s t hexec ht h0 h3
    rcases phase_of_exec hexec with hkept | ⟨-, hnext⟩ | ⟨hinit, -⟩
    · exact absurd (hkept ▸ ht) h0
    · rw [hnext, val_phase_succ] at ht
      omega
    · exact hinit

/-- Outside a run, between two chunks, `ADV` takes its effect (42_buffer_ring R163). -/
theorem exec_adv_of_ready {s : State} (hb : s.busy = false) (hf : s.frame = 0 ∨ s.frame = s.cfg.chunkFrames) :
    exec .adv s = .next (advEffect s) :=
  accept_of_ready hb (by simpa using hf)

/-- Outside a run, in mid-chunk, `ADV` raises `SEQF` and does nothing else (60_exceptions R184). -/
theorem exec_adv_of_midChunk {s : State} (hb : s.busy = false) (h0 : 0 < s.frame)
    (hn : s.frame < s.cfg.chunkFrames) : exec .adv s = .next { s with seqf := true } :=
  accept_of_out_of_sequence hb (by simp [h0.ne', hn.ne])

/-- Four phases on is the same phase (42_buffer_ring R163). -/
theorem phase_add_four (c : Fin 4) : c + 1 + 1 + 1 + 1 = c := by revert c; decide

/-- Settles O17: `ADV` is accepted between two chunks, where its effect moves `PHASE` and `FRAME` alone; four of them
bring `PHASE` back, and the roles with it. -/
theorem advAdvancesThePhase : Obligations.AdvAdvancesThePhase := by
  refine ⟨rfl, ?accepted, fun s => accept_of_busy, fun s => exec_adv_of_midChunk, ?fourTimes, rfl, rfl⟩
  case accepted =>
    intro s hb hf
    exact ⟨advEffect s, exec_adv_of_ready hb hf, val_phase_succ s.phase, rfl, rfl, fun _ => rfl,
      fun hw => doneBit_of_frame_zero hw (advEffect_frame s)⟩
  case fourTimes =>
    intro c r
    rw [phase_add_four]

end Sys2Proof.Machine
end

section
/-! PROOFS. What raises a fault flag and what clears one: an illegal command word, a bad access, and that only a reset
clears (60_exceptions R182, R186, R190). -/

namespace Sys2Proof.Machine

variable {s : State} {a : Access}

/-- Outside a run the issue of an illegal word raises `CMDF` and does nothing else (60_exceptions R182). -/
theorem issue_of_illegal {w : Word} {e : Illegal} (hb : s.busy = false) (he : decode w = .error e) :
    issue w s = .next (raise .cmdf s) := by
  simp only [issue, hb, Bool.false_eq_true, if_false, he]

/-- Settles O3: the access issues the word, the decoder rejects it, and the issue of an illegal word is `CMDF`. -/
theorem illegalWordRaisesOnlyCmdf : Obligations.IllegalWordRaisesOnlyCmdf := by
  intro s w hb hw
  obtain ⟨e, he⟩ : ∃ e, decode w = .error e :=
    (exists_decode_error_iff w).2 fun ⟨i, hi⟩ => hw i hi.symm
  have hb' : (withReply .done s).busy = false := hb
  rw [hostAccess_command, if_neg (Bool.eq_false_iff.1 hb), issue_of_illegal hb' he]
  rfl

/-- Raising a flag clears none (60_exceptions R181). -/
theorem raise_keeps_flag {f : FaultFlag} (g : FaultFlag) (hf : s.flag f = true) : (raise g s).flag f = true := by
  rw [raise_flag, hf, Bool.true_or]

/-- A refused access clears no flag (60_exceptions R181). -/
theorem refuseAccess_keeps_flag {f : FaultFlag} (g : FaultFlag) (hf : s.flag f = true) :
    (refuseAccess g a s).flag f = true := by
  have hraise := raise_keeps_flag g hf
  unfold refuseAccess
  split
  · simpa using hraise
  · split_ifs <;> simpa using hraise

/-- A window write touches no flag (20_memory R53). -/
@[simp] theorem writeWindow_flag (r : Role) (off width : Nat) (v : Word) (s : State) (f : FaultFlag) :
    (writeWindow r off width v s).flag f = s.flag f := by
  unfold writeWindow
  split_ifs <;> simp

/-- `CLIP` clears no flag (40_clipper R108). -/
theorem clipEffect_keeps_flag {f : FaultFlag} (hf : s.flag f = true) : (clipEffect s).flag f = true := by
  cases f <;> simp_all [State.flag, clipEffect]

/-- No command clears a flag (60_exceptions R190). -/
theorem exec_keeps_flag {i : Instr} {t : State} {f : FaultFlag} (h : exec i s = .next t) (hf : s.flag f = true) :
    t.flag f = true := by
  rcases exec_cases h with ⟨-, rfl⟩ | ⟨-, rfl⟩ | ⟨-, -, rfl⟩ | ⟨-, -, -, rfl⟩ | ⟨-, -, -, rfl⟩ | ⟨-, -, -, rfl⟩ |
    ⟨-, -, rfl⟩
  · exact raise_keeps_flag .busyf hf
  · exact raise_keeps_flag .seqf hf
  · exact (initEffect_flag f s).trans hf
  · exact nextFrame_flag s f hf
  · exact (runEffect_flag f s).trans hf
  · exact (advEffect_flag f s).trans hf
  · exact clipEffect_keeps_flag hf

/-- A flag is none of the model's own fields (log 1): a new script leaves it alone. -/
theorem setScript_flag (s : State) (l : List HostStep) (f : FaultFlag) :
    State.flag { s with script := l } f = s.flag f := by cases f <;> rfl

/-- Storing into `CLIPIN` touches no flag (10_state R30). -/
theorem setClipin_flag (s : State) (v : Word) (f : FaultFlag) :
    State.flag { s with clipin := v } f = s.flag f := by cases f <;> rfl

/-- Passing the turn touches no flag. -/
theorem afterTurn_flag (s : State) (f : FaultFlag) : (afterTurn s).flag f = s.flag f := by cases f <;> rfl

/-- No host access clears a flag (60_exceptions R190). -/
theorem hostAccess_keeps_flag {t : State} {f : FaultFlag} (h : hostAccess a s = .next t) (hf : s.flag f = true) :
    t.flag f = true := by
  have hreply (r : Reply) : (withReply r s).flag f = true := (withReply_flag f s r).trans hf
  rcases hostAccess_cases h with rfl | ⟨-, rfl⟩ | ⟨-, v, rfl⟩ | ⟨-, -, off, -, -, rfl⟩ | ⟨-, rfl⟩ | ⟨-, -, -, rfl⟩ |
    ⟨-, -, i, -, hexec⟩
  · exact refuseAccess_keeps_flag .accf hf
  · exact refuseAccess_keeps_flag .busyf hf
  · exact hreply (.value v)
  · simpa using hf
  · exact (setClipin_flag _ a.data f).trans (hreply .done)
  · exact raise_keeps_flag .cmdf (hreply .done)
  · exact exec_keeps_flag hexec (hreply .done)

/-- No step but a reset clears a flag (60_exceptions R190). -/
theorem step_keeps_flag {t : State} {f : FaultFlag} (h : step s = .next t) (hn : nextTurn s ≠ .reset)
    (hf : s.flag f = true) : t.flag f = true := by
  have hturn : (afterTurn s).flag f = true := (afterTurn_flag s f).trans hf
  have hscript (l : List HostStep) : State.flag { afterTurn s with script := l } f = true :=
    (setScript_flag _ l f).trans hturn
  obtain ⟨-, ⟨-, -, rfl⟩ | ⟨-, a, rest, -, hacc⟩ | ⟨-, rest, -, hacc⟩ | ⟨-, rfl⟩ | ⟨hreset, -⟩⟩ := step_cases h
  · exact hturn
  · exact hostAccess_keeps_flag hacc (hscript rest)
  · refine hostAccess_keeps_flag hacc ?_
    split_ifs
    · exact hturn
    · exact hscript rest
  · exact engineStep_flag _ f hturn
  · exact absurd hreset hn

/-- Settles O48: no host access, no engine step and no idle turn clears a flag; the reset event clears all. -/
theorem faultFlagsAreSticky : Obligations.FaultFlagsAreSticky := by
  intro s t f h
  refine ⟨step_keeps_flag h, fun hreset => ?_⟩
  obtain ⟨hw, -⟩ := step_cases h
  rw [step_of_reset_turn hw hreset] at h
  cases h
  exact resetEvent_flag f _

/-- The windows are numbered in the order of their roles (20_memory R51). -/
theorem window_windowRole {k : Nat} (hk : k < 5) : (windowRole k).window = k := by
  interval_cases k <;> rfl

/-- An address of the EFU's range is a byte of a window or of the register block (20_memory R51). -/
theorem addr_cases {c : Config} {addr : Nat} (h : addr < regBase c + 0x100) :
    (∃ r off, off < c.chunkBytes ∧ addr = windowAddr c r off) ∨ ∃ off, off < 0x100 ∧ addr = regBase c + off := by
  rcases Nat.lt_or_ge addr (regBase c) with hwin | hreg
  · have hdiv : addr / c.chunkBytes < 5 := Nat.div_lt_of_lt_mul (by rwa [Nat.mul_comm])
    have hpos : 0 < c.chunkBytes := Nat.pos_of_ne_zero fun h0 => by simp [regBase, h0] at hwin
    refine .inl ⟨windowRole (addr / c.chunkBytes), addr % c.chunkBytes, Nat.mod_lt _ hpos, ?_⟩
    rw [windowAddr, window_windowRole hdiv, Nat.div_add_mod']
  · exact .inr ⟨addr - regBase c, by omega, by omega⟩

/-- Width and alignment do not see a base that is a multiple of 4 (20_memory R55). -/
theorem windowWidthOk_add {base : Nat} (hbase : 4 ∣ base) (width off : Nat) :
    windowWidthOk width (base + off) = windowWidthOk width off := by
  rw [Bool.eq_iff_iff, windowWidthOk_iff, windowWidthOk_iff]
  omega

/-- A window access raises `ACCF` when its width or alignment is wrong, or when it writes a window other than
`CURR_IN` (60_exceptions R186). -/
theorem refusedWith_accf_of_window {r : Role} {off : Nat} (ha : a.addr = windowAddr s.cfg r off)
    (ho : off < s.cfg.chunkBytes) (hbad : windowWidthOk a.width off = false ∨ (a.kind = .write ∧ r ≠ .currIn)) :
    RefusedWith .accf a s := by
  have hp : permitted s.cfg a.kind a.width (.window r off) = false := by
    rcases hbad with hwidth | ⟨hk, hr⟩
    · simp [permitted, hwidth]
    · simp [permitted, hk, hr]
  exact refusedWith_of_eq (hostAccess_of_not_permitted (ha ▸ target_window ho) hp)

/-- An access to the register block raises `ACCF` unless it is 4 bytes wide, at a register, and of a kind that register
allows (60_exceptions R186). -/
theorem refusedWith_accf_of_register {off : Nat} (ha : a.addr = regBase s.cfg + off) (ho : off < 0x100)
    (hbad : a.width = 4 → ∀ r, regAt s.cfg off = some r → r.allows a.kind = false) : RefusedWith .accf a s := by
  have hp : permitted s.cfg a.kind a.width (.register off) = false := by
    by_cases hwidth : a.width = 4
    · cases hr : regAt s.cfg off with
      | none => simp [permitted, hr]
      | some r => simp [permitted, hr, hbad hwidth r hr]
    · simp [permitted, hwidth]
  exact refusedWith_of_eq (hostAccess_of_not_permitted (ha ▸ target_register ho) hp)

/-- An access of a width other than 2 or 4, or misaligned for its width, raises `ACCF` wherever it goes: every window
and the register block begin at a multiple of 4 (60_exceptions R186). -/
theorem refusedWith_accf_of_malformed (hw : s.cfg.wellFormed = true) (hin : a.addr < regBase s.cfg + 0x100)
    (hbad : windowWidthOk a.width a.addr = false) : RefusedWith .accf a s := by
  have hchunk : 4 ∣ s.cfg.chunkBytes := ⟨_, Config.chunkBytes_of_wellFormed hw⟩
  rcases addr_cases hin with ⟨r, off, ho, ha⟩ | ⟨off, ho, ha⟩
  · rw [ha, windowAddr, windowWidthOk_add (hchunk.mul_left _)] at hbad
    exact refusedWith_accf_of_window ha ho (.inl hbad)
  · rw [ha, regBase, windowWidthOk_add (hchunk.mul_left _)] at hbad
    refine refusedWith_accf_of_register ha ho fun h4 r hr => absurd hbad ?_
    obtain ⟨haligned, -⟩ := offset_of_regAt hr
    rw [Bool.not_eq_false, windowWidthOk_iff]
    exact .inr ⟨h4, haligned⟩

/-- The reserved stretches of the register block hold no register (10_state R36). -/
theorem regAt_reserved {c : Config} {off : Nat}
    (h : (0x1C ≤ off ∧ off < 0x40) ∨ (0x40 + 4 * (c.m + 1) ≤ off ∧ off < 0x80)
      ∨ (0x80 + 4 * c.n ≤ off ∧ off < 0xC0) ∨ (0xC0 ≤ off ∧ off < 0x100)) : regAt c off = none := by
  refine Option.eq_none_iff_forall_ne_some.2 fun r hr => ?_
  unfold regAt at hr
  split_ifs at hr <;> omega

/-- The host may write `CMD` and `CLIPIN` and no other register (10_state R35). -/
theorem allows_write_of_readOnly {r : Reg} (hcmd : r ≠ .cmd) (hclipin : r ≠ .clipin) : r.allows .write = false := by
  cases r with
  | cmd => exact absurd rfl hcmd
  | clipin => exact absurd rfl hclipin
  | _ => rfl

/-- Settles O54: a wrong width or alignment is refused everywhere; the other causes are each a register access that the
register block does not admit, or a write of a window other than `CURR_IN`. -/
theorem badAccessRaisesOnlyAccf : Obligations.BadAccessRaisesOnlyAccf := by
  intro s a hw hin
  have hmalformed : ¬((a.width = 2 ∧ a.addr % 2 = 0) ∨ (a.width = 4 ∧ a.addr % 4 = 0)) → RefusedWith .accf a s :=
    fun hbad => refusedWith_accf_of_malformed hw hin (by rwa [← windowWidthOk_iff, Bool.not_eq_true] at hbad)
  refine ⟨?badWidth, ?misaligned, ?halfRegister, ?reserved, ?readOnly, ?readCmd, ?window⟩
  case badWidth => exact fun h2 h4 => hmalformed (by simp [h2, h4])
  case misaligned =>
    rintro (h | h) hmod <;> rw [h] at hmod <;> exact hmalformed (by simp [h, hmod])
  case halfRegister =>
    intro h2 hreg
    exact refusedWith_accf_of_register (off := a.addr - regBase s.cfg) (by omega) (by omega) (by omega)
  case reserved =>
    intro off ha hoff
    refine refusedWith_accf_of_register ha (by omega) fun _ r hr => ?_
    rw [regAt_reserved hoff] at hr
    cases hr
  case readOnly =>
    intro r hk ha hcmd hclipin hr
    refine refusedWith_accf_of_register ha (offset_of_regAt hr).2 fun _ r' hr' => ?_
    obtain rfl : r = r' := Option.some.inj (hr.symm.trans hr')
    rw [hk]
    exact allows_write_of_readOnly hcmd hclipin
  case readCmd =>
    intro hk ha
    refine refusedWith_accf_of_register ha (by decide) fun _ r hr => ?_
    obtain rfl : Reg.cmd = r := Option.some.inj hr
    rw [hk]
    rfl
  case window =>
    intro hk hlo hhi
    rcases addr_cases hin with ⟨r, off, ho, ha⟩ | ⟨off, -, ha⟩
    · refine refusedWith_accf_of_window ha ho (.inr ⟨hk, ?_⟩)
      rintro rfl
      rw [windowAddr, Role.window] at ha
      omega
    · omega

end Sys2Proof.Machine
end

section
/-! PROOFS. `INIT` beside the reset event, and that the configuration outlives both (70_reset_and_hazards R211, R212). -/

namespace Sys2Proof.Machine

variable {s t : State}

/-- Settles O12: outside a run `INIT` takes its effect, whose ring is the reset event's; in a run it is barred, and the
reset event is not. -/
theorem initAndResetCompared : Obligations.InitAndResetCompared := fun s =>
  ⟨fun hb => ⟨initEffect s, exec_init_of_idle hb, rfl, rfl, rfl, rfl, rfl, fun f => initEffect_flag f s⟩,
    accept_of_busy, fun f => resetEvent_flag f s, resetEvent_busy s, resetEvent_clipin s, resetEvent_clipout s,
    sample_of_empty (resetEvent_chunks s), resetEvent_phase s, resetEvent_frame s⟩

/-- `CLIP` leaves the configuration alone (40_clipper R108). -/
@[simp] theorem clipEffect_cfg (s : State) : (clipEffect s).cfg = s.cfg := afterClip_cfg s _

/-- A refused access leaves the configuration alone (60_exceptions R181). -/
@[simp] theorem refuseAccess_cfg (f : FaultFlag) (a : Access) (s : State) : (refuseAccess f a s).cfg = s.cfg := by
  unfold refuseAccess
  split
  · simp
  · split_ifs <;> simp

/-- A window write leaves the configuration alone (20_memory R53). -/
@[simp] theorem writeWindow_cfg (r : Role) (off width : Nat) (v : Word) (s : State) :
    (writeWindow r off width v s).cfg = s.cfg := by
  unfold writeWindow
  split_ifs <;> simp

/-- No command, accepted or refused, changes the configuration (70_reset_and_hazards R212). -/
theorem exec_keeps_cfg {i : Instr} (h : exec i s = .next t) : t.cfg = s.cfg := by
  rcases exec_cases h with ⟨-, rfl⟩ | ⟨-, rfl⟩ | ⟨-, -, rfl⟩ | ⟨-, -, -, rfl⟩ | ⟨-, -, -, rfl⟩ | ⟨-, -, -, rfl⟩ |
    ⟨-, -, rfl⟩
  · exact raise_cfg .busyf s
  · exact raise_cfg .seqf s
  · exact initEffect_cfg s
  · exact nextFrame_cfg s
  · exact runEffect_cfg s
  · exact advEffect_cfg s
  · exact clipEffect_cfg s

/-- No host access changes the configuration: the coefficient registers are read-only, and a command keeps it
(70_reset_and_hazards R212). -/
theorem hostAccess_keeps_cfg {a : Access} (h : hostAccess a s = .next t) : t.cfg = s.cfg := by
  rcases hostAccess_cases h with rfl | ⟨-, rfl⟩ | ⟨-, v, rfl⟩ | ⟨-, -, off, -, -, rfl⟩ | ⟨-, rfl⟩ | ⟨-, -, -, rfl⟩ |
    ⟨-, -, i, -, hexec⟩
  · exact refuseAccess_cfg .accf a s
  · exact refuseAccess_cfg .busyf a s
  · exact withReply_cfg s (.value v)
  · exact writeWindow_cfg .currIn off a.width a.data s
  · exact withReply_cfg s .done
  · exact raise_cfg .cmdf (withReply .done s)
  · exact (exec_keeps_cfg hexec).trans (withReply_cfg s .done)

/-- Settles O50: a host access, an engine step and the reset event each leave the configuration alone, and passing the
turn does. -/
theorem noStepChangesTheConfiguration : Obligations.NoStepChangesTheConfiguration := by
  intro s t h
  obtain ⟨-, ⟨-, -, rfl⟩ | ⟨-, a, rest, -, hacc⟩ | ⟨-, rest, -, hacc⟩ | ⟨-, rfl⟩ | ⟨-, rfl⟩⟩ := step_cases h
  · exact afterTurn_cfg s
  · exact (hostAccess_keeps_cfg hacc).trans (afterTurn_cfg s)
  · have hcfg := hostAccess_keeps_cfg hacc
    split_ifs at hcfg <;> exact hcfg
  · exact engineStep_cfg (afterTurn s)
  · exact resetEvent_cfg (afterTurn s)

end Sys2Proof.Machine
end

section
/-! PROOFS. What a step can do to the ring: the invariant, and who moves `PHASE`, `FRAME` and the chunks
(10_state R22, R24, R26, R33; 42_buffer_ring R165). -/

namespace Sys2Proof.Machine

variable {s t u : State} {a : Access}

/-- The configuration of a state with the invariant is an allowed one (00_scope R8). -/
theorem State.Inv.wellFormed (hi : s.Inv) : s.cfg.wellFormed = true := hi.1

/-- A run in progress has a frame left (10_state R26). -/
theorem State.Inv.frame_lt (hi : s.Inv) (hb : s.busy = true) : s.frame < s.cfg.chunkFrames := by
  obtain ⟨-, -, hleft, -, -⟩ := hi
  exact hleft hb

/-! ## States with the same ring -/

/-- The two states agree on the ring: on `PHASE`, `FRAME`, `BUSY`, the chunks and the configuration. What lies
outside it are the fault flags, the clipper registers and the model's own fields. -/
structure SameRing (s t : State) : Prop where
  phase : t.phase = s.phase
  frame : t.frame = s.frame
  busy : t.busy = s.busy
  chunks : t.chunks = s.chunks
  cfg : t.cfg = s.cfg

theorem SameRing.trans (h : SameRing s t) (h' : SameRing t u) : SameRing s u :=
  ⟨h'.phase.trans h.phase, h'.frame.trans h.frame, h'.busy.trans h.busy, h'.chunks.trans h.chunks, h'.cfg.trans h.cfg⟩

theorem SameRing.sample (h : SameRing s t) (sl : Slot) (i : Nat) : t.sample sl i = s.sample sl i :=
  sample_congr h.chunks h.cfg sl i

/-- The invariant speaks of the ring alone. -/
theorem SameRing.inv (h : SameRing s t) (hi : s.Inv) : t.Inv := by
  unfold State.Inv
  rw [h.cfg, h.frame, h.busy, h.chunks]
  exact hi

theorem sameRing_raise (f : FaultFlag) (s : State) : SameRing s (raise f s) := by
  constructor <;> simp

theorem sameRing_withReply (r : Reply) (s : State) : SameRing s (withReply r s) := ⟨rfl, rfl, rfl, rfl, rfl⟩

/-- A refused access leaves the ring alone (60_exceptions R181). -/
theorem sameRing_refuseAccess (f : FaultFlag) (a : Access) (s : State) : SameRing s (refuseAccess f a s) := by
  unfold refuseAccess
  split
  · constructor <;> simp
  · split_ifs <;> constructor <;> simp

theorem sameRing_clipEffect (s : State) : SameRing s (clipEffect s) := by
  constructor <;> simp [clipEffect]

theorem sameRing_afterTurn (s : State) : SameRing s (afterTurn s) := ⟨rfl, rfl, rfl, rfl, rfl⟩

/-- The schedule and the script are outside the ring. -/
theorem sameRing_setScript (s : State) (l : List HostStep) : SameRing s { afterTurn s with script := l } :=
  ⟨rfl, rfl, rfl, rfl, rfl⟩

/-! ## What an access, a command and a step can do to the ring -/

/-- The word of an accepted command is its own (30_encoding R81). -/
theorem eq_commandAccess_encode {c : Config} {i : Instr} (ha : a = commandAccess c a.data)
    (hd : decode a.data = .ok i) : a = commandAccess c (encode i) := by
  rw [(decode_eq_ok_iff a.data i).1 hd] at ha
  exact ha

/-- A host access leaves the ring alone, writes `CURR_IN` outside a run, or issues a command outside a run
(20_memory R57, R59). -/
theorem hostAccess_ring (h : hostAccess a s = .next u) :
    SameRing s u
      ∨ (s.busy = false ∧ a.kind = .write ∧ ∃ off, off < s.cfg.chunkBytes ∧ windowWidthOk a.width off = true
          ∧ SameRing (writeWindow .currIn off a.width a.data s) u)
      ∨ (s.busy = false ∧ ∃ i, a = commandAccess s.cfg (encode i) ∧ exec i (withReply .done s) = .next u) := by
  rcases hostAccess_cases h with rfl | ⟨-, rfl⟩ | ⟨-, v, rfl⟩ | ⟨hk, hb, off, ho, hw, rfl⟩ | ⟨-, rfl⟩ | ⟨-, -, -, rfl⟩ |
    ⟨ha, hb, i, hd, hexec⟩
  · exact .inl (sameRing_refuseAccess .accf a s)
  · exact .inl (sameRing_refuseAccess .busyf a s)
  · exact .inl (sameRing_withReply (.value v) s)
  · exact .inr (.inl ⟨hb, hk, off, ho, hw, sameRing_withReply .done _⟩)
  · exact .inl ⟨rfl, rfl, rfl, rfl, rfl⟩
  · exact .inl ((sameRing_withReply .done s).trans (sameRing_raise .cmdf _))
  · exact .inr (.inr ⟨hb, i, eq_commandAccess_encode ha hd, hexec⟩)

/-- A poll of `STATUS` answers with the word and changes nothing else, in every state (20_memory R56). -/
theorem hostAccess_pollAccess (s : State) :
    hostAccess (pollAccess s.cfg) s = .next { s with reply := .value s.statusWord } :=
  hostAccess_readReg (r := .status) rfl rfl

/-- A step leaves the ring alone, or is the host's write of `CURR_IN`, the host's issue of a command, an engine step
of a run, or a reset (00_scope R12). -/
theorem step_ring (h : step s = .next t) :
    SameRing s t
      ∨ (nextTurn s = .host ∧ s.busy = false ∧ ∃ u off width v, SameRing s u ∧ off < s.cfg.chunkBytes
          ∧ windowWidthOk width off = true ∧ SameRing (writeWindow .currIn off width v u) t)
      ∨ (∃ i u, IssuesCommand i s ∧ SameRing s u ∧ exec i u = .next t)
      ∨ (nextTurn s = .engine ∧ s.busy = true ∧ t = engineStep (afterTurn s))
      ∨ (nextTurn s = .reset ∧ t = resetEvent (afterTurn s)) := by
  obtain ⟨-, ⟨-, -, rfl⟩ | ⟨hn, a, rest, hs, hacc⟩ | ⟨-, rest, -, hpoll⟩ | ⟨hn, rfl⟩ | hreset⟩ := step_cases h
  · exact .inl (sameRing_afterTurn s)
  · have hscript := sameRing_setScript s rest
    rcases hostAccess_ring hacc with hsame | ⟨hb, -, off, ho, hw, hsame⟩ | ⟨hb, i, ha, hexec⟩
    · exact .inl (hscript.trans hsame)
    · exact .inr (.inl ⟨hn, hb, _, off, a.width, a.data, hscript, ho, hw, hsame⟩)
    · exact .inr (.inr (.inl ⟨i, _, ⟨hn, hb, rest, ha ▸ hs⟩, hscript.trans (sameRing_withReply .done _), hexec⟩))
  · have hsame : SameRing s (if s.busy then afterTurn s else { afterTurn s with script := rest }) := by
      split_ifs
      · exact sameRing_afterTurn s
      · exact sameRing_setScript s rest
    rw [← hsame.cfg, hostAccess_pollAccess] at hpoll
    cases hpoll
    exact .inl (hsame.trans (sameRing_withReply _ _))
  · cases hb : s.busy with
    | true => exact .inr (.inr (.inr (.inl ⟨hn, rfl, rfl⟩)))
    | false =>
      rw [engineStep_of_idle (afterTurn s) hb]
      exact .inl (sameRing_afterTurn s)
  · exact .inr (.inr (.inr (.inr hreset)))

/-! ## The invariant -/

/-- The Sample of a window offset lies in the chunk (20_memory R53). -/
theorem windowIndex_lt {c : Config} {off : Nat} (ho : off < c.chunkBytes) : windowIndex off < c.bufferSize := by
  rw [chunkBytes_eq] at ho
  exact Nat.div_lt_of_lt_mul ho

/-- The second Sample of a 32-bit window access lies in the chunk too: a chunk is whole frames (20_memory R55). -/
theorem windowIndex_succ_lt {c : Config} (hc : c.wellFormed = true) {off : Nat} (ho : off < c.chunkBytes)
    (hw : windowWidthOk 4 off = true) : windowIndex off + 1 < c.bufferSize := by
  have haligned : off % 4 = 0 := by simpa [windowWidthOk_iff] using hw
  have hbytes := Config.chunkBytes_of_wellFormed hc
  have hsize := (Config.bufferSize_eq hc).1
  have hindex : windowIndex off = off / 2 := rfl
  omega

/-- Writing a Sample of a chunk keeps the invariant. -/
theorem setSample_inv (hi : s.Inv) (sl : Slot) {i : Nat} (hlt : i < s.cfg.bufferSize) (v : Sample) :
    (s.setSample sl i v).Inv := by
  obtain ⟨hc, hf, hb, hm, hin⟩ := hi
  exact ⟨hc, hf, hb, writeSampleAt_wf _ _ _ hm, writeSampleAt_inChunks _ _ _ _ hin (sampleAddr_lt _ _ _ hlt)⟩

/-- A window write keeps the invariant. -/
theorem writeWindow_inv (hi : s.Inv) (r : Role) {off width : Nat} (ho : off < s.cfg.chunkBytes)
    (hw : windowWidthOk width off = true) (v : Word) : (writeWindow r off width v s).Inv := by
  unfold writeWindow
  split_ifs with h4
  · subst h4
    exact setSample_inv (setSample_inv hi _ (windowIndex_lt ho) _) _ (windowIndex_succ_lt hi.wellFormed ho hw) _
  · exact setSample_inv hi _ (windowIndex_lt ho) _

/-- Outside a run, the next frame keeps the invariant while one is left. -/
theorem nextFrame_inv (hi : s.Inv) (hb : s.busy = false) (hn : s.frame < s.cfg.chunkFrames) : (nextFrame s).Inv := by
  obtain ⟨hc, -, -, hm, hin⟩ := hi
  refine ⟨by simpa using hc, by simpa using hn, by simp [hb], computeFrame_wf _ _ hm, ?_⟩
  simpa using computeFrame_inChunks _ _ hn hin

/-- Every command keeps the invariant. -/
theorem exec_inv {i : Instr} (h : exec i s = .next t) (hi : s.Inv) : t.Inv := by
  rcases exec_cases h with ⟨-, rfl⟩ | ⟨-, rfl⟩ | ⟨hb, -, rfl⟩ | ⟨hb, -, hn, rfl⟩ | ⟨-, -, hn, rfl⟩ | ⟨hb, -, -, rfl⟩ |
    ⟨-, -, rfl⟩
  · exact (sameRing_raise .busyf s).inv hi
  · exact (sameRing_raise .seqf s).inv hi
  · exact ⟨hi.wellFormed, Nat.zero_le _, by simp [hb], rfl, rfl⟩
  · exact nextFrame_inv hi hb hn
  · obtain ⟨hc, hf, -, hm, hin⟩ := hi
    exact ⟨hc, hf, fun _ => hn, hm, hin⟩
  · obtain ⟨hc, -, -, hm, hin⟩ := hi
    exact ⟨hc, Nat.zero_le _, by simp [hb], hm, hin⟩
  · exact (sameRing_clipEffect s).inv hi

/-- An engine step keeps the invariant: it ends the run exactly when no frame is left (41_echo_filter R136). -/
theorem engineStep_inv (hi : s.Inv) : (engineStep s).Inv := by
  cases hb : s.busy with
  | false => rwa [engineStep_of_idle _ hb]
  | true =>
    obtain ⟨hc, -, hleft, hm, hin⟩ := hi
    have hn : s.frame < s.cfg.chunkFrames := hleft hb
    rw [engineStep_of_busy _ hb]
    refine ⟨by simpa using hc, by simpa using hn, fun hbusy => ?_, computeFrame_wf _ _ hm, ?_⟩
    · have hne : s.frame + 1 ≠ s.cfg.chunkFrames := by simpa using hbusy
      simpa using Nat.lt_of_le_of_ne hn hne
    · simpa using computeFrame_inChunks _ _ hn hin

/-- The reset event gives a state with the invariant in every allowed configuration (10_state R37). -/
theorem resetEvent_inv (hc : s.cfg.wellFormed = true) : (resetEvent s).Inv :=
  ⟨hc, Nat.zero_le _, Bool.noConfusion, rfl, rfl⟩

/-- Settles O14: what a step can do to the ring is one of five things, each of which keeps the invariant. -/
theorem everyStepKeepsTheInvariant : Obligations.EveryStepKeepsTheInvariant := by
  intro s t hi h
  rcases step_ring h with hsame | ⟨-, -, u, off, width, v, hu, ho, hw, hsame⟩ | ⟨i, u, -, hu, hexec⟩ | ⟨-, -, rfl⟩ |
    ⟨-, rfl⟩
  · exact hsame.inv hi
  · exact hsame.inv (writeWindow_inv (hu.inv hi) .currIn (hu.cfg ▸ ho) hw v)
  · exact exec_inv hexec (hu.inv hi)
  · exact engineStep_inv ((sameRing_afterTurn s).inv hi)
  · exact resetEvent_inv hi.wellFormed

/-- Settles O13: `State.reset` is a reset event in the reference configuration. -/
theorem invariantHoldsAtReset : Obligations.InvariantHoldsAtReset :=
  resetEvent_inv (s := State.reset) (by decide)

/-- The invariant holds in every state a run can reach. -/
theorem Reachable.inv (h : Reachable s) : s.Inv := by
  induction h with
  | start c script turns hc => exact resetEvent_inv (s := { State.reset with cfg := c }) hc
  | next s t _ hstep ih => exact everyStepKeepsTheInvariant s t ih hstep

/-- Settles O15: it is a clause of the invariant. -/
theorem reachableBusyHasAFrameLeft : Obligations.ReachableBusyHasAFrameLeft := by
  intro s hs
  exact hs.inv.frame_lt

/-! ## Who moves `PHASE` and `FRAME` -/

/-- What a command can do to `FRAME`: nothing, `STEP`'s advance, or the return to 0 by `INIT` or `ADV`
(10_state R24). -/
theorem frame_of_exec {i : Instr} (h : exec i s = .next t) :
    t.frame = s.frame ∨ (i = .step ∧ s.frame < s.cfg.chunkFrames ∧ t.frame = s.frame + 1)
      ∨ ((i = .init ∨ i = .adv) ∧ t.frame = 0) := by
  rcases exec_cases h with ⟨-, rfl⟩ | ⟨-, rfl⟩ | ⟨-, hi, rfl⟩ | ⟨-, hi, hn, rfl⟩ | ⟨-, -, -, rfl⟩ | ⟨-, hi, -, rfl⟩ |
    ⟨-, -, rfl⟩
  · exact .inl (raise_frame _ s)
  · exact .inl (raise_frame _ s)
  · exact .inr (.inr ⟨.inl hi, initEffect_frame s⟩)
  · exact .inr (.inl ⟨hi, hn, nextFrame_frame s⟩)
  · exact .inl (runEffect_frame s)
  · exact .inr (.inr ⟨.inr hi, advEffect_frame s⟩)
  · exact .inl (sameRing_clipEffect s).frame

/-- A window write leaves the ring's counters alone. -/
theorem writeWindow_counters (r : Role) (off width : Nat) (v : Word) (s : State) :
    (writeWindow r off width v s).phase = s.phase ∧ (writeWindow r off width v s).frame = s.frame
      ∧ (writeWindow r off width v s).busy = s.busy := by
  unfold writeWindow
  split_ifs <;> exact ⟨rfl, rfl, rfl⟩

/-- Settles O46: of the things a step can do only a command and a reset move `PHASE`, and of the commands only `ADV`
and `INIT`. -/
theorem phaseOnlyAdvancesOrReturnsToZero : Obligations.PhaseOnlyAdvancesOrReturnsToZero := by
  intro s t h
  rcases step_ring h with hsame | ⟨-, -, u, off, width, v, hu, -, -, hsame⟩ | ⟨i, u, hissue, hu, hexec⟩ | ⟨-, -, rfl⟩ |
    ⟨hn, rfl⟩
  · exact .inl hsame.phase
  · obtain ⟨hphase, -, -⟩ := writeWindow_counters .currIn off width v u
    exact .inl (hsame.phase.trans (hphase.trans hu.phase))
  · rcases phase_of_exec hexec with hkept | ⟨rfl, hnext⟩ | ⟨rfl, hzero⟩
    · exact .inl (hkept.trans hu.phase)
    · exact .inr (.inl ⟨by rw [hnext, hu.phase, val_phase_succ], hissue⟩)
    · exact .inr (.inr ⟨by rw [hzero]; rfl, .inr hissue⟩)
  · exact .inl (engineStep_phase _)
  · exact .inr (.inr ⟨rfl, .inl hn⟩)

/-- A step of a running engine advances `FRAME` by one (41_echo_filter R136). -/
theorem engineStep_frame_of_busy (hb : s.busy = true) : (engineStep s).frame = s.frame + 1 := by
  rw [engineStep_of_busy _ hb]
  rfl

/-- Settles O47: a frame is computed by a step of a run, which has one left by the invariant, or by `STEP`. -/
theorem frameOnlyAdvancesOrReturnsToZero : Obligations.FrameOnlyAdvancesOrReturnsToZero := by
  intro s t hi h
  rcases step_ring h with hsame | ⟨-, -, u, off, width, v, hu, -, -, hsame⟩ | ⟨i, u, hissue, hu, hexec⟩ |
    ⟨hn, hb, rfl⟩ | ⟨hn, rfl⟩
  · exact .inl hsame.frame
  · obtain ⟨-, hframe, -⟩ := writeWindow_counters .currIn off width v u
    exact .inl (hsame.frame.trans (hframe.trans hu.frame))
  · rcases frame_of_exec hexec with hkept | ⟨rfl, hlt, hnext⟩ | ⟨hi', hzero⟩
    · exact .inl (hkept.trans hu.frame)
    · rw [hu.frame, hu.cfg] at hlt
      rw [hu.frame] at hnext
      exact .inr (.inl ⟨hnext, hlt, .inr hissue⟩)
    · refine .inr (.inr ⟨hzero, .inr ?_⟩)
      rcases hi' with rfl | rfl
      · exact .inl hissue
      · exact .inr hissue
  · exact .inr (.inl ⟨engineStep_frame_of_busy hb, hi.frame_lt hb, .inl ⟨hn, hb⟩⟩)
  · exact .inr (.inr ⟨rfl, .inl hn⟩)

/-! ## Who writes the chunks -/

/-- A window write stores into the role's chunk alone (20_memory R53). -/
theorem writeWindow_sample_of_ne_slot (hc : s.cfg.wellFormed = true) {r : Role} {off width : Nat}
    (ho : off < s.cfg.chunkBytes) (hw : windowWidthOk width off = true) (v : Word) {sl : Slot}
    (hsl : sl ≠ remap s.phase r) {i : Nat} (hi : i < s.cfg.bufferSize) :
    (writeWindow r off width v s).sample sl i = s.sample sl i := by
  unfold writeWindow
  split_ifs with h4
  · subst h4
    rw [sample_setSample_ne (s.setSample _ _ _) _ (windowIndex_succ_lt hc ho hw) hi (.inl hsl.symm),
      sample_setSample_ne s _ (windowIndex_lt ho) hi (.inl hsl.symm)]
  · exact sample_setSample_ne _ _ (windowIndex_lt ho) hi (.inl hsl.symm)

/-- The next frame stores the two Samples of frame `FRAME` of `load_out` and no other (41_echo_filter R129). -/
theorem nextFrame_sample_ne (hc : s.cfg.wellFormed = true) (hm : Memory.wf s.chunks = true)
    (hn : s.frame < s.cfg.chunkFrames) {sl : Slot} {i : Nat} (hi : i < s.cfg.bufferSize)
    (h : sl ≠ remap s.phase .loadOut ∨ (i ≠ 2 * s.frame ∧ i ≠ 2 * s.frame + 1)) :
    (nextFrame s).sample sl i = s.sample sl i := by
  refine (computeFrame_sample hc hm hn sl i hi).trans ?_
  rw [if_neg (by tauto), if_neg (by tauto)]

/-- An engine step stores what the next frame stores (41_echo_filter R136). -/
theorem engineStep_sample_of_busy (hb : s.busy = true) (sl : Slot) (i : Nat) :
    (engineStep s).sample sl i = (nextFrame s).sample sl i := by
  rw [engineStep_of_busy _ hb]
  rfl

/-- `curr_in` is an input chunk and `load_out` an output chunk (42_buffer_ring R160). -/
theorem remap_currIn_ne_loadOut (c : Fin 4) : remap c .currIn ≠ remap c .loadOut := Slot.noConfusion

/-- The clauses of R33 on Sample `i`: what a step from `s` to `t` may change of the chunks. -/
def OwnerWritesAt (s t : State) (i : Nat) : Prop :=
  (∀ sl, sl ≠ remap s.phase .currIn → sl ≠ remap s.phase .loadOut → t.sample sl i = s.sample sl i)
    ∧ (i ≠ 2 * s.frame → i ≠ 2 * s.frame + 1 →
        t.sample (remap s.phase .loadOut) i = s.sample (remap s.phase .loadOut) i)
    ∧ (t.frame = s.frame → t.sample (remap s.phase .loadOut) i = s.sample (remap s.phase .loadOut) i)
    ∧ (nextTurn s ≠ .host ∨ s.busy = true →
        t.sample (remap s.phase .currIn) i = s.sample (remap s.phase .currIn) i)

/-- A step that changes no Sample keeps to R33. -/
theorem OwnerWritesAt.of_unchanged {i : Nat} (h : ∀ sl, t.sample sl i = s.sample sl i) : OwnerWritesAt s t i :=
  ⟨fun sl _ _ => h sl, fun _ _ => h _, fun _ => h _, fun _ => h _⟩

/-- The computation of the frame at `FRAME` keeps to R33. -/
theorem OwnerWritesAt.of_frame {i : Nat} (hframe : t.frame = s.frame + 1)
    (h : ∀ sl, sl ≠ remap s.phase .loadOut ∨ (i ≠ 2 * s.frame ∧ i ≠ 2 * s.frame + 1) →
      t.sample sl i = s.sample sl i) : OwnerWritesAt s t i :=
  ⟨fun sl _ hl => h sl (.inl hl), fun h0 h1 => h _ (.inr ⟨h0, h1⟩), fun hkept => by omega,
    fun _ => h _ (.inl (remap_currIn_ne_loadOut s.phase))⟩

/-- A command other than `INIT` keeps to R33: only `STEP` stores (42_buffer_ring R163). -/
theorem OwnerWritesAt.of_exec {j : Instr} (hinv : s.Inv) (hexec : exec j s = .next t) (hj : j ≠ .init) {i : Nat}
    (hi : i < s.cfg.bufferSize) : OwnerWritesAt s t i := by
  obtain ⟨hc, -, -, hm, -⟩ := hinv
  rcases exec_cases hexec with ⟨-, rfl⟩ | ⟨-, rfl⟩ | ⟨-, hinit, -⟩ | ⟨-, -, hn, rfl⟩ | ⟨-, -, -, rfl⟩ | ⟨-, -, -, rfl⟩ |
    ⟨-, -, rfl⟩
  · exact .of_unchanged fun sl => (sameRing_raise .busyf s).sample sl i
  · exact .of_unchanged fun sl => (sameRing_raise .seqf s).sample sl i
  · exact absurd hinit hj
  · exact .of_frame (nextFrame_frame s) fun sl => nextFrame_sample_ne hc hm hn hi
  · exact .of_unchanged fun _ => rfl
  · exact .of_unchanged fun _ => rfl
  · exact .of_unchanged fun sl => (sameRing_clipEffect s).sample sl i

/-- Settles O51: the host writes `curr_in` outside a run, a `STEP` or an engine step the frame at `FRAME` of
`load_out`, and nothing else but `INIT` and reset writes a chunk. -/
theorem onlyTheOwnerWritesAChunk : Obligations.OnlyTheOwnerWritesAChunk := by
  intro s t hinv h hreset hinit i hi
  have ⟨hc, _, hleft, hm, _⟩ := hinv
  rcases step_ring h with hsame | ⟨hn, hb, u, off, width, v, hu, ho, hw, hsame⟩ | ⟨j, u, hissue, hu, hexec⟩ |
    ⟨-, hb, rfl⟩ | ⟨hn, -⟩
  · exact OwnerWritesAt.of_unchanged fun sl => hsame.sample sl i
  · have hother : ∀ sl, sl ≠ remap s.phase .currIn → t.sample sl i = s.sample sl i := fun sl hsl => by
      rw [hsame.sample, writeWindow_sample_of_ne_slot (hu.cfg ▸ hc) (hu.cfg ▸ ho) hw v (hu.phase ▸ hsl) (hu.cfg ▸ hi),
        hu.sample]
    have hload := hother _ (remap_currIn_ne_loadOut s.phase).symm
    exact ⟨fun sl hsl _ => hother sl hsl, fun _ _ => hload, fun _ => hload, by simp [hn, hb]⟩
  · have hj : j ≠ .init := fun heq => hinit (heq ▸ hissue)
    have howner : OwnerWritesAt u t i := .of_exec (hu.inv hinv) hexec hj (hu.cfg ▸ hi)
    simp only [OwnerWritesAt, hu.phase, hu.frame, hu.sample] at howner
    obtain ⟨hother, hframe, hkept, -⟩ := howner
    obtain ⟨hn, hb, -⟩ := hissue
    exact ⟨hother, hframe, hkept, by simp [hn, hb]⟩
  · refine OwnerWritesAt.of_frame (engineStep_frame_of_busy hb) fun sl hne => ?_
    calc (engineStep (afterTurn s)).sample sl i
        = (nextFrame (afterTurn s)).sample sl i := engineStep_sample_of_busy (s := afterTurn s) hb sl i
      _ = (afterTurn s).sample sl i := nextFrame_sample_ne (s := afterTurn s) hc hm (hleft hb) hi hne
      _ = s.sample sl i := (sameRing_afterTurn s).sample sl i
  · exact absurd hn hreset

end Sys2Proof.Machine
end

section
/-! PROOFS. Whose turn a step is, what a host turn does, and when a step answers (00_scope R12, R13;
30_encoding R86). -/

namespace Sys2Proof.Machine

variable {s : State} {a : Access}

/-- A host turn is the host's next step (00_scope R12). -/
theorem step_of_host_turn (hw : s.cfg.wellFormed = true) (hn : nextTurn s = .host) :
    step s = hostTurn (afterTurn s) := by
  simp only [step, takeTurn, hw, if_true, hn, afterTurn]

/-- An engine turn is one engine step (41_echo_filter R136). -/
theorem step_of_engine_turn (hw : s.cfg.wellFormed = true) (hn : nextTurn s = .engine) :
    step s = .next (engineStep (afterTurn s)) := by
  simp only [step, takeTurn, hw, if_true, hn, afterTurn]

/-- The host's next step is the access at the head of its script (30_encoding R85). -/
theorem hostTurn_access {rest : List HostStep} (hs : s.script = .access a :: rest) :
    hostTurn s = hostAccess a { s with script := rest } := by
  simp only [hostTurn, hs]

/-- `WAIT` is one read of `STATUS`, and stays in the script while `BUSY` reads 1 (30_encoding R86). -/
theorem hostTurn_wait {rest : List HostStep} (hs : s.script = .wait :: rest) :
    hostTurn s
      = .next { s with reply := .value s.statusWord, script := if s.busy = true then s.script else rest } := by
  have hpoll : hostTurn s = hostAccess (pollAccess s.cfg) (if s.busy then s else { s with script := rest }) := by
    simp only [hostTurn, hs]
  rw [hpoll]
  split_ifs
  · exact hostAccess_pollAccess s
  · exact hostAccess_pollAccess { s with script := rest }

/-- A host with an empty script does nothing (log 20). -/
theorem hostTurn_idle (hs : s.script = []) : hostTurn s = .next s := by
  simp only [hostTurn, hs]

/-- The head of the schedule moves next (log 4). -/
theorem nextTurn_cons {t : Turn} {ts : List Turn} (h : s.turns = t :: ts) : nextTurn s = t := by
  simp only [nextTurn, h]

/-- With no turn listed a running engine moves, and otherwise the host (log 4). -/
theorem nextTurn_nil (h : s.turns = []) : nextTurn s = if s.busy then .engine else .host := by
  simp only [nextTurn, h]

/-- Settles O5: a step is the turn's own law, and the turn is read off the schedule. -/
theorem turnsGoToTheScheduledAgent : Obligations.TurnsGoToTheScheduledAgent := by
  refine ⟨?access, fun s => step_of_engine_turn, ?idle, fun s t ts => nextTurn_cons, ?running, ?waiting⟩
  case access =>
    intro s a rest hw hn hs
    rw [step_of_host_turn hw hn]
    exact hostTurn_access hs
  case idle =>
    intro s hw hn hs
    rw [step_of_host_turn hw hn]
    exact hostTurn_idle hs
  case running =>
    intro s hs hb
    rw [nextTurn_nil hs, if_pos hb]
  case waiting =>
    intro s hs hb
    rw [nextTurn_nil hs, hb]
    rfl

/-- Settles O6: the poll is a read of `STATUS`, which answers in every state. -/
theorem waitPollsStatusUntilIdle : Obligations.WaitPollsStatusUntilIdle := by
  intro s rest hw hn hs
  rw [step_of_host_turn hw hn]
  exact hostTurn_wait (s := afterTurn s) hs

/-- Settles O7: reset, the engine and `WAIT` always answer, and an access does inside the EFU's range. -/
theorem everyStepCompletes : Obligations.EveryStepCompletes := by
  intro s hw hrange
  cases hn : nextTurn s with
  | engine => exact ⟨_, step_of_engine_turn hw hn⟩
  | reset => exact ⟨_, step_of_reset_turn hw hn⟩
  | host =>
    rw [step_of_host_turn hw hn]
    cases hs : s.script with
    | nil => exact ⟨_, hostTurn_idle (s := afterTurn s) hs⟩
    | cons x rest =>
      cases x with
      | wait => exact ⟨_, hostTurn_wait (s := afterTurn s) hs⟩
      | access a =>
        rw [hostTurn_access (s := afterTurn s) hs]
        exact hostAccess_next (hrange a rest hs)

/-- Settles O9: such an address is above the register block, so it has no target. -/
theorem accessOutsideTheRangeFaults : Obligations.AccessOutsideTheRangeFaults := by
  intro a s ha
  have hbase : regBase s.cfg = 5 * s.cfg.chunkBytes := rfl
  have htarget : target s.cfg a.addr = none := by
    unfold target regBlockBytes
    rw [if_neg (by omega), if_neg (by omega)]
  simp only [hostAccess, htarget]

/-! ## Commands issued by a step -/

/-- During a run every command raises `BUSYF` and does nothing else (60_exceptions R183). -/
theorem exec_of_busy (i : Instr) (hb : s.busy = true) : exec i s = .next (raise .busyf s) := by
  cases i with
  | init | step | run | adv | clip => exact accept_of_busy hb

/-- A write to `CMD` of a command's word is that command, with the write answered (30_encoding R87): the issue's
own check of `BUSY` and the command's agree. -/
theorem hostAccess_command_of_decode {w : Word} {i : Instr} (hd : decode w = .ok i) :
    hostAccess (commandAccess s.cfg w) s = exec i (withReply .done s) := by
  rw [hostAccess_command]
  cases hb : s.busy with
  | true => exact (exec_of_busy i (s := withReply .done s) hb).symm
  | false => simp only [issue, withReply_busy, hb, hd, Bool.false_eq_true, if_false]

/-- Placing a word depends on its low 32 bits alone, and a word below 2^32 is its own (log 5). -/
theorem withFetchWord_eq (s : State) (w : Nat) : s.withFetchWord 32 w = placeCommand s (BitVec.ofNat 32 w) := by
  have hword : BitVec.ofNat 32 (w % 2 ^ 32) = BitVec.ofNat 32 w := BitVec.eq_of_toNat_eq (by simp)
  rw [State.withFetchWord, hword]

/-- Settles O4: the host turn is the access at the head of the script, and the access is the decoded command. -/
theorem stepRunsTheDecodedCommand : Obligations.StepRunsTheDecodedCommand := by
  have hstep : ∀ (s : State) (w : Word) (i : Instr) (rest : List HostStep), s.cfg.wellFormed = true →
      nextTurn s = .host → s.script = .access (commandAccess s.cfg w) :: rest → decode w = .ok i →
      step s = exec i { s with turns := s.turns.tail, script := rest, reply := .done } := by
    intro s w i rest hw hn hs hd
    rw [step_of_host_turn hw hn, hostTurn_access (s := afterTurn s) hs]
    exact hostAccess_command_of_decode (s := { afterTurn s with script := rest }) hd
  refine ⟨hstep, fun s w i hw hd => ?_⟩
  rw [withFetchWord_eq]
  exact hstep (placeCommand s (BitVec.ofNat 32 w)) _ i s.script hw rfl rfl hd

end Sys2Proof.Machine
end

section
/-! PROOFS. The host port: windows, registers, `STATUS`, reads without side effect and the order of faults
(20_memory R53, R56; 10_state R25; 60_exceptions R187). -/

namespace Sys2Proof.Machine

variable {s u : State} {a : Access}

/-! ## Windows -/

/-- Reading a window returns one Sample or one frame of the role's chunk (20_memory R53). -/
theorem readsAs_window {r : Role} {off : Nat} (ho : off < s.cfg.chunkBytes) (hb : s.busy = false ∨ r ≠ .loadOut) :
    (off % 2 = 0 → ReadsAs ((s.sample (remap s.phase r) (off / 2)).zeroExtend 32)
        (readAccess (windowAddr s.cfg r off) 2) s)
      ∧ (off % 4 = 0 → ReadsAs (s.sample (remap s.phase r) (off / 2 + 1) ++ s.sample (remap s.phase r) (off / 2))
          (readAccess (windowAddr s.cfg r off) 4) s) := by
  refine ⟨fun h2 => ?_, fun h4 => ?_⟩
  · rw [← readWindow_two]
    exact hostAccess_readWindow ho ((windowWidthOk_iff 2 off).2 (.inl ⟨rfl, h2⟩)) hb
  · rw [← readWindow_four]
    exact hostAccess_readWindow ho ((windowWidthOk_iff 4 off).2 (.inr ⟨rfl, h4⟩)) hb

/-- What a 16-bit write of a window stores: its Sample, and nothing else (20_memory R53). -/
theorem writeWindow_two_sample (hm : Memory.wf s.chunks = true) (r : Role) {off : Nat} (ho : off < s.cfg.chunkBytes)
    (v : Word) :
    (writeWindow r off 2 v s).sample (remap s.phase r) (off / 2) = v.extractLsb' 0 16
      ∧ ∀ sl i, i < s.cfg.bufferSize → sl ≠ remap s.phase r ∨ i ≠ off / 2 →
          (writeWindow r off 2 v s).sample sl i = s.sample sl i :=
  ⟨sample_setSample_same s _ _ _ hm,
    fun _ _ hi hne => sample_setSample_ne s _ (windowIndex_lt ho) hi (hne.imp Ne.symm Ne.symm)⟩

/-- What a 32-bit write of a window stores: the frame's two Samples, and nothing else (20_memory R53). -/
theorem writeWindow_four_sample (hc : s.cfg.wellFormed = true) (hm : Memory.wf s.chunks = true) (r : Role) {off : Nat}
    (ho : off < s.cfg.chunkBytes) (hw : windowWidthOk 4 off = true) (v : Word) :
    (writeWindow r off 4 v s).sample (remap s.phase r) (off / 2) = v.extractLsb' 0 16
      ∧ (writeWindow r off 4 v s).sample (remap s.phase r) (off / 2 + 1) = v.extractLsb' 16 16
      ∧ ∀ sl i, i < s.cfg.bufferSize → sl ≠ remap s.phase r ∨ (i ≠ off / 2 ∧ i ≠ off / 2 + 1) →
          (writeWindow r off 4 v s).sample sl i = s.sample sl i := by
  have hlow : off / 2 < s.cfg.bufferSize := windowIndex_lt ho
  have hhigh : off / 2 + 1 < s.cfg.bufferSize := windowIndex_succ_lt hc ho hw
  have hwrite : writeWindow r off 4 v s
      = (s.setSample (remap s.phase r) (off / 2) (v.extractLsb' 0 16)).setSample (remap s.phase r) (off / 2 + 1)
          (v.extractLsb' 16 16) := rfl
  rw [hwrite]
  refine ⟨?low, sample_setSample_same _ _ _ _ (writeSampleAt_wf _ _ _ hm), ?other⟩
  case low =>
    rw [sample_setSample_ne (s.setSample _ _ _) _ hhigh hlow (.inr (by omega)), sample_setSample_same s _ _ _ hm]
  case other =>
    intro sl i hi hne
    rw [sample_setSample_ne (s.setSample _ _ _) _ hhigh hi (hne.imp Ne.symm fun h => h.2.symm),
      sample_setSample_ne s _ hlow hi (hne.imp Ne.symm fun h => h.1.symm)]

/-- A window write changes nothing but the chunks (20_memory R53). -/
theorem writeWindow_eq (r : Role) (off width : Nat) (v : Word) (s : State) :
    writeWindow r off width v s = { s with chunks := (writeWindow r off width v s).chunks } := by
  unfold writeWindow
  split_ifs <;> rfl

/-- A Sample's low byte is at its address and its high byte at the next one (20_memory R54). -/
theorem sample_bytes (s : State) (sl : Slot) (i : Nat) :
    (s.sample sl i).extractLsb' 0 8 = Memory.read s.chunks (sampleAddr s.cfg sl i)
      ∧ (s.sample sl i).extractLsb' 8 8 = Memory.read s.chunks (sampleAddr s.cfg sl i + 1) :=
  ⟨BitVec.extractLsb'_append_eq_right, BitVec.extractLsb'_append_eq_left⟩

/-- Settles O52: reads are the window's reads, and a write stores its Samples into the chunk of `curr_in`. -/
theorem windowAccessesFollowRemap : Obligations.WindowAccessesFollowRemap := by
  refine ⟨fun s r off _ ho hb => readsAs_window ho hb, ?writes, sample_bytes⟩
  case writes =>
    intro s off v hinv ho hb
    obtain ⟨hc, -, -, hm, -⟩ := hinv
    refine ⟨fun h2 => ?_, fun h4 => ?_⟩
    · have hw := (windowWidthOk_iff 2 off).2 (.inl ⟨rfl, h2⟩)
      exact ⟨_, hostAccess_writeWindow ho hw hb, by rw [writeWindow_eq]; rfl, writeWindow_two_sample hm .currIn ho v⟩
    · have hw := (windowWidthOk_iff 4 off).2 (.inr ⟨rfl, h4⟩)
      exact ⟨_, hostAccess_writeWindow ho hw hb, by rw [writeWindow_eq]; rfl,
        writeWindow_four_sample hc hm .currIn ho hw v⟩

/-- Settles O60: `PUT` and `GET` reach the same frame of `CURR_IN`, and its two Samples are the halves of the word. -/
theorem putThenGetReturnsTheFrame : Obligations.PutThenGetReturnsTheFrame := by
  intro s f l r hinv hb hf
  obtain ⟨off, hoff⟩ : ∃ off, Config.frameBytes * f = off := ⟨_, rfl⟩
  have hbytes : off = 4 * f := hoff.symm
  have ho : off < s.cfg.chunkBytes := by rw [Config.chunkBytes_of_wellFormed hinv.wellFormed]; omega
  have haligned : off % 4 = 0 := by omega
  have hindex : off / 2 = 2 * f := by omega
  obtain ⟨-, hwrites, -⟩ := windowAccessesFollowRemap
  obtain ⟨u, hwrite, hu, hlow, hhigh, -⟩ :=
    (hwrites s off (BitVec.ofInt 16 r ++ BitVec.ofInt 16 l) hinv ho hb).2 haligned
  rw [BitVec.extractLsb'_append_eq_right] at hlow
  rw [BitVec.extractLsb'_append_eq_left] at hhigh
  have hcfg : u.cfg = s.cfg := by rw [hu]
  have hphase : u.phase = s.phase := by rw [hu]
  have hread := (readsAs_window (s := u) (r := .currIn) (hcfg ▸ ho) (.inr (by simp))).2 haligned
  rw [hphase, hlow, hhigh, hcfg] at hread
  rw [hindex] at hlow hhigh
  refine ⟨writeAccess (windowAddr s.cfg .currIn off) 4 (BitVec.ofInt 16 r ++ BitVec.ofInt 16 l),
    readAccess (windowAddr s.cfg .currIn off) 4, u, ?_, ?_, hwrite, hread, ?_, ?_⟩
  · rw [← hoff]; rfl
  · rw [← hoff]; rfl
  · rw [State.roleSample, hphase, sampleIndex_left, hlow]
  · rw [State.roleSample, hphase, sampleIndex_right, hhigh]

/-! ## Reads -/

/-- A permitted read returns a value that no earlier reply enters into, and changes nothing else (20_memory R56). -/
theorem performAccess_read {t : Target} (hk : a.kind = .read) (hp : permitted s.cfg a.kind a.width t = true) :
    ∃ v, ∀ r, performAccess a t (withReply r s) = .next (withReply (.value v) s) := by
  cases t with
  | window r off => exact ⟨s.readWindow r off a.width, fun _ => by simp only [performAccess, hk]; rfl⟩
  | register off =>
    cases hr : regAt s.cfg off with
    | none => simp [permitted, hr] at hp
    | some r => exact ⟨s.readReg r, fun _ => by simp only [performAccess, hk, withReply_cfg, hr]; rfl⟩

/-- Settles O56: a read that is neither refused nor barred is performed, and again in the state it leaves. -/
theorem readsHaveNoSideEffect : Obligations.ReadsHaveNoSideEffect := by
  intro a s u hk h
  cases ht : target s.cfg a.addr with
  | none => simp [hostAccess, ht] at h
  | some t =>
    cases hp : permitted s.cfg a.kind a.width t with
    | false => exact .inr (.inl (refusedWith_of_eq (hostAccess_of_not_permitted ht hp)))
    | true =>
      by_cases hbar : s.busy = true ∧ barredWhileBusy s.cfg a.kind t = true
      · exact .inr (.inr ⟨hbar.1, refusedWith_of_eq (hostAccess_of_barred ht hp hbar.1 hbar.2)⟩)
      · have hallowed : s.busy = false ∨ barredWhileBusy s.cfg a.kind t = false := by
          simpa [-not_and, not_and_or] using hbar
        obtain ⟨v, hv⟩ := performAccess_read hk hp
        have hu : u = withReply (.value v) s := by
          rw [hostAccess_of_allowed ht hp hallowed] at h
          exact (Host.Outcome.next.inj ((hv s.reply).symm.trans h)).symm
        subst hu
        exact .inl ⟨rfl, (hostAccess_of_allowed (s := withReply (.value v) s) ht hp hallowed).trans (hv _)⟩

/-! ## `STATUS` -/

/-- Bit `j` of a word with at most bit `n` set. -/
theorem getLsbD_bitAt (x : Bool) {n : Nat} (hn : n < 32) (j : Nat) :
    (bitAt x n).getLsbD j = (x && decide (j = n)) := by
  cases x with
  | false => simp [bitAt]
  | true =>
    simp only [bitAt, if_true, BitVec.getLsbD_ofNat, Nat.testBit_two_pow, Bool.true_and]
    by_cases hj : j = n
    · simp [hj, hn]
    · simp [hj, Ne.symm hj]

/-- There are five fault flags (60_exceptions R180). -/
theorem exists_faultFlag_iff {p : FaultFlag → Prop} :
    (∃ f, p f) ↔ p .cmdf ∨ p .busyf ∨ p .seqf ∨ p .nanf ∨ p .accf := by
  constructor
  · rintro ⟨f, h⟩
    cases f <;> simp [h]
  · rintro (h | h | h | h | h) <;> exact ⟨_, h⟩

/-- Settles O58: `STATUS` is seven single bits put together, at seven different places. -/
theorem statusBitsAreTheFlags : Obligations.StatusBitsAreTheFlags := by
  intro s j
  rw [exists_faultFlag_iff]
  simp only [State.statusWord, BitVec.getLsbD_or, getLsbD_bitAt _ (show 0 < 32 by decide),
    getLsbD_bitAt _ (show 1 < 32 by decide), getLsbD_bitAt _ (show 8 < 32 by decide),
    getLsbD_bitAt _ (show 9 < 32 by decide), getLsbD_bitAt _ (show 10 < 32 by decide),
    getLsbD_bitAt _ (show 11 < 32 by decide), getLsbD_bitAt _ (show 12 < 32 by decide), State.doneBit,
    Bool.or_eq_true, Bool.and_eq_true, decide_eq_true_eq, FaultFlag.code, State.flag]
  tauto

/-! ## The order of faults -/

/-- Outside a run, with no frame of the chunk left, `RUN` raises `SEQF` and does nothing else (60_exceptions R184). -/
theorem exec_run_of_done (hb : s.busy = false) (hn : s.frame = s.cfg.chunkFrames) :
    exec .run s = .next { s with seqf := true } :=
  accept_of_out_of_sequence hb (decide_eq_false hn.not_lt)

/-- A 16-bit write to `CMD` raises `ACCF` and nothing else (60_exceptions R186). -/
theorem hostAccess_halfCommand (s : State) (v : Word) :
    hostAccess (writeAccess (regBase s.cfg) 2 v) s = .next { s with accf := true, reply := .done } := by
  have ht : target s.cfg (writeAccess (regBase s.cfg) 2 v).addr = some (.register 0) :=
    target_register (off := 0) (by decide)
  rw [hostAccess_of_not_permitted ht rfl, refuseAccess_write _ rfl]
  rfl

/-- A command out of sequence outside a run, written to `CMD`, raises `SEQF` and nothing else (60_exceptions R184). -/
theorem hostAccess_command_of_seqf {i : Instr}
    (h : exec i (withReply .done s) = .next { withReply .done s with seqf := true }) :
    hostAccess (commandAccess s.cfg (encode i)) s = .next { s with seqf := true, reply := .done } :=
  (hostAccess_command_of_decode (decode_encode i)).trans h

/-- Settles O59: a bad access is refused before `BUSY` is looked at, `BUSY` before the word is decoded, and the
sequence is looked at last. -/
theorem faultsAreRaisedInOrder : Obligations.FaultsAreRaisedInOrder := by
  intro s hc
  refine ⟨fun v _ => hostAccess_halfCommand s v, fun w hb _ => hostAccess_command_of_busy hb w, ?playOut,
    fun i hb => hostAccess_command_of_busy hb _, ?advInRun, fun w => illegalWordRaisesOnlyCmdf s w, ?done, ?advMidChunk⟩
  case playOut =>
    intro off width v _ ho
    exact hostAccess_writeWindow_of_ne_currIn s (by simp) ho width v
  case advInRun =>
    rintro ⟨-, -, hleft, -, -⟩ hb h0
    refine ⟨hostAccess_command_of_busy hb _, ?_⟩
    rintro t rfl
    exact hostAccess_command_of_seqf (s := { s with busy := false }) (exec_adv_of_midChunk rfl h0 (hleft hb))
  case done =>
    rintro i (rfl | rfl) hb hn
    · exact hostAccess_command_of_seqf (exec_step_of_done hb hn)
    · exact hostAccess_command_of_seqf (exec_run_of_done hb hn)
  case advMidChunk =>
    intro hb h0 hn
    exact hostAccess_command_of_seqf (exec_adv_of_midChunk hb h0 hn)

end Sys2Proof.Machine
end

section
/-! PROOFS. What the commands leave alone, and that a step raises one fault flag at most (41_echo_filter R135, R137;
42_buffer_ring R163, R164, R166; 60_exceptions R187). -/

namespace Sys2Proof.Machine

variable {s t u : State} {a : Access}

/-! ## Effects as records -/

/-- Computing a channel stores one Sample, may raise `NANF`, and may draw a free value; no other field enters or
changes (41_echo_filter R128). -/
theorem computeChannel_eq (n : Nat) (ch : Channel) (s : State) :
    computeChannel n ch s =
      { s with chunks := writeSampleAt s.chunks (sampleAddr s.cfg (remap s.phase .loadOut) (sampleIndex n ch))
                 (clippedSample s (s.filterValue n ch)),
               nanf := s.nanf || (s.filterValue n ch).isNaN,
               draws := s.draws + (if (s.filterValue n ch).isNaN then 1 else 0) } := by
  rw [computeChannel, afterClip_eq]
  rfl

/-- What the next frame leaves alone (41_echo_filter R135). -/
theorem nextFrame_eq (s : State) :
    nextFrame s = { s with frame := s.frame + 1, chunks := (nextFrame s).chunks, nanf := (nextFrame s).nanf,
                           draws := (nextFrame s).draws } := by
  simp only [nextFrame, computeFrame, computeChannel_eq]

/-- The next frame does not depend on `BUSY` (41_echo_filter R135, R136). -/
theorem nextFrame_setBusy (s : State) (b : Bool) :
    nextFrame { s with busy := b } = { nextFrame s with busy := b } := by
  simp only [nextFrame, computeFrame, computeChannel_eq]
  rfl

/-- What an accepted `CLIP` leaves alone (40_clipper R108). -/
theorem clipEffect_eq (s : State) :
    clipEffect s = { s with clipout := (clipEffect s).clipout, nanf := (clipEffect s).nanf,
                            draws := (clipEffect s).draws } := by
  simp only [clipEffect, afterClip_eq]

/-- `INIT` and `CLIP` have no sequence condition (30_encoding R87). -/
theorem seqf_of_exec {i : Instr} (hi : i = .init ∨ i = .clip) (h : exec i s = .next t) : t.seqf = s.seqf := by
  rcases hi with rfl | rfl
  · rcases accept_cases h with ⟨-, rfl⟩ | ⟨-, hq, -⟩ | ⟨-, -, rfl⟩
    · rfl
    · cases hq
    · rfl
  · rcases accept_cases h with ⟨-, rfl⟩ | ⟨-, hq, -⟩ | ⟨-, -, rfl⟩
    · rfl
    · cases hq
    · rw [clipEffect_eq]

/-- What a command that answers leaves alone: the fields it does not name in its own row (30_encoding R87). -/
theorem exec_records {i : Instr} (h : exec i s = .next t) :
    (s.busy = true ∧ t = { s with busyf := true })
      ∨ t = { s with seqf := true }
      ∨ (i = .init ∧ t = { s with chunks := [], phase := 0, frame := 0 })
      ∨ (i = .step ∧ ∃ m n d, t = { s with frame := s.frame + 1, chunks := m, nanf := n, draws := d })
      ∨ (i = .run ∧ t = { s with busy := true })
      ∨ (i = .adv ∧ t = { s with phase := s.phase + 1, frame := 0 })
      ∨ (i = .clip ∧ ∃ x n d, t = { s with clipout := x, nanf := n, draws := d }) := by
  rcases exec_cases h with ⟨hb, rfl⟩ | ⟨-, rfl⟩ | ⟨-, hi, rfl⟩ | ⟨-, hi, -, rfl⟩ | ⟨-, hi, -, rfl⟩ | ⟨-, hi, -, rfl⟩ |
    ⟨-, hi, rfl⟩
  · exact .inl ⟨hb, rfl⟩
  · exact .inr (.inl rfl)
  · exact .inr (.inr (.inl ⟨hi, rfl⟩))
  · exact .inr (.inr (.inr (.inl ⟨hi, _, _, _, nextFrame_eq s⟩)))
  · exact .inr (.inr (.inr (.inr (.inl ⟨hi, rfl⟩))))
  · exact .inr (.inr (.inr (.inr (.inr (.inl ⟨hi, rfl⟩)))))
  · exact .inr (.inr (.inr (.inr (.inr (.inr ⟨hi, _, _, _, clipEffect_eq s⟩)))))

/-- Settles O22: each outcome of a command is a record of the fields it writes; that `INIT` and `CLIP` never raise
`SEQF` is their having no sequence condition. -/
theorem commandsFrameOfTheState : Obligations.CommandsFrameOfTheState := by
  intro i s t h
  have hseqf : i = .init ∨ i = .clip → t.seqf = s.seqf := fun hi => seqf_of_exec hi h
  rcases exec_records h with ⟨hb, rfl⟩ | rfl | ⟨rfl, rfl⟩ | ⟨rfl, m, n, d, rfl⟩ | ⟨rfl, rfl⟩ | ⟨rfl, rfl⟩ |
    ⟨rfl, x, n, d, rfl⟩
  case inl => simp [hb]
  case inr.inl => exact ⟨rfl, rfl, rfl, rfl, rfl, rfl, rfl, by simpa using hseqf⟩
  all_goals simp

/-- Settles O20: an accepted `STEP` is the next frame, which writes the four bytes of the frame's two Samples. -/
theorem stepFrameOfTheState : Obligations.StepFrameOfTheState := by
  intro s t hb hn h
  rw [exec_step_of_ready hb hn] at h
  cases h
  refine ⟨nextFrame_eq s, fun a ha => ?_, fun f => nextFrame_flag_of_ne_nanf s⟩
  rw [nextFrame_chunks, computeFrame_read s.frame s a (by rwa [sampleIndex_left])]

/-! ## One fault flag at most -/

/-- A refused access raises its flag and no other (60_exceptions R181). -/
theorem refuseAccess_flag (f : FaultFlag) (a : Access) (s : State) (g : FaultFlag) :
    (refuseAccess f a s).flag g = (s.flag g || decide (g = f)) := by
  unfold refuseAccess
  split
  · rw [withReply_flag, raise_flag]
  · split_ifs <;> simp only [drawn_flag, withReply_flag, raise_flag]

/-- Between the two states one flag at most differs. -/
def OneFlagAtMost (s t : State) : Prop := ∃ f : FaultFlag, ∀ g, g ≠ f → t.flag g = s.flag g

/-- Where no flag differs, one at most does. -/
theorem OneFlagAtMost.of_eq (h : ∀ g, t.flag g = s.flag g) : OneFlagAtMost s t := ⟨.nanf, fun g _ => h g⟩

theorem oneFlagAtMost_raise (f : FaultFlag) (s : State) : OneFlagAtMost s (raise f s) :=
  ⟨f, fun g hg => by simp [raise_flag, hg]⟩

theorem oneFlagAtMost_refuseAccess (f : FaultFlag) (a : Access) (s : State) : OneFlagAtMost s (refuseAccess f a s) :=
  ⟨f, fun g hg => by simp [refuseAccess_flag, hg]⟩

/-- `CLIP` raises no flag but `NANF` (40_clipper R108). -/
theorem clipEffect_flag_of_ne_nanf (s : State) {f : FaultFlag} (hf : f ≠ .nanf) : (clipEffect s).flag f = s.flag f := by
  rw [clipEffect_eq]
  cases f with
  | nanf => exact absurd rfl hf
  | _ => rfl

/-- A command changes one flag at most (60_exceptions R187). -/
theorem exec_oneFlagAtMost {i : Instr} (h : exec i s = .next t) : OneFlagAtMost s t := by
  rcases exec_cases h with ⟨-, rfl⟩ | ⟨-, rfl⟩ | ⟨-, -, rfl⟩ | ⟨-, -, -, rfl⟩ | ⟨-, -, -, rfl⟩ | ⟨-, -, -, rfl⟩ |
    ⟨-, -, rfl⟩
  · exact oneFlagAtMost_raise .busyf s
  · exact oneFlagAtMost_raise .seqf s
  · exact .of_eq fun g => initEffect_flag g s
  · exact ⟨.nanf, fun g => nextFrame_flag_of_ne_nanf s⟩
  · exact .of_eq fun g => runEffect_flag g s
  · exact .of_eq fun g => advEffect_flag g s
  · exact ⟨.nanf, fun g => clipEffect_flag_of_ne_nanf s⟩

/-- A host access changes one flag at most (60_exceptions R187). -/
theorem hostAccess_oneFlagAtMost (h : hostAccess a s = .next t) : OneFlagAtMost s t := by
  rcases hostAccess_cases h with rfl | ⟨-, rfl⟩ | ⟨-, v, rfl⟩ | ⟨-, -, off, -, -, rfl⟩ | ⟨-, rfl⟩ | ⟨-, -, -, rfl⟩ |
    ⟨-, -, i, -, hexec⟩
  · exact oneFlagAtMost_refuseAccess .accf a s
  · exact oneFlagAtMost_refuseAccess .busyf a s
  · exact .of_eq fun g => withReply_flag g s (.value v)
  · exact .of_eq fun g => by rw [withReply_flag, writeWindow_flag]
  · exact .of_eq fun g => by rw [setClipin_flag, withReply_flag]
  · obtain ⟨f, hf⟩ := oneFlagAtMost_raise .cmdf (withReply .done s)
    exact ⟨f, fun g hg => (hf g hg).trans (withReply_flag g s .done)⟩
  · obtain ⟨f, hf⟩ := exec_oneFlagAtMost hexec
    exact ⟨f, fun g hg => (hf g hg).trans (withReply_flag g s .done)⟩

/-- An engine step changes no flag but `NANF` (60_exceptions R187). -/
theorem engineStep_flag_of_ne_nanf (s : State) {f : FaultFlag} (hf : f ≠ .nanf) :
    (engineStep s).flag f = s.flag f := by
  cases hb : s.busy with
  | false => rw [engineStep_of_idle s hb]
  | true =>
    have hnext := nextFrame_flag_of_ne_nanf s hf
    rw [engineStep_of_busy s hb]
    cases f <;> exact hnext

/-- Settles O49: the host's part of a step is one access, the engine's can raise `NANF` alone, and a reset clears. -/
theorem atMostOneFaultPerStep : Obligations.AtMostOneFaultPerStep := by
  intro s t h
  have hturn (g : FaultFlag) : (afterTurn s).flag g = s.flag g := afterTurn_flag s g
  have hscript (rest : List HostStep) (g : FaultFlag) : State.flag { afterTurn s with script := rest } g = s.flag g :=
    (setScript_flag _ rest g).trans (hturn g)
  have haccess {v : State} {a : Access} (hv : ∀ g, v.flag g = s.flag g) (hacc : hostAccess a v = .next t) :
      ∃ f : FaultFlag, ∀ g, g ≠ f → t.flag g = true → s.flag g = true := by
    obtain ⟨f, hf⟩ := hostAccess_oneFlagAtMost hacc
    exact ⟨f, fun g hg hset => by rwa [hf g hg, hv] at hset⟩
  obtain ⟨-, ⟨hn, -, rfl⟩ | ⟨hn, a, rest, -, hacc⟩ | ⟨hn, rest, -, hacc⟩ | ⟨hn, rfl⟩ | ⟨hn, rfl⟩⟩ := step_cases h
  · exact ⟨⟨.nanf, fun g _ hset => by rwa [hturn] at hset⟩, by simp [hn]⟩
  · exact ⟨haccess (hscript rest) hacc, by simp [hn]⟩
  · refine ⟨haccess (fun g => ?_) hacc, by simp [hn]⟩
    split_ifs
    · exact hturn g
    · exact hscript rest g
  · have hengine (g : FaultFlag) (hg : g ≠ .nanf) : (engineStep (afterTurn s)).flag g = s.flag g :=
      (engineStep_flag_of_ne_nanf _ hg).trans (hturn g)
    exact ⟨⟨.nanf, fun g hg hset => by rwa [hengine g hg] at hset⟩, fun _ => hengine⟩
  · exact ⟨⟨.nanf, fun g _ hset => by simp at hset⟩, by simp [hn]⟩

/-! ## `RUN` and `ADV` -/

/-- Outside a run, with a frame of the chunk left, `RUN` begins a run (41_echo_filter R137). -/
theorem exec_run_of_ready (hb : s.busy = false) (hn : s.frame < s.cfg.chunkFrames) :
    exec .run s = .next (runEffect s) :=
  accept_of_ready hb (decide_eq_true hn)

/-- Settles O18: an accepted `RUN` sets `BUSY` alone. -/
theorem runBeginsARun : Obligations.RunBeginsARun :=
  ⟨rfl, fun s hb hn => ⟨runEffect s, exec_run_of_ready hb hn, rfl, rfl, fun _ => rfl⟩, fun _ => accept_of_busy,
    fun _ => exec_run_of_done⟩

/-- What each role names in the next phase, and the idle slot (42_buffer_ring R160, R166). -/
theorem remap_succ (c : Fin 4) :
    remap (c + 1) .prevIn = remap c .currIn ∧ remap (c + 1) .currIn = remap c .prevIn
      ∧ remap (c + 1) .feedbackOut = remap c .loadOut ∧ remap (c + 1) .playOut = remap c .feedbackOut
      ∧ idleSlot (c + 1) = remap c .playOut ∧ remap (c + 1) .loadOut = idleSlot c := by
  revert c; decide

/-- Settles O44: `ADV` moves `PHASE` and no chunk, and the role map moves the names. -/
theorem historyMovesWithThePhase : Obligations.HistoryMovesWithThePhase := by
  intro s t hb hf h i
  rw [exec_adv_of_ready hb hf] at h
  cases h
  have hsample (sl : Slot) : (advEffect s).sample sl i = s.sample sl i := rfl
  obtain ⟨hprev, hcurr, hfeedback, hplay, hidle, hload⟩ := remap_succ s.phase
  simp only [hsample, advEffect_phase, hprev, hcurr, hfeedback, hplay, hidle, hload, and_self]

/-- A tap that reaches back no further than frame 0 reads the same chunk (41_echo_filter R123). -/
theorem tapPos_same {c : Config} {n k : Nat} (h : k * c.delay ≤ n) : tapPos c n k = .same (n - k * c.delay) := by
  simp only [tapPos, h, if_true]

/-- A tap that reaches back further reads the preceding chunk, `k * DELAY` frames back in the stream
(41_echo_filter R123). -/
theorem tapPos_preceding {c : Config} {n k : Nat} (h : n < k * c.delay) :
    tapPos c n k = .preceding (c.chunkFrames + n - k * c.delay) := by
  simp only [tapPos, h.not_ge, if_false]
  congr 1
  omega

/-- Settles O45: the wrapped taps read `prev_in` and `feedback_out`, which hold what was `curr_in` and `load_out`. -/
theorem chunkBoundariesDoNotShow : Obligations.ChunkBoundariesDoNotShow := by
  intro s t hb hf h n k ch
  have hmoved := historyMovesWithThePhase s t hb (.inr hf) h
  rw [exec_adv_of_ready hb (.inr hf)] at h
  cases h
  refine ⟨fun hlt => ?wrapped, fun hle => ?same⟩
  case wrapped =>
    obtain ⟨hprev, -, hfeedback, -⟩ := hmoved (sampleIndex (s.cfg.chunkFrames + n - k * s.cfg.delay) ch)
    simp only [State.tapX, State.tapY, advEffect_cfg, tapPos_preceding hlt]
    exact ⟨hprev, hfeedback⟩
  case same => simp only [State.tapX, State.tapY, advEffect_cfg, tapPos_same hle, and_self]

/-! ## Fixed values -/

/-- Settles O1: the encoder and the decoder are evaluated at each word. -/
theorem commandWordsMatchTheOpcodeTable : Obligations.CommandWordsMatchTheOpcodeTable := by
  unfold Obligations.CommandWordsMatchTheOpcodeTable
  decide

/-- Settles O43: `MAP` is evaluated at each of the four phases. -/
theorem mapSpellsOutRemap : Obligations.MapSpellsOutRemap := by
  unfold Obligations.MapSpellsOutRemap
  decide

/-- Settles O11: the fields are those of `State.reset`, and an empty memory reads 0. -/
theorem resetStateHoldsTheResetValues : Obligations.ResetStateHoldsTheResetValues :=
  ⟨rfl, rfl, rfl, rfl, rfl, rfl, rfl, sample_of_empty rfl, rfl, rfl, rfl, rfl, rfl, rfl, rfl⟩

end Sys2Proof.Machine
end

section
/-! PROOFS. The engine's steps, one by one and along a run, alone and under a schedule (41_echo_filter R136, R137). -/

namespace Sys2Proof.Machine

variable {s t u : State} {a : Access}

/-! ## One engine step -/

/-- A run goes on unless the frame was the last (41_echo_filter R136). -/
theorem engineStep_busy_of_busy (hb : s.busy = true) :
    (engineStep s).busy = decide (s.frame + 1 ≠ s.cfg.chunkFrames) := by
  rw [engineStep_of_busy s hb]
  simp

/-- Settles O23: the next frame does not depend on `BUSY`, and an engine step sets `BUSY` by the frame reached. -/
theorem engineStepIsTheStepOfAFrame : Obligations.EngineStepIsTheStepOfAFrame := by
  refine ⟨fun s hb hn => ⟨_, exec_step_of_ready (s := { s with busy := false }) rfl hn, ?_⟩, engineStep_of_idle⟩
  rw [engineStep_of_busy s hb, nextFrame_setBusy s false]
  by_cases hlast : s.frame + 1 = s.cfg.chunkFrames <;> simp [hlast]

/-! ## A run of engine steps -/

/-- The last of a number of engine steps. -/
theorem engineSteps_succ (k : Nat) (s : State) : engineSteps (k + 1) s = engineStep (engineSteps k s) := by
  induction k generalizing s with
  | zero => rfl
  | succ k ih => exact ih (engineStep s)

/-- Along a run each engine step computes one frame, and `BUSY` falls with the last (41_echo_filter R137, R138). -/
theorem engineSteps_progress (hb : s.busy = true) (hn : s.frame < s.cfg.chunkFrames) {j : Nat}
    (hj : j ≤ s.cfg.chunkFrames - s.frame) :
    (engineSteps j s).frame = s.frame + j ∧ (engineSteps j s).busy = decide (j < s.cfg.chunkFrames - s.frame)
      ∧ (engineSteps j s).cfg = s.cfg ∧ (engineSteps j s).phase = s.phase := by
  induction j with
  | zero =>
    refine ⟨rfl, ?_, rfl, rfl⟩
    rw [engineSteps, hb, decide_eq_true (by omega)]
  | succ j ih =>
    obtain ⟨hframe, hbusy, hcfg, hphase⟩ := ih (by omega)
    have hb' : (engineSteps j s).busy = true := by rw [hbusy, decide_eq_true (by omega)]
    rw [engineSteps_succ]
    refine ⟨by rw [engineStep_frame_of_busy hb', hframe, Nat.add_assoc], ?_, by rw [engineStep_cfg, hcfg],
      by rw [engineStep_phase, hphase]⟩
    rw [engineStep_busy_of_busy hb', hframe, hcfg, decide_eq_decide]
    omega

/-- Along a run the invariant stays. -/
theorem engineSteps_inv (hi : s.Inv) (j : Nat) : (engineSteps j s).Inv := by
  induction j with
  | zero => exact hi
  | succ j ih =>
    rw [engineSteps_succ]
    exact engineStep_inv ih

/-- Settles O24: `RUN` begins a run, and the run's progress at its last step is the end of the chunk. -/
theorem runTakesExactlyTheRemainingSteps : Obligations.RunTakesExactlyTheRemainingSteps := by
  intro s hb hn
  have hprogress {j : Nat} (hj : j ≤ s.cfg.chunkFrames - s.frame) :=
    engineSteps_progress (s := runEffect s) rfl hn hj
  obtain ⟨hframe, hbusy, hcfg, -⟩ := hprogress le_rfl
  have hlast : (engineSteps (s.cfg.chunkFrames - s.frame) (runEffect s)).frame = s.cfg.chunkFrames := by
    rw [hframe, runEffect_frame]
    omega
  refine ⟨runEffect s, exec_run_of_ready hb hn, fun j hj => ?_, hlast, hbusy.trans (decide_eq_false (lt_irrefl _)), ?_⟩
  · obtain ⟨hframe, hbusy, -⟩ := hprogress hj
    exact ⟨hframe, hbusy⟩
  · rw [State.doneBit, hlast, hcfg]
    exact decide_eq_true rfl

/-- Settles O27: the first engine step of the run alone is the `STEP`, with `BUSY` set. -/
theorem stepsAndRunCompose : Obligations.StepsAndRunCompose := by
  intro s u hb hn h
  rw [exec_step_of_ready hb (by omega)] at h
  cases h
  refine ⟨_, _, exec_run_of_ready hb (by omega), exec_run_of_ready (s := nextFrame s) (by simpa using hb) ?_, ?_⟩
  · rw [nextFrame_frame, nextFrame_cfg]
    exact hn
  · have hcount : s.cfg.chunkFrames - s.frame = (s.cfg.chunkFrames - (nextFrame s).frame) + 1 := by
      rw [nextFrame_frame]
      omega
    have hfirst : engineStep (runEffect s) = runEffect (nextFrame s) := by
      rw [engineStep_of_busy (runEffect s) rfl, runEffect, nextFrame_setBusy]
      simp [runEffect, hn.ne]
    rw [hcount, engineSteps, hfirst]

/-! ## A run under a schedule -/

/-- Passing a host access leaves the schedule and the script as they are. -/
theorem hostAccess_queues (h : hostAccess a s = .next t) : t.turns = s.turns ∧ t.script = s.script := by
  rcases hostAccess_cases h with rfl | ⟨-, rfl⟩ | ⟨-, v, rfl⟩ | ⟨-, -, off, -, -, rfl⟩ | ⟨-, rfl⟩ | ⟨-, -, -, rfl⟩ |
    ⟨-, -, i, -, hexec⟩
  case inr.inr.inr.inr.inr.inr =>
    obtain ⟨-, hturns, hscript, -⟩ := commandsFrameOfTheState i _ t hexec
    exact ⟨hturns, hscript⟩
  case inl | inr.inl =>
    unfold refuseAccess
    split
    · simp
    · split_ifs <;> simp
  case inr.inr.inr.inl =>
    rw [writeWindow_eq]
    exact ⟨rfl, rfl⟩
  all_goals exact ⟨rfl, rfl⟩

/-- A step takes one turn from the schedule, and the script only gets shorter (log 4, log 5). -/
theorem step_queues (h : step s = .next t) : t.turns = s.turns.tail ∧ t.script <:+ s.script := by
  obtain ⟨-, ⟨-, -, rfl⟩ | ⟨-, a, rest, hs, hacc⟩ | ⟨-, rest, hs, hacc⟩ | ⟨-, rfl⟩ | ⟨-, rfl⟩⟩ := step_cases h
  · exact ⟨rfl, List.suffix_refl _⟩
  · obtain ⟨hturns, hscript⟩ := hostAccess_queues hacc
    exact ⟨hturns, by rw [hscript, hs]; exact List.suffix_cons _ _⟩
  · obtain ⟨hturns, hscript⟩ := hostAccess_queues hacc
    split_ifs at hturns hscript
    · exact ⟨hturns, by rw [hscript]; exact List.suffix_refl _⟩
    · exact ⟨hturns, by rw [hscript, hs]; exact List.suffix_cons _ _⟩
  · exact ⟨engineStep_turns _, by rw [engineStep_script]; exact List.suffix_refl _⟩
  · exact ⟨rfl, List.suffix_refl _⟩

/-- Every access still to come is inside the EFU's range (log 10). -/
def ScriptInRange (s : State) : Prop := ∀ a, .access a ∈ s.script → a.addr < regBase s.cfg + 0x100

/-- A host turn during a run answers and leaves the ring alone (20_memory R59). -/
theorem step_of_host_turn_in_run (hi : s.Inv) (hb : s.busy = true) (hn : nextTurn s = .host) (hr : ScriptInRange s) :
    ∃ u, step s = .next u ∧ SameRing s u := by
  obtain ⟨u, hu⟩ := everyStepCompletes s hi.wellFormed fun a rest hs => hr a (by rw [hs]; exact List.mem_cons_self)
  refine ⟨u, hu, ?_⟩
  rcases step_ring hu with hsame | ⟨-, hb', -⟩ | ⟨i, v, ⟨-, hb', -⟩, -⟩ | ⟨hn', -⟩ | ⟨hn', -⟩
  · exact hsame
  · simp [hb] at hb'
  · simp [hb] at hb'
  · simp [hn] at hn'
  · simp [hn] at hn'

/-- A run of the machine begins with its first step. -/
theorem core_run_succ (h : step s = .next u) (k : Nat) :
    Host.Core.run Sys2Proof.core (k + 1) s = Host.Core.run Sys2Proof.core k u := by
  have hstep : Sys2Proof.core.step s = .next u := h
  simp only [Host.Core.run, hstep]

/-- The machine has reached the end of the run that `s` is in: `BUSY` is 0 at the end of the chunk. -/
def RunEnded (s t : State) : Prop := t.busy = false ∧ t.frame = s.cfg.chunkFrames ∧ t.phase = s.phase

/-- The end of a run is the same seen from a later state of the run. -/
theorem RunEnded.of_later (h : RunEnded u t) (hcfg : u.cfg = s.cfg) (hphase : u.phase = s.phase) : RunEnded s t := by
  rwa [RunEnded, hcfg, hphase] at h

/-- The engine's step of the last frame ends the run (41_echo_filter R136). -/
theorem runEnded_engineStep (hb : s.busy = true) (hlast : s.frame + 1 = s.cfg.chunkFrames) :
    RunEnded s (engineStep (afterTurn s)) :=
  ⟨(engineStep_busy_of_busy (s := afterTurn s) hb).trans (decide_eq_false (not_not_intro hlast)),
    (engineStep_frame_of_busy (s := afterTurn s) hb).trans hlast, engineStep_phase (afterTurn s)⟩

/-- The engine's step of an earlier frame leaves the run in progress, one frame on (41_echo_filter R136). -/
theorem engineStep_goes_on (hb : s.busy = true) (hnot : s.frame + 1 ≠ s.cfg.chunkFrames) :
    (engineStep (afterTurn s)).busy = true ∧ (engineStep (afterTurn s)).frame = s.frame + 1 :=
  ⟨(engineStep_busy_of_busy (s := afterTurn s) hb).trans (decide_eq_true hnot),
    engineStep_frame_of_busy (s := afterTurn s) hb⟩

/-- Under a schedule without a reset the run ends with the engine's turn that computes the last frame, by induction on
the turns before it. -/
theorem run_ends_under_schedule (before after : List Turn) (hi : s.Inv) (hb : s.busy = true)
    (hturns : s.turns = before ++ .engine :: after) (hreset : .reset ∉ before)
    (hcount : before.count .engine + 1 = s.cfg.chunkFrames - s.frame) (hr : ScriptInRange s) :
    ∃ t, Host.Core.run Sys2Proof.core (before.length + 1) s = .next t ∧ RunEnded s t ∧ t.turns = after
      ∧ t.script <:+ s.script := by
  induction before generalizing s with
  | nil =>
    have hstep : step s = .next (engineStep (afterTurn s)) := step_of_engine_turn hi.wellFormed (nextTurn_cons hturns)
    obtain ⟨hrest, hscript⟩ := step_queues hstep
    rw [List.count_nil] at hcount
    exact ⟨_, core_run_succ hstep 0, runEnded_engineStep hb (by omega), by rw [hrest, hturns]; rfl, hscript⟩
  | cons x xs ih =>
    have hn : nextTurn s = x := nextTurn_cons hturns
    obtain ⟨hx, hxs⟩ := not_or.1 (List.mem_cons.not.1 hreset)
    have hgo {u : State} (hstep : step s = .next u) (hcfg : u.cfg = s.cfg) (hphase : u.phase = s.phase)
        (hbu : u.busy = true) (hleft : xs.count .engine + 1 = s.cfg.chunkFrames - u.frame) :
        ∃ t, Host.Core.run Sys2Proof.core (xs.length + 1 + 1) s = .next t ∧ RunEnded s t ∧ t.turns = after
          ∧ t.script <:+ s.script := by
      obtain ⟨hrest, hscript⟩ := step_queues hstep
      have hru : ScriptInRange u := fun a ha => hcfg ▸ hr a (hscript.subset ha)
      obtain ⟨t, hrun, hend, hafter, hsuffix⟩ := ih (everyStepKeepsTheInvariant s u hi hstep) hbu
        (by rw [hrest, hturns]; rfl) hxs (hcfg ▸ hleft) hru
      exact ⟨t, (core_run_succ hstep _).trans hrun, hend.of_later hcfg hphase, hafter, hsuffix.trans hscript⟩
    cases x with
    | reset => exact absurd rfl hx
    | host =>
      obtain ⟨u, hstep, hsame⟩ := step_of_host_turn_in_run hi hb hn hr
      refine hgo hstep hsame.cfg hsame.phase (hsame.busy.trans hb) ?_
      rwa [hsame.frame, ← List.count_cons_of_ne (b := Turn.host) (by decide)]
    | engine =>
      rw [List.count_cons_self] at hcount
      obtain ⟨hbu, hframe⟩ := engineStep_goes_on hb (by omega)
      exact hgo (step_of_engine_turn hi.wellFormed hn) (engineStep_cfg _) (engineStep_phase _) hbu
        (by rw [hframe]; omega)

/-- With no turn listed the engine moves until the run ends, by induction on the frames left (log 4). -/
theorem run_ends_by_itself {k : Nat} (hi : s.Inv) (hb : s.busy = true) (hturns : s.turns = [])
    (hk : s.cfg.chunkFrames - s.frame = k + 1) :
    ∃ t, Host.Core.run Sys2Proof.core (k + 1) s = .next t ∧ RunEnded s t ∧ t.script = s.script := by
  induction k generalizing s with
  | zero =>
    have hstep := step_of_engine_turn hi.wellFormed (by rw [nextTurn_nil hturns, if_pos hb])
    exact ⟨_, core_run_succ hstep 0, runEnded_engineStep hb (by omega), engineStep_script _⟩
  | succ k ih =>
    have hstep := step_of_engine_turn hi.wellFormed (by rw [nextTurn_nil hturns, if_pos hb])
    obtain ⟨hbu, hframe⟩ := engineStep_goes_on hb (by omega)
    have hcfg : (engineStep (afterTurn s)).cfg = s.cfg := engineStep_cfg _
    obtain ⟨t, hrun, hend, hscript⟩ := ih (everyStepKeepsTheInvariant s _ hi hstep) hbu
      (by rw [engineStep_turns, afterTurn, hturns]; rfl) (by rw [hcfg, hframe]; omega)
    exact ⟨t, (core_run_succ hstep _).trans hrun, hend.of_later hcfg (engineStep_phase _),
      hscript.trans (engineStep_script _)⟩

/-- Settles O25: the two inductions above, over the turns listed and over the frames left. -/
theorem runEndsUnderAFairSchedule : Obligations.RunEndsUnderAFairSchedule := by
  refine ⟨fun s before after hi hb hturns hreset hcount hr => ?_, fun s hi hb hturns => ?_⟩
  · obtain ⟨t, hrun, ⟨hbusy, hframe, hphase⟩, hafter, hscript⟩ :=
      run_ends_under_schedule before after hi hb hturns hreset hcount hr
    exact ⟨t, hrun, hbusy, hframe, hphase, hafter, hscript⟩
  · obtain ⟨k, hk⟩ : ∃ k, s.cfg.chunkFrames - s.frame = k + 1 :=
      Nat.exists_eq_succ_of_ne_zero (Nat.sub_ne_zero_of_lt (hi.frame_lt hb))
    obtain ⟨t, hrun, ⟨hbusy, hframe, hphase⟩, hscript⟩ := run_ends_by_itself hi hb hturns hk
    exact ⟨t, hk ▸ hrun, hbusy, hframe, hscript, hphase⟩

end Sys2Proof.Machine
end

section
/-! PROOFS. The filter: where its taps read, what its value depends on, and what a run leaves in the chunk
(41_echo_filter R121, R123, R126 to R129, R139, R142, R144). -/

namespace Sys2Proof.Machine

variable {s t u : State} {n : Nat} {ch : Channel}

/-! ## Taps -/

/-- A tap of the filter reaches back a chunk at most (00_scope R8(b)). -/
theorem tapDelay_le {c : Config} (hc : c.wellFormed = true) {k : Nat} (hk : k ≤ max c.m c.n) :
    k * c.delay ≤ c.chunkFrames := by
  obtain ⟨-, -, hm, hn, -⟩ := (Config.wellFormed_iff c).1 hc
  rcases le_max_iff.1 hk with h | h
  · exact (Nat.mul_le_mul_right _ h).trans hm
  · exact (Nat.mul_le_mul_right _ h).trans hn

/-- Settles O30: a tap reaches back a chunk at most, so a wrapped one falls inside the preceding chunk. -/
theorem tapPositionsStayInBounds : Obligations.TapPositionsStayInBounds := by
  intro c n k hc hn hk
  have hreach := tapDelay_le hc hk
  refine ⟨fun hle => ?same, fun hlt => ?preceding⟩
  case same =>
    have hf : n - k * c.delay < c.chunkFrames := by omega
    exact ⟨tapPos_same hle, hf, sampleIndex_lt hc hf⟩
  case preceding =>
    have hf : c.chunkFrames + n - k * c.delay < c.chunkFrames := by omega
    exact ⟨_, tapPos_preceding hlt, by omega, hf, sampleIndex_lt hc hf⟩

/-- Settles O29: the sums are unrolled. -/
theorem filterValueIsTheOrderedSum : Obligations.FilterValueIsTheOrderedSum := by
  intro s n ch hm hn
  simp only [State.filterValue, State.inputSum, State.outputSum, hm, hn, sumTerms]

/-- Where an input tap reads: a frame of `curr_in` or `prev_in` that the configuration alone decides
(41_echo_filter R124). -/
theorem tapX_reads {c : Config} (hc : c.wellFormed = true) (hn : n < c.chunkFrames) {k : Nat} (hk : k ≤ c.m) :
    ∃ r f, f < c.chunkFrames ∧ r ≠ .loadOut ∧ r ≠ .playOut
      ∧ ∀ t : State, t.cfg = c → ∀ ch, t.tapX n k ch = t.roleSample r f ch := by
  rcases tapPos_cases hc hn (le_max_of_le_left hk) with ⟨f, hpos, hle, -⟩ | ⟨f, hpos, hf⟩
  · exact ⟨.currIn, f, by omega, by simp, by simp, fun t ht ch => by simp only [State.tapX, ht, hpos]⟩
  · exact ⟨.prevIn, f, hf, by simp, by simp, fun t ht ch => by simp only [State.tapX, ht, hpos]⟩

/-- Where an output tap reads: a frame of `feedback_out` or, below `n`, of `load_out` (41_echo_filter R125, R139). -/
theorem tapY_reads {c : Config} (hc : c.wellFormed = true) (hn : n < c.chunkFrames) {k : Nat} (hk1 : 1 ≤ k)
    (hk : k ≤ c.n) :
    ∃ r f, f < c.chunkFrames ∧ (r ≠ .loadOut ∨ f < n) ∧ r ≠ .playOut
      ∧ ∀ t : State, t.cfg = c → ∀ ch, t.tapY n k ch = t.roleSample r f ch := by
  rcases tapPos_cases hc hn (le_max_of_le_right hk) with ⟨f, hpos, hle, hlt⟩ | ⟨f, hpos, hf⟩
  · exact ⟨.loadOut, f, by omega, .inr (hlt hk1), by simp, fun t ht ch => by simp only [State.tapY, ht, hpos]⟩
  · exact ⟨.feedbackOut, f, hf, .inl (by simp), by simp, fun t ht ch => by simp only [State.tapY, ht, hpos]⟩

/-- Settles O31: no tap reads `play_out`, nor `load_out` from `n` on. -/
theorem filterReadsNoStaleFrame : Obligations.FilterReadsNoStaleFrame := by
  intro s t n ch hc hn hcfg hphase hagree
  refine filterValue_congr n ch hcfg (fun k hk => ?input) fun k hk1 hk => ?output
  case input =>
    obtain ⟨r, f, hf, hload, hplay, hreads⟩ := tapX_reads hc hn hk
    rw [hreads t hcfg, hreads s rfl, hagree r f hf (.inl hload) hplay]
  case output =>
    obtain ⟨r, f, hf, hload, hplay, hreads⟩ := tapY_reads hc hn hk1 hk
    rw [hreads t hcfg, hreads s rfl, hagree r f hf hload hplay]

/-! ## The two channels -/

/-- Computing a channel whose value is a number stores its Sample and does nothing else (41_echo_filter R128). -/
theorem computeChannel_of_clip {x : Sample} (h : clip (s.filterValue n ch) = some x) :
    computeChannel n ch s = s.setSample (remap s.phase .loadOut) (sampleIndex n ch) x := by
  simp only [computeChannel, afterClip, clippedSample, h]

/-- The two bytes of a Sample read alike in every memory it has been written to. -/
theorem read_writeSampleAt_same {m m' : Memory} (hm : Memory.wf m = true) (hm' : Memory.wf m' = true) {a b : Nat}
    (hb : b = a ∨ b = a + 1) (v : Sample) :
    Memory.read (writeSampleAt m a v) b = Memory.read (writeSampleAt m' a v) b := by
  unfold writeSampleAt
  rcases hb with rfl | rfl
  · rw [Memory.read_write_ne _ _ (Nat.ne_of_lt b.lt_succ_self), Memory.read_write_same _ _ _ hm,
      Memory.read_write_ne _ _ (Nat.ne_of_lt b.lt_succ_self), Memory.read_write_same _ _ _ hm']
  · rw [Memory.read_write_same _ _ _ (Memory.wf_write _ _ _ hm),
      Memory.read_write_same _ _ _ (Memory.wf_write _ _ _ hm')]

/-- Samples that do not meet can be written in either order. -/
theorem writeSampleAt_comm {m : Memory} (hm : Memory.wf m = true) {a b : Nat} (hab : b + 2 ≤ a ∨ a + 2 ≤ b)
    (v w : Sample) :
    writeSampleAt (writeSampleAt m a v) b w = writeSampleAt (writeSampleAt m b w) a v := by
  have hma := writeSampleAt_wf m a v hm
  have hmb := writeSampleAt_wf m b w hm
  refine Memory.ext_of_wf (writeSampleAt_wf _ _ _ hma) (writeSampleAt_wf _ _ _ hmb) fun x => ?_
  by_cases hxa : x = a ∨ x = a + 1
  · rw [read_writeSampleAt_ne _ b x w (by omega)]
    exact read_writeSampleAt_same hm hmb hxa v
  · rw [read_writeSampleAt_ne _ a x v (by omega)]
    by_cases hxb : x = b ∨ x = b + 1
    · exact read_writeSampleAt_same hma hm hxb w
    · rw [read_writeSampleAt_ne _ b x w (by omega), read_writeSampleAt_ne _ a x v (by omega),
        read_writeSampleAt_ne _ b x w (by omega)]

/-- Two Samples of a chunk can be set in either order. -/
theorem setSample_comm (hm : Memory.wf s.chunks = true) (sl : Slot) {i j : Nat} (hi : i < s.cfg.bufferSize)
    (hj : j < s.cfg.bufferSize) (hne : i ≠ j) (v w : Sample) :
    (s.setSample sl i v).setSample sl j w = (s.setSample sl j w).setSample sl i v := by
  simp only [State.setSample]
  rw [writeSampleAt_comm hm (sampleAddr_apart s.cfg hi hj (.inr hne))]

/-- Settles O32: the taps of a channel read that channel; and on numbers the two channels store two different Samples,
neither of which the other's value reads. -/
theorem channelsAreIndependent : Obligations.ChannelsAreIndependent := by
  refine ⟨?value, ?order⟩
  case value =>
    intro s t n ch hcfg hphase hagree
    refine filterValue_congr n ch hcfg (fun k _ => ?_) fun k _ _ => ?_
    · simp only [State.tapX, State.roleSample, hcfg, hphase, hagree]
    · simp only [State.tapY, State.roleSample, hcfg, hphase, hagree]
  case order =>
    rintro s ⟨hc, -, -, hm, -⟩ hn hnum
    obtain ⟨x, hx⟩ := exists_clip_of_not_isNaN (hnum .left)
    obtain ⟨y, hy⟩ := exists_clip_of_not_isNaN (hnum .right)
    have hx' := (congrArg clip (filterValue_computeChannel hc hm hn .right .left)).trans hx
    have hy' := (congrArg clip (filterValue_computeChannel hc hm hn .left .right)).trans hy
    rw [computeChannel_of_clip hy', computeChannel_of_clip hx', computeChannel_of_clip hx, computeChannel_of_clip hy]
    exact setSample_comm hm _ (sampleIndex_lt hc hn .left) (sampleIndex_lt hc hn .right) (by simp) x y

/-! ## A finished run -/

/-- An engine step changes no Sample but the two of frame `FRAME` of `load_out` (41_echo_filter R129, R136). -/
theorem engineStep_roleSample (hi : s.Inv) (hb : s.busy = true) {r : Role} {f : Nat} (hf : f < s.cfg.chunkFrames)
    (h : r ≠ .loadOut ∨ f ≠ s.frame) (ch : Channel) :
    (engineStep s).roleSample r f ch = s.roleSample r f ch := by
  obtain ⟨hc, -, hleft, hm, -⟩ := hi
  have hne : remap s.phase r ≠ remap s.phase .loadOut
      ∨ (sampleIndex f ch ≠ 2 * s.frame ∧ sampleIndex f ch ≠ 2 * s.frame + 1) := by
    refine h.imp (fun hr heq => hr (remap_injective _ heq)) fun hne => ?_
    cases ch <;> simp <;> omega
  rw [State.roleSample, engineStep_phase, engineStep_sample_of_busy hb,
    nextFrame_sample_ne hc hm (hleft hb) (sampleIndex_lt hc hf ch) hne]
  rfl

/-- An engine step leaves the filter's value alone at every frame up to the one it computes (41_echo_filter R139). -/
theorem engineStep_filterValue (hi : s.Inv) (hb : s.busy = true) (hn : n ≤ s.frame) (ch : Channel) :
    (engineStep s).filterValue n ch = s.filterValue n ch := by
  have hlt : s.frame < s.cfg.chunkFrames := hi.frame_lt hb
  refine filterReadsNoStaleFrame s _ n ch hi.wellFormed (by omega) (engineStep_cfg s) (engineStep_phase s) ?_
  intro r f hf hr _
  exact engineStep_roleSample hi hb hf (hr.imp_right fun hlt => by omega) ch

/-- The Sample an engine step stores for a channel is the clipped value of the filter (41_echo_filter R128). -/
theorem engineStep_roleSample_loadOut (hi : s.Inv) (hb : s.busy = true) (ch : Channel) :
    ∃ u, (engineStep s).roleSample .loadOut s.frame ch = clippedSample u (s.filterValue s.frame ch) := by
  obtain ⟨hc, -, hleft, hm, -⟩ := hi
  obtain ⟨u, hu⟩ := nextFrame_sample_loadOut hc hm (hleft hb) ch
  refine ⟨u, ?_⟩
  rw [State.roleSample, engineStep_phase, engineStep_sample_of_busy hb, hu]

/-- An engine step raises `NANF` exactly when a channel's value is a NaN (41_echo_filter R129). -/
theorem engineStep_nanf_iff (hi : s.Inv) (hb : s.busy = true) :
    (engineStep s).nanf = true ↔ s.nanf = true ∨ ∃ ch, (s.filterValue s.frame ch).isNaN = true := by
  obtain ⟨hc, -, hleft, hm, -⟩ := hi
  rw [engineStep_of_busy s hb]
  exact nextFrame_nanf_iff hc hm (hleft hb)

/-- Frame `n` of `load_out` satisfies the difference equation in a channel: it holds the clipped value of the filter,
or `NANF` is set where that is a NaN (41_echo_filter R144). -/
def FrameComputed (t : State) (n : Nat) (ch : Channel) : Prop :=
  (∀ x, clip (t.filterValue n ch) = some x → t.roleSample .loadOut n ch = x)
    ∧ ((t.filterValue n ch).isNaN = true → t.nanf = true)

/-- An engine step computes the frame at `FRAME`. -/
theorem frameComputed_engineStep (hi : s.Inv) (hb : s.busy = true) (ch : Channel) :
    FrameComputed (engineStep s) s.frame ch := by
  have hvalue := engineStep_filterValue hi hb le_rfl ch
  refine ⟨fun x hx => ?_, fun hnan => ?_⟩
  · obtain ⟨u, hu⟩ := engineStep_roleSample_loadOut hi hb ch
    rw [hu]
    exact clippedSample_of_clip (hvalue ▸ hx) u
  · exact (engineStep_nanf_iff hi hb).2 (.inr ⟨ch, hvalue ▸ hnan⟩)

/-- An engine step leaves the frames before `FRAME` computed. -/
theorem FrameComputed.engineStep (h : FrameComputed s n ch) (hi : s.Inv) (hb : s.busy = true) (hn : n < s.frame) :
    FrameComputed (engineStep s) n ch := by
  have hlt : s.frame < s.cfg.chunkFrames := hi.frame_lt hb
  obtain ⟨hnumber, hnan⟩ := h
  rw [FrameComputed, engineStep_filterValue hi hb hn.le,
    engineStep_roleSample hi hb (r := .loadOut) (f := n) (by omega) (.inr (by omega))]
  exact ⟨hnumber, fun h => (engineStep_nanf_iff hi hb).2 (.inl (hnan h))⟩

/-- During a run the frames computed so far satisfy the difference equation, by induction on the engine's steps. -/
theorem engineSteps_frameComputed (hi : s.Inv) (hb : s.busy = true) {j : Nat} (hj : j ≤ s.cfg.chunkFrames - s.frame)
    (hlo : s.frame ≤ n) (hhi : n < s.frame + j) (ch : Channel) : FrameComputed (engineSteps j s) n ch := by
  induction j with
  | zero => omega
  | succ j ih =>
    obtain ⟨hframe, hbusy, -⟩ :=
      engineSteps_progress hb (hi.frame_lt hb) (show j ≤ s.cfg.chunkFrames - s.frame by omega)
    have hb' : (engineSteps j s).busy = true := by rw [hbusy, decide_eq_true (by omega)]
    have hi' := engineSteps_inv hi j
    rw [engineSteps_succ]
    rcases Nat.lt_or_ge n (s.frame + j) with hbefore | hnow
    · exact (ih (by omega) hbefore).engineStep hi' hb' (by omega)
    · obtain rfl : n = (engineSteps j s).frame := by omega
      exact frameComputed_engineStep hi' hb' ch

/-- Settles O26: at the run's last step every frame from the first on has been computed. -/
theorem runComputesEveryFrame : Obligations.RunComputesEveryFrame := by
  rintro s hi hb t rfl n hlo hhi ch
  exact engineSteps_frameComputed hi hb le_rfl hlo (by omega) ch

end Sys2Proof.Machine
end

section
/-! PROOFS. The number format: binary32 images and values, and which values have an image (00_scope R8(d), R11;
41_echo_filter R130, R131). -/

namespace Sys2Proof.Machine

/-! ## Magnitudes a binary32 number has -/

/-- The overflow threshold in units of `2^-149` is `2^277`. -/
theorem two_pow_lt_overflow {e : Nat} (h : e < 277) : 2 ^ e < 2 ^ 277 := by gcongr; decide

theorem overflow_le_two_pow {e : Nat} (h : 277 ≤ e) : 2 ^ 277 ≤ 2 ^ e := by gcongr; decide

theorem two_pow_mul_eq_overflow {d e : Nat} (h : d + e = 277) : 2 ^ d * 2 ^ e = 2 ^ 277 := by rw [← h, Nat.pow_add]

theorem magRepresentable_iff (mag : Nat) :
    magRepresentable mag = true ↔ mag % 2 ^ (Nat.log2 mag - 23) = 0 ∧ mag < 2 ^ 277 := by
  simp only [magRepresentable, Bool.and_eq_true, decide_eq_true_eq]

@[simp] theorem representable_fin (neg : Bool) (mag : Nat) :
    (Flt.fin neg mag).representable = magRepresentable mag := rfl

@[simp] theorem isNumber_fin (neg : Bool) (mag : Nat) : (Flt.fin neg mag).isNumber = magRepresentable mag := rfl

/-- The length of a number of 24 significant bits, shifted. -/
theorem log2_shifted {q e : Nat} (hlo : 2 ^ 23 ≤ q) (hhi : q < 2 ^ 24) : Nat.log2 (q * 2 ^ e) = 23 + e := by
  have hpos : 0 < 2 ^ e := Nat.two_pow_pos e
  rw [Nat.log2_eq_iff (Nat.mul_ne_zero (by omega) hpos.ne'), Nat.pow_add, show 23 + e + 1 = 24 + e by omega,
    Nat.pow_add]
  exact ⟨Nat.mul_le_mul_right _ hlo, Nat.mul_lt_mul_of_pos_right hhi hpos⟩

/-- A number longer than its kept bits is a significand of 24 bits, shifted, and what was dropped. -/
theorem significand_bounds {m : Nat} (h : 2 ^ 23 ≤ m) :
    2 ^ 23 ≤ m / 2 ^ (Nat.log2 m - 23) ∧ m / 2 ^ (Nat.log2 m - 23) < 2 ^ 24 := by
  have hne : m ≠ 0 := by omega
  have hlog : 23 ≤ Nat.log2 m := (Nat.le_log2 hne).2 h
  have hlo : 2 ^ Nat.log2 m ≤ m := Nat.log2_self_le hne
  have hhi : m < 2 ^ (Nat.log2 m + 1) := Nat.lt_log2_self
  obtain ⟨e, he⟩ : ∃ e, Nat.log2 m = 23 + e := Nat.exists_eq_add_of_le hlog
  rw [he, show 23 + e - 23 = e by omega]
  rw [he, Nat.pow_add] at hlo
  rw [he, show 23 + e + 1 = 24 + e by omega, Nat.pow_add] at hhi
  exact ⟨(Nat.le_div_iff_mul_le (Nat.two_pow_pos e)).2 hlo, Nat.div_lt_of_lt_mul (by rwa [Nat.mul_comm])⟩

/-- The magnitudes of binary32: 24 significant bits, shifted, below the overflow threshold (41_echo_filter R130). -/
theorem magRepresentable_shifted {q e : Nat} (hq : q ≤ 2 ^ 24) (hlt : q * 2 ^ e < 2 ^ 277) :
    magRepresentable (q * 2 ^ e) = true := by
  have hdvd : 2 ^ (Nat.log2 (q * 2 ^ e) - 23) ∣ q * 2 ^ e := by
    rcases Nat.lt_or_ge q (2 ^ 23) with hsmall | hlarge
    · have hlen : Nat.log2 (q * 2 ^ e) - 23 ≤ e := by
        rcases Nat.eq_zero_or_pos q with rfl | hpos
        · simp
        · have hne : q * 2 ^ e ≠ 0 := Nat.mul_ne_zero hpos.ne' (Nat.two_pow_pos e).ne'
          have : Nat.log2 (q * 2 ^ e) < 23 + e := by
            rw [Nat.log2_lt hne, Nat.pow_add]
            exact Nat.mul_lt_mul_of_pos_right hsmall (Nat.two_pow_pos e)
          omega
      exact (Nat.pow_dvd_pow 2 hlen).trans (Nat.dvd_mul_left _ _)
    · rcases Nat.lt_or_ge q (2 ^ 24) with hkept | hcarry
      · rw [log2_shifted hlarge hkept, show 23 + e - 23 = e by omega]
        exact Nat.dvd_mul_left _ _
      · obtain rfl : q = 2 ^ 24 := Nat.le_antisymm hq hcarry
        rw [← Nat.pow_add, Nat.log2_two_pow]
        exact Nat.pow_dvd_pow 2 (by omega)
  exact (magRepresentable_iff _).2 ⟨Nat.mod_eq_zero_of_dvd hdvd, hlt⟩

/-- The magnitudes below `2^24` are binary32's, and so are the zeros. -/
theorem magRepresentable_of_le {mag : Nat} (h : mag ≤ 2 ^ 24) : magRepresentable mag = true := by
  rw [← Nat.mul_one mag]
  exact magRepresentable_shifted (e := 0) h (by
    rw [Nat.pow_zero, Nat.mul_one]
    exact h.trans_lt (two_pow_lt_overflow (by decide)))

/-- A magnitude of binary32 from `2^23` on is a significand of 24 bits, shifted by 253 at most. -/
theorem exists_significand {mag : Nat} (h : magRepresentable mag = true) (hlo : 2 ^ 23 ≤ mag) :
    ∃ q e, mag = q * 2 ^ e ∧ 2 ^ 23 ≤ q ∧ q < 2 ^ 24 ∧ e ≤ 253 ∧ Nat.log2 mag - 23 = e := by
  obtain ⟨hmod, hlt⟩ := (magRepresentable_iff mag).1 h
  obtain ⟨hq, hq'⟩ := significand_bounds hlo
  have hne : mag ≠ 0 := fun h0 => by simp [h0] at hlo
  have hlog : Nat.log2 mag < 277 :=
    lt_of_not_ge fun hge => hlt.not_ge ((overflow_le_two_pow hge).trans (Nat.log2_self_le hne))
  clear hlt
  exact ⟨_, _, (Nat.div_mul_cancel (Nat.dvd_of_mod_eq_zero hmod)).symm, hq, hq', by omega, rfl⟩

/-! ## Images -/

/-- A word is its three fields put together (41_echo_filter R130). -/
theorem packWord_fields (w : Word) :
    packWord (w.getLsbD 31) (w.extractLsb' 23 8).toNat (w.extractLsb' 0 23).toNat = w := by
  rw [packWord, BitVec.ofNat_toNat, BitVec.ofNat_toNat, BitVec.setWidth_eq, BitVec.setWidth_eq]
  apply BitVec.eq_of_getLsbD_eq
  intro j hj
  simp only [BitVec.getLsbD_append, BitVec.getLsbD_extractLsb', BitVec.getLsbD_ofBool]
  rcases Nat.lt_or_ge j 23 with hfrac | hfrac
  · simp [hfrac]
  · rcases Nat.lt_or_ge j 31 with hexpo | hsign
    · simp [hfrac.not_gt, show j - 23 < 8 by omega, show 23 + (j - 23) = j by omega]
    · obtain rfl : j = 31 := by omega
      simp

/-- The fields of an image are the ones it was put together from. -/
theorem fields_packWord (neg : Bool) {expo frac : Nat} (he : expo < 256) (hf : frac < 2 ^ 23) :
    (packWord neg expo frac).getLsbD 31 = neg ∧ ((packWord neg expo frac).extractLsb' 23 8).toNat = expo
      ∧ ((packWord neg expo frac).extractLsb' 0 23).toNat = frac := by
  have hfrac : (packWord neg expo frac).extractLsb' 0 23 = BitVec.ofNat 23 frac := BitVec.extractLsb'_append_eq_right
  have hexpo : (packWord neg expo frac).extractLsb' 23 8 = BitVec.ofNat 8 expo := by
    apply BitVec.eq_of_getLsbD_eq
    intro j hj
    rw [BitVec.getLsbD_extractLsb', packWord, BitVec.getLsbD_append, BitVec.getLsbD_append]
    simp [hj]
  refine ⟨?_, ?_, ?_⟩
  · rw [packWord, BitVec.getLsbD_append, BitVec.getLsbD_append]
    simp
  · rw [hexpo, BitVec.toNat_ofNat, Nat.mod_eq_of_lt he]
  · rw [hfrac, BitVec.toNat_ofNat, Nat.mod_eq_of_lt hf]

/-- The value of an image, by its fields (41_echo_filter R130). -/
theorem f32_packWord (neg : Bool) {expo frac : Nat} (he : expo < 256) (hf : frac < 2 ^ 23) :
    f32 (packWord neg expo frac) =
      if expo = 255 then if frac = 0 then .inf neg else .nan neg frac
      else if expo = 0 then .fin neg frac
      else .fin neg ((2 ^ 23 + frac) * 2 ^ (expo - 1)) := by
  obtain ⟨hsign, hexpo, hfrac⟩ := fields_packWord neg he hf
  simp only [f32, hsign, hexpo, hfrac]

/-- Every word is the image of its fields, which are in range. -/
theorem exists_packWord (w : Word) : ∃ neg expo frac, expo < 256 ∧ frac < 2 ^ 23 ∧ w = packWord neg expo frac :=
  ⟨_, _, _, (w.extractLsb' 23 8).isLt, (w.extractLsb' 0 23).isLt, (packWord_fields w).symm⟩

/-- The image of a normal number: its significand without the leading bit, and its shift plus 1. -/
theorem bits32_normal (neg : Bool) {frac e : Nat} (hf : frac < 2 ^ 23) :
    bits32 (.fin neg ((2 ^ 23 + frac) * 2 ^ e)) = packWord neg (e + 1) frac := by
  have hpos : 0 < 2 ^ e := Nat.two_pow_pos e
  have hlarge : ¬(2 ^ 23 + frac) * 2 ^ e < 2 ^ 23 :=
    Nat.not_lt.2 (le_mul_of_le_of_one_le (Nat.le_add_right _ _) hpos)
  have hshift : Nat.log2 ((2 ^ 23 + frac) * 2 ^ e) - 23 = e := by
    rw [log2_shifted (Nat.le_add_right _ _) (by omega)]
    omega
  simp only [bits32, hlarge, if_false, hshift, Nat.mul_div_cancel _ hpos, Nat.add_sub_cancel_left]

/-- `bits32` gives back every word, by the class of its exponent field (00_scope R11). -/
theorem bits32_f32 (w : Word) : bits32 (f32 w) = w := by
  obtain ⟨neg, expo, frac, he, hf, rfl⟩ := exists_packWord w
  rw [f32_packWord neg he hf]
  split_ifs with h255 hzero hsub
  · rw [h255, hzero]; rfl
  · rw [h255]; rfl
  · rw [hsub, bits32, if_pos hf]
  · rw [bits32_normal neg hf, show expo - 1 + 1 = expo by omega]

/-- `f32` gives back every value that has an image (00_scope R11). -/
theorem f32_bits32 {v : Flt} (h : v.representable = true) : f32 (bits32 v) = v := by
  cases v with
  | nan neg frac =>
    simp only [Flt.representable, Bool.and_eq_true, decide_eq_true_eq] at h
    obtain ⟨hne, hlt⟩ := h
    rw [bits32, f32_packWord neg (by decide) hlt, if_pos rfl, if_neg hne]
  | inf neg => rw [bits32, f32_packWord neg (by decide) (by decide), if_pos rfl, if_pos rfl]
  | fin neg mag =>
    rcases Nat.lt_or_ge mag (2 ^ 23) with hsub | hnormal
    · rw [bits32, if_pos hsub, f32_packWord neg (by decide) hsub, if_neg (by decide), if_pos rfl]
    · obtain ⟨q, e, rfl, hlo, hhi, he, -⟩ := exists_significand h hnormal
      obtain ⟨frac, rfl⟩ : ∃ frac, q = 2 ^ 23 + frac := Nat.exists_eq_add_of_le hlo
      rw [bits32_normal neg (by omega), f32_packWord neg (by omega) (by omega), if_neg (by omega), if_neg (by omega),
        Nat.add_sub_cancel]

/-- Every word's value has an image: the word (00_scope R11). -/
theorem representable_f32 (w : Word) : (f32 w).representable = true := by
  obtain ⟨neg, expo, frac, he, hf, rfl⟩ := exists_packWord w
  rw [f32_packWord neg he hf]
  split_ifs with h255 hzero hsub
  · rfl
  · rw [Flt.representable, Bool.and_eq_true]
    exact ⟨decide_eq_true hzero, decide_eq_true hf⟩
  · rw [representable_fin]
    exact magRepresentable_of_le (by omega)
  · rw [representable_fin]
    refine magRepresentable_shifted (by omega) ?_
    calc (2 ^ 23 + frac) * 2 ^ (expo - 1) < 2 ^ 24 * 2 ^ (expo - 1) :=
          Nat.mul_lt_mul_of_pos_right (by omega) (Nat.two_pow_pos _)
      _ ≤ 2 ^ 24 * 2 ^ 253 := Nat.mul_le_mul_left _ (Nat.pow_le_pow_right (by decide) (by omega))
      _ = 2 ^ 277 := two_pow_mul_eq_overflow rfl

/-- A coefficient is a finite number: its exponent field is below 255 (00_scope R8(d)). -/
theorem exists_coefValue_fin (k : Coef) : ∃ neg mag, coefValue k = .fin neg mag := by
  have hexpo := k.expo.isLt
  rw [coefValue, coefWord, f32_packWord k.neg (by omega) k.frac.isLt, if_neg (by omega)]
  split_ifs <;> exact ⟨_, _, rfl⟩

/-! ## The operations give values that have an image -/

/-- How many low bits rounding drops of a number in units of `2^-(149 + sh)`: down to `2^-149`, or to 24 significant
bits (41_echo_filter R130). -/
def dropBits (m sh : Nat) : Nat := max sh (Nat.log2 m - 23)

/-- The quotient rounded to nearest, ties to even. -/
def roundEven (m d : Nat) : Nat :=
  if decide (d < 2 * (m % d)) || (decide (2 * (m % d) = d) && decide (m / d % 2 = 1)) then m / d + 1 else m / d

/-- The magnitude of a rounded value, before overflow is looked at. -/
def roundedMag (m sh : Nat) : Nat := roundEven m (2 ^ dropBits m sh) * 2 ^ (dropBits m sh - sh)

/-- Rounding is the rounded magnitude, or an infinity on overflow (41_echo_filter R130, R134). -/
theorem roundFlt_eq (neg : Bool) (m sh : Nat) :
    roundFlt neg m sh = if roundedMag m sh < 2 ^ 277 then .fin neg (roundedMag m sh) else .inf neg := rfl

/-- The rounded quotient is the quotient or the next number. -/
theorem roundEven_eq_or (m d : Nat) : roundEven m d = m / d ∨ roundEven m d = m / d + 1 := by
  unfold roundEven
  split_ifs
  · exact .inr rfl
  · exact .inl rfl

/-- The significand that rounding keeps has 24 bits at most. -/
theorem kept_lt (m sh : Nat) : m / 2 ^ dropBits m sh < 2 ^ 24 := by
  have hmono : m / 2 ^ dropBits m sh ≤ m / 2 ^ (Nat.log2 m - 23) :=
    Nat.div_le_div_left (Nat.pow_le_pow_right (by decide) (le_max_right _ _)) (Nat.two_pow_pos _)
  rcases Nat.lt_or_ge m (2 ^ 23) with hsmall | hlarge
  · have := Nat.div_le_self m (2 ^ (Nat.log2 m - 23))
    omega
  · exact hmono.trans_lt (significand_bounds hlarge).2

/-- The rounded significand is `2^24` at most. -/
theorem roundEven_le (m sh : Nat) : roundEven m (2 ^ dropBits m sh) ≤ 2 ^ 24 := by
  have := kept_lt m sh
  rcases roundEven_eq_or m (2 ^ dropBits m sh) with h | h <;> omega

/-- Rounding gives a value that has an image (41_echo_filter R130). -/
theorem representable_roundFlt (neg : Bool) (m sh : Nat) : (roundFlt neg m sh).representable = true := by
  rw [roundFlt_eq]
  split_ifs with hlt
  · rw [representable_fin]
    exact magRepresentable_shifted (roundEven_le m sh) hlt
  · rfl

/-- A product that is no NaN has an image (41_echo_filter R134). -/
theorem representable_productFlt {p q r : Flt} (h : productFlt p q = some r) : r.representable = true := by
  cases p with
  | nan => cases h
  | inf x =>
    cases q with
    | nan => cases h
    | inf y => cases h; rfl
    | fin y mag =>
      simp only [productFlt] at h
      split_ifs at h
      cases h
      rfl
  | fin x mag =>
    cases q with
    | nan => cases h
    | inf y =>
      simp only [productFlt] at h
      split_ifs at h
      cases h
      rfl
    | fin y mag' =>
      rw [productFlt, Option.some.injEq] at h
      exact h ▸ representable_roundFlt _ _ _

theorem representable_finSum (x y : Bool) (p q : Nat) : (finSum x y p q).representable = true := by
  unfold finSum
  split_ifs
  · rw [representable_fin]
    exact magRepresentable_of_le (Nat.zero_le _)
  · exact representable_roundFlt _ _ _

/-- A sum that is no NaN has an image (41_echo_filter R134). -/
theorem representable_sumFlt {p q r : Flt} (h : sumFlt p q = some r) : r.representable = true := by
  cases p with
  | nan => cases h
  | inf x =>
    cases q with
    | nan => cases h
    | inf y =>
      simp only [sumFlt] at h
      split_ifs at h
      cases h
      rfl
    | fin => cases h; rfl
  | fin x mag =>
    cases q with
    | nan => cases h
    | inf y => cases h; rfl
    | fin y mag' =>
      rw [sumFlt_fin, Option.some.injEq] at h
      exact h ▸ representable_finSum _ _ _ _

theorem representable_fmul (p q : Flt) : (fmul p q).representable = true := by
  unfold fmul
  split
  next r hr => exact representable_productFlt hr
  next => exact nanResult_representable _ _ _

theorem representable_fadd (p q : Flt) : (fadd p q).representable = true := by
  unfold fadd
  split
  next r hr => exact representable_sumFlt hr
  next => exact nanResult_representable _ _ _

theorem representable_fsub (p q : Flt) : (fsub p q).representable = true := by
  unfold fsub
  split
  next r hr => exact representable_sumFlt hr
  next => exact nanResult_representable _ _ _

/-! ## Exact values -/

/-- The value of a finite number is its signed magnitude in units of `2^-149`. -/
theorem value_fin (neg : Bool) (mag : Nat) : (Flt.fin neg mag).value = (signedMag neg mag : ℚ) / 2 ^ 149 := by
  cases neg <;> simp [Flt.value, signedMag]

/-- An integer is its sign and its magnitude. -/
theorem signedMag_natAbs (z : ℤ) : signedMag (decide (z < 0)) z.natAbs = z := by
  unfold signedMag
  split_ifs with h <;> simp only [decide_eq_true_eq] at h <;> omega

theorem signedMag_mul (neg : Bool) (m k : Nat) : signedMag neg (m * k) = signedMag neg m * k := by
  cases neg <;> simp [signedMag]

/-- Every `z * 2^-q` with `|z| ≤ 2^24` is the value of a number: `z` shifted (41_echo_filter R131). -/
theorem exists_number_of_scaled {z : ℤ} (hz : |z| ≤ 2 ^ 24) {q : Nat} (hq : q ≤ 149) :
    ∃ v : Flt, v.isNumber = true ∧ v.value = (z : ℚ) / 2 ^ q := by
  have habs : z.natAbs ≤ 2 ^ 24 := by rw [Int.abs_eq_natAbs] at hz; omega
  refine ⟨.fin (decide (z < 0)) (z.natAbs * 2 ^ (149 - q)), ?_, ?_⟩
  · rw [isNumber_fin]
    refine magRepresentable_shifted habs ?_
    have hshift : 2 ^ (149 - q) ≤ 2 ^ 149 := Nat.pow_le_pow_right (by decide) (by omega)
    calc z.natAbs * 2 ^ (149 - q) ≤ 2 ^ 24 * 2 ^ 149 := Nat.mul_le_mul habs hshift
      _ = 2 ^ 173 := (Nat.pow_add 2 24 149).symm
      _ < 2 ^ 277 := two_pow_lt_overflow (by decide)
  · rw [value_fin, signedMag_mul, signedMag_natAbs]
    push_cast
    rw [← pow_mul_pow_sub (2 : ℚ) hq]
    field_simp

/-- The exact value of an integer: its magnitude in units of `2^-149`. -/
theorem value_int (z : ℤ) : (Flt.fin (decide (z < 0)) (z.natAbs * 2 ^ 149)).value = (z : ℚ) := by
  rw [value_fin, signedMag_mul, signedMag_natAbs, Int.cast_mul, Int.cast_natCast, Nat.cast_pow, Nat.cast_ofNat]
  exact mul_div_cancel_right₀ _ (by positivity)

theorem value_toF (s : Sample) : (toF s).value = (s.toInt : ℚ) := value_int s.toInt

/-- A Sample has a magnitude of 15 bits at most (10_state R32). -/
theorem natAbs_toInt_le (s : Sample) : s.toInt.natAbs ≤ 2 ^ 15 := by
  have hlo : -32768 ≤ s.toInt := BitVec.le_toInt s
  have hhi : s.toInt < 32768 := BitVec.toInt_lt
  omega

theorem isNumber_toF (s : Sample) : (toF s).isNumber = true := by
  have habs := natAbs_toInt_le s
  rw [toF, isNumber_fin]
  refine magRepresentable_shifted (by omega) ?_
  calc s.toInt.natAbs * 2 ^ 149 ≤ 2 ^ 15 * 2 ^ 149 := Nat.mul_le_mul_right _ habs
    _ = 2 ^ 164 := (Nat.pow_add 2 15 149).symm
    _ < 2 ^ 277 := two_pow_lt_overflow (by decide)

/-- A number has an image. -/
theorem representable_of_isNumber {v : Flt} (h : v.isNumber = true) : v.representable = true := by
  cases v with
  | nan | inf => cases h
  | fin neg mag => exact h

/-- Settles O36: a Sample, and an integer of 24 bits, is a significand shifted by 149. -/
theorem toFIsExact : Obligations.ToFIsExact := by
  refine ⟨fun s => ⟨isNumber_toF s, value_toF s⟩, rfl, fun z hz => ?_⟩
  obtain ⟨v, hnumber, hvalue⟩ := exists_number_of_scaled hz (Nat.zero_le 149)
  exact ⟨v, hnumber, by rw [hvalue, pow_zero, div_one]⟩

/-- Settles O37: images are three fields, and the operations round to 24 bits or give a free NaN, which has an image. -/
theorem bitsAndValuesAgree : Obligations.BitsAndValuesAgree :=
  ⟨bits32_f32, fun _ => f32_bits32, representable_f32, fun x => representable_of_isNumber (isNumber_toF x),
    fun p q => ⟨representable_fmul p q, representable_fadd p q, representable_fsub p q⟩⟩

/-! ## Coefficients -/

/-- Under a configuration that breaks a constraint every step is refused (00_scope R8; log 3). -/
theorem step_of_bad_configuration {s : State} (h : ¬s.cfg.wellFormed = true) : step s = .refused .badConfiguration := by
  simp only [step, takeTurn, h, Bool.false_eq_true, if_false]

/-- The values that are no coefficients are those with exponent field 255 (00_scope R8(d)). -/
theorem coefOfWord_eq_none_iff (w : Word) : coefOfWord w = none ↔ (w.extractLsb' 23 8).toNat = 255 := by
  have hlt : (w.extractLsb' 23 8).toNat < 256 := (w.extractLsb' 23 8).isLt
  unfold coefOfWord
  split_ifs with h
  · exact iff_of_false (by simp) (by omega)
  · exact iff_of_true rfl (by omega)

/-- A word's value is a NaN or an infinity exactly when its exponent field is 255 (41_echo_filter R130). -/
theorem f32_not_finite_iff (w : Word) :
    ((f32 w).isNaN = true ∨ ∃ neg, f32 w = .inf neg) ↔ (w.extractLsb' 23 8).toNat = 255 := by
  simp only [f32]
  split_ifs with h255 hzero hsub
  · exact iff_of_true (.inr ⟨_, rfl⟩) h255
  · exact iff_of_true (.inl rfl) h255
  · exact iff_of_false (by simp [Flt.isNaN]) h255
  · exact iff_of_false (by simp [Flt.isNaN]) h255

/-- Settles O8: each constraint is a part of the configuration's check, and exponent field 255 is what no coefficient
has. -/
theorem badConfigurationIsRefused : Obligations.BadConfigurationIsRefused := by
  refine ⟨fun s h => step_of_bad_configuration fun hc => ?_, fun s h => step_of_bad_configuration fun hc => ?_,
    fun s h => step_of_bad_configuration fun hc => ?_,
    fun w => (f32_not_finite_iff w).trans (coefOfWord_eq_none_iff w).symm, exists_coefValue_fin⟩
  all_goals
    obtain ⟨hsize, heven, hm, hn, hdelay, hm15, hn16, -⟩ := (Config.wellFormed_iff s.cfg).1 hc
    omega

/-! ## Registers -/

/-- A coefficient register reads the coefficient's image (10_state R31). -/
theorem bits32_coefValue (k : Coef) : bits32 (coefValue k) = coefWord k := bits32_f32 _

/-- Settles O57: each register is read at its offset, and the images of the coefficients are their words. -/
theorem registersReadTheirContents : Obligations.RegistersReadTheirContents := by
  intro s hc
  obtain ⟨-, -, -, -, -, hm15, hn16, -⟩ := (Config.wellFormed_iff s.cfg).1 hc
  refine ⟨hostAccess_readReg (r := .status) rfl rfl, hostAccess_readReg (r := .phase) rfl rfl, ?frame,
    hostAccess_readReg (r := .map) rfl rfl, hostAccess_readReg (r := .clipin) rfl rfl, ?clipout, ?coefB, ?coefA,
    hostAccess_writeClipin s⟩
  case frame =>
    intro hlt
    exact ⟨_, hostAccess_readReg (r := .frame) rfl rfl, Nat.mod_eq_of_lt hlt⟩
  case clipout =>
    exact ⟨_, hostAccess_readReg (r := .clipout) rfl rfl, BitVec.toInt_signExtend_of_le (by decide)⟩
  case coefB =>
    intro k x hk hx
    have hread := hostAccess_readReg (s := s) (regAt_coefB rfl hk hm15) rfl
    rwa [State.readReg, coefB, hx, bits32_coefValue, ← Nat.add_assoc] at hread
  case coefA =>
    intro j x hj hx
    have hread := hostAccess_readReg (s := s) (regAt_coefA rfl hj hn16) rfl
    rwa [State.readReg, coefA, hx, bits32_coefValue, ← Nat.add_assoc] at hread

end Sys2Proof.Machine
end

section
/-! PROOFS. The clipper: rounding half away from zero, saturation, and the laws of the result (40_clipper R100 to
R107). -/

namespace Sys2Proof.Machine

variable {neg : Bool} {mag : Nat} {v : Flt} {x y : Sample}

/-- Saturation cuts off at the bounds of a Sample (40_clipper R100). -/
theorem toInt_saturate (r : ℤ) : (saturate r).toInt = max (-32768) (min 32767 r) := by
  unfold saturate
  split_ifs with hmax hmin
  · have hbound : (BitVec.ofInt 16 32767).toInt = 32767 := by decide
    omega
  · have hbound : (BitVec.ofInt 16 (-32768)).toInt = -32768 := by decide
    omega
  · rw [BitVec.toInt_ofInt_eq_self (by decide) (by simp; omega) (by simp; omega)]
    omega

/-- The Sample of a finite value, as an integer (40_clipper R101). -/
theorem toInt_of_clip_fin (h : clip (.fin neg mag) = some x) : x.toInt = max (-32768) (min 32767 (rha neg mag)) := by
  cases h
  exact toInt_saturate _

/-- Rounding by the sign, spelled out (40_clipper R101). -/
theorem rha_eq (neg : Bool) (mag : Nat) :
    rha neg mag
      = if neg then -(((2 * mag + 2 ^ 149) / 2 ^ 150 : Nat) : ℤ) else (((2 * mag + 2 ^ 149) / 2 ^ 150 : Nat) : ℤ) :=
  rfl

theorem signedMag_eq (neg : Bool) (mag : Nat) : signedMag neg mag = if neg then -(mag : ℤ) else (mag : ℤ) := rfl

/-- Rounding is odd (40_clipper R107). -/
theorem rha_not (neg : Bool) (mag : Nat) : rha (!neg) mag = -rha neg mag := by
  cases neg <;> simp [rha_eq]

/-- Rounding moves a value by 1/2 at most, in units of `2^-150` (40_clipper R101). -/
theorem rha_within_half (neg : Bool) (mag : Nat) :
    2 * signedMag neg mag - 2 ^ 149 ≤ rha neg mag * 2 ^ 150
      ∧ rha neg mag * 2 ^ 150 ≤ 2 * signedMag neg mag + 2 ^ 149 := by
  rw [rha_eq, signedMag_eq]
  cases neg <;> simp only [if_true, if_false, Bool.false_eq_true] <;> omega

/-- Rounding is monotone (40_clipper R107). -/
theorem rha_mono {a b : Bool} {p q : Nat} (h : signedMag a p ≤ signedMag b q) : rha a p ≤ rha b q := by
  rw [signedMag_eq, signedMag_eq] at h
  rw [rha_eq, rha_eq]
  cases a <;> cases b <;> simp only [if_true, if_false, Bool.false_eq_true] at h ⊢ <;> omega

/-- A value is its signed magnitude, in units of `2^-149`. -/
theorem value_mul (neg : Bool) (mag : Nat) : (Flt.fin neg mag).value * 2 ^ 149 = (signedMag neg mag : ℚ) := by
  rw [value_fin]
  exact div_mul_cancel₀ _ (by positivity)

/-- An integer bound on a value is a bound on its signed magnitude. -/
theorem le_value_iff (c : ℤ) (neg : Bool) (mag : Nat) :
    (c : ℚ) ≤ (Flt.fin neg mag).value ↔ c * 2 ^ 149 ≤ signedMag neg mag := by
  rw [value_fin, le_div_iff₀ (by positivity)]
  exact_mod_cast Iff.rfl

theorem value_le_iff (c : ℤ) (neg : Bool) (mag : Nat) :
    (Flt.fin neg mag).value ≤ (c : ℚ) ↔ signedMag neg mag ≤ c * 2 ^ 149 := by
  rw [value_fin, div_le_iff₀ (by positivity)]
  exact_mod_cast Iff.rfl

/-- Values are ordered as their signed magnitudes. -/
theorem value_le_value_iff {a b : Bool} {p q : Nat} :
    (Flt.fin a p).value ≤ (Flt.fin b q).value ↔ signedMag a p ≤ signedMag b q := by
  rw [value_fin, value_fin, div_le_div_iff_of_pos_right (by positivity)]
  exact_mod_cast Iff.rfl

theorem abs_value (neg : Bool) (mag : Nat) : |(Flt.fin neg mag).value| = (mag : ℚ) / 2 ^ 149 := by
  have hnonneg : (0 : ℚ) ≤ (mag : ℚ) / 2 ^ 149 := by positivity
  cases neg with
  | false => exact abs_of_nonneg hnonneg
  | true => rw [Flt.value, neg_div, abs_neg, abs_of_nonneg hnonneg]

/-- The floor of R101 is the integer division of `rha`. -/
theorem floor_abs_value (neg : Bool) (mag : Nat) :
    ⌊|(Flt.fin neg mag).value| + 1 / 2⌋ = (((2 * mag + 2 ^ 149) / 2 ^ 150 : Nat) : ℤ) := by
  have hfrac : |(Flt.fin neg mag).value| + 1 / 2 = ((2 * mag + 2 ^ 149 : Nat) : ℚ) / ((2 ^ 150 : Nat) : ℚ) := by
    rw [abs_value]
    push_cast
    field_simp
    ring
  rw [hfrac]
  exact_mod_cast Rat.floor_natCast_div_natCast _ _

/-- `rha` is R101's formula on the exact value. -/
theorem rha_eq_floor (neg : Bool) (mag : Nat) :
    rha neg mag = (if 0 ≤ (Flt.fin neg mag).value then 1 else -1) * ⌊|(Flt.fin neg mag).value| + 1 / 2⌋ := by
  rw [floor_abs_value, rha_eq]
  have hsign := le_value_iff 0 neg mag
  rw [Int.cast_zero, signedMag_eq] at hsign
  rw [if_congr hsign rfl rfl]
  cases neg with
  | false => simp
  | true =>
    simp only [if_true]
    split_ifs with hzero
    · obtain rfl : mag = 0 := by omega
      rfl
    · exact (neg_one_mul _).symm

/-- Settles O38: `rha` is the formula; a value at or beyond a bound rounds to the bound or beyond, and one between
rounds to a Sample. -/
theorem clipRoundsThenSaturates : Obligations.ClipRoundsThenSaturates := by
  refine ⟨?formula, rfl, rfl, clip_eq_none_iff, ?readings⟩
  case formula =>
    rintro neg mag v rfl
    refine ⟨_, rfl, ?_⟩
    rw [toInt_saturate, rha_eq_floor]
  case readings =>
    rintro neg mag v x rfl hx
    obtain ⟨hlo, hhi⟩ := rha_within_half neg mag
    have hupper := le_value_iff 32767 neg mag
    have hlower := value_le_iff (-32768) neg mag
    push_cast at hupper hlower
    rw [toInt_of_clip_fin hx, ← not_le, ← not_le, hupper, hlower]
    omega

/-- A value of magnitude below 1/2 rounds to 0 (40_clipper R105). -/
theorem rha_of_small (h : |(Flt.fin neg mag).value| < 1 / 2) : rha neg mag = 0 := by
  rw [abs_value, div_lt_div_iff₀ (by positivity) (by positivity)] at h
  have hmag : mag * 2 < 1 * 2 ^ 149 := by exact_mod_cast h
  have hzero : (2 * mag + 2 ^ 149) / 2 ^ 150 = 0 := by omega
  rw [rha_eq, hzero]
  cases neg <;> rfl

/-- A clipped Sample lies in a Sample's range (40_clipper R107). -/
theorem toInt_range (x : Sample) : -32768 ≤ x.toInt ∧ x.toInt ≤ 32767 := by
  have hlo : -32768 ≤ x.toInt := BitVec.le_toInt x
  have hhi : x.toInt < 32768 := BitVec.toInt_lt
  omega

/-- `clip` is odd where neither Sample is the lower bound (40_clipper R107). -/
theorem toInt_clip_fneg (hx : clip v = some x) (hy : clip (fneg v) = some y) (hx' : -32768 < x.toInt)
    (hy' : -32768 < y.toInt) : y.toInt = -x.toInt := by
  cases v with
  | nan => cases hx
  | inf neg =>
    cases neg with
    | false => cases hy; exact absurd hy' (by decide)
    | true => cases hx; exact absurd hx' (by decide)
  | fin neg mag =>
    have hx := toInt_of_clip_fin hx
    have hy := toInt_of_clip_fin hy
    rw [rha_not] at hy
    omega

/-- Inside the range `clip` errs by 1/2 at most (40_clipper R107). -/
theorem abs_clip_sub_value_le (hx : clip (.fin neg mag) = some x) (hlo : -32768 ≤ (Flt.fin neg mag).value)
    (hhi : (Flt.fin neg mag).value ≤ 32767) : |(x.toInt : ℚ) - (Flt.fin neg mag).value| ≤ 1 / 2 := by
  obtain ⟨hbelow, habove⟩ := rha_within_half neg mag
  have hlo' := (le_value_iff (-32768) neg mag).1 (by exact_mod_cast hlo)
  have hhi' := (value_le_iff 32767 neg mag).1 (by exact_mod_cast hhi)
  have hround : x.toInt = rha neg mag := by
    rw [toInt_of_clip_fin hx]
    omega
  have hbelow' : (2 * signedMag neg mag - 2 ^ 149 : ℚ) ≤ rha neg mag * 2 ^ 150 := by exact_mod_cast hbelow
  have habove' : (rha neg mag * 2 ^ 150 : ℚ) ≤ 2 * signedMag neg mag + 2 ^ 149 := by exact_mod_cast habove
  rw [← value_mul] at hbelow' habove'
  rw [hround, abs_le]
  constructor <;> linarith

/-- Settles O40: the laws of `rha`, cut off at the bounds. -/
theorem clipLaws : Obligations.ClipLaws := by
  refine ⟨?small, ?monotone, ?between, fun v x y => toInt_clip_fneg, fun _ x _ => toInt_range x,
    fun neg mag x => abs_clip_sub_value_le⟩
  case small =>
    intro neg mag h
    rw [clip, rha_of_small h]
    rfl
  case monotone =>
    intro a b p q x y hle hx hy
    have hmono := rha_mono (value_le_value_iff.1 hle)
    rw [toInt_of_clip_fin hx, toInt_of_clip_fin hy]
    omega
  case between =>
    intro v x lo hi _ hlo hhi
    cases hlo
    cases hhi
    exact toInt_range x

end Sys2Proof.Machine
end

section
/-! PROOFS. Silence in gives silence out, whatever the coefficients (41_echo_filter R140). -/

namespace Sys2Proof.Machine

variable {s t u : State} {v w : Flt}

/-! ## Arithmetic on zeros -/

/-- A zero of either sign. -/
def Flt.IsZero (v : Flt) : Prop := ∃ neg, v = .fin neg 0

/-- Rounding fixes the zeros. -/
theorem roundFlt_zero (neg : Bool) (sh : Nat) : roundFlt neg 0 sh = .fin neg 0 := by
  have hmag : roundedMag 0 sh = 0 := by simp [roundedMag, roundEven]
  rw [roundFlt_eq, hmag, if_pos (by positivity)]

/-- A finite value times the value of the Sample 0 is a zero (41_echo_filter R140). -/
theorem isZero_fmul_toF_zero (neg : Bool) (mag : Nat) : (fmul (.fin neg mag) (toF 0#16)).IsZero := by
  have hzero : toF 0#16 = .fin false 0 := rfl
  rw [hzero, fmul_fin, Nat.mul_zero, roundFlt_zero]
  exact ⟨_, rfl⟩

/-- The sum of two zeros is a zero. -/
theorem Flt.IsZero.fadd (hv : v.IsZero) (hw : w.IsZero) : (fadd v w).IsZero := by
  obtain ⟨x, rfl⟩ := hv
  obtain ⟨y, rfl⟩ := hw
  rw [fadd_fin]
  exact ⟨x && y, by cases x <;> cases y <;> rfl⟩

/-- The difference of two zeros is a zero. -/
theorem Flt.IsZero.fsub (hv : v.IsZero) (hw : w.IsZero) : (fsub v w).IsZero := by
  obtain ⟨x, rfl⟩ := hv
  obtain ⟨y, rfl⟩ := hw
  rw [fsub_fin]
  exact ⟨x && !y, by cases x <;> cases y <;> rfl⟩

/-- A sum of zeros is a zero. -/
theorem isZero_sumTerms {term : Nat → Flt} {count : Nat} (h : ∀ k, k < count → (term k).IsZero) :
    (sumTerms term count).IsZero := by
  induction count with
  | zero => exact ⟨false, rfl⟩
  | succ count ih => exact (ih fun k hk => h k (by omega)).fadd (h count (by omega))

/-- A zero clips to 0 (40_clipper R105). -/
theorem Flt.IsZero.clip (h : v.IsZero) : clip v = some 0#16 := by
  obtain ⟨neg, rfl⟩ := h
  cases neg <;> rfl

theorem Flt.IsZero.isNaN (h : v.IsZero) : v.isNaN = false := by
  obtain ⟨neg, rfl⟩ := h
  rfl

/-- Every coefficient the filter asks for is finite (00_scope R8(d)). -/
theorem exists_coefB_fin (c : Config) (k : Nat) : ∃ neg mag, coefB c k = .fin neg mag := by
  unfold coefB
  split
  · exact exists_coefValue_fin _
  · exact ⟨false, 0, rfl⟩

theorem exists_coefA_fin (c : Config) (j : Nat) : ∃ neg mag, coefA c j = .fin neg mag := by
  unfold coefA
  split
  · exact exists_coefValue_fin _
  · exact ⟨false, 0, rfl⟩

/-! ## A silent run -/

/-- Every Sample the filter can read at frame `n` is 0 (41_echo_filter R139). -/
def SilentBefore (t : State) (n : Nat) : Prop :=
  ∀ r f ch, f < t.cfg.chunkFrames → r ≠ .playOut → r ≠ .loadOut ∨ f < n → t.roleSample r f ch = 0#16

/-- On silence the filter's value is a zero, whatever the coefficients (41_echo_filter R140). -/
theorem SilentBefore.isZero_filterValue {n : Nat} (h : SilentBefore t n) (hc : t.cfg.wellFormed = true)
    (hn : n < t.cfg.chunkFrames) (ch : Channel) : (t.filterValue n ch).IsZero := by
  refine Flt.IsZero.fsub (isZero_sumTerms fun k hk => ?input) (isZero_sumTerms fun j hj => ?output)
  case input =>
    obtain ⟨r, f, hf, hload, hplay, hreads⟩ := tapX_reads hc hn (Nat.lt_succ_iff.1 hk)
    obtain ⟨neg, mag, hcoef⟩ := exists_coefB_fin t.cfg k
    rw [hreads t rfl, h r f ch hf hplay (.inl hload), hcoef]
    exact isZero_fmul_toF_zero neg mag
  case output =>
    obtain ⟨r, f, hf, hload, hplay, hreads⟩ := tapY_reads hc hn (Nat.le_add_left 1 j) hj
    obtain ⟨neg, mag, hcoef⟩ := exists_coefA_fin t.cfg j
    rw [hreads t rfl, h r f ch hf hplay hload, hcoef]
    exact isZero_fmul_toF_zero neg mag

/-- An engine step on silence stores a silent frame and raises nothing (41_echo_filter R140). -/
theorem SilentBefore.engineStep (h : SilentBefore s s.frame) (hi : s.Inv) (hb : s.busy = true) :
    SilentBefore (engineStep s) (engineStep s).frame ∧ (engineStep s).nanf = s.nanf := by
  have hzero (ch : Channel) : (s.filterValue s.frame ch).IsZero :=
    h.isZero_filterValue hi.wellFormed (hi.frame_lt hb) ch
  refine ⟨fun r f ch hf hplay hread => ?_, ?_⟩
  · rw [engineStep_cfg] at hf
    rw [engineStep_frame_of_busy hb] at hread
    by_cases hnow : r = .loadOut ∧ f = s.frame
    · obtain ⟨rfl, rfl⟩ := hnow
      obtain ⟨u, hu⟩ := engineStep_roleSample_loadOut hi hb ch
      rw [hu]
      exact clippedSample_of_clip (hzero ch).clip u
    · rw [engineStep_roleSample hi hb hf (not_and_or.1 hnow)]
      refine h r f ch hf hplay ((not_and_or.1 hnow).elim .inl fun hne => ?_)
      exact hread.imp_right fun hlt => by omega
  · have hnan : ¬∃ ch, (s.filterValue s.frame ch).isNaN = true := by
      rintro ⟨ch, hch⟩
      rw [(hzero ch).isNaN] at hch
      cases hch
    rw [Bool.eq_iff_iff, engineStep_nanf_iff hi hb, or_iff_left hnan]

/-- Silence lasts along a run, by induction on the engine's steps (41_echo_filter R140). -/
theorem SilentBefore.engineSteps (h : SilentBefore s s.frame) (hi : s.Inv) (hb : s.busy = true) {j : Nat}
    (hj : j ≤ s.cfg.chunkFrames - s.frame) :
    SilentBefore (engineSteps j s) (engineSteps j s).frame ∧ (engineSteps j s).nanf = s.nanf := by
  induction j with
  | zero => exact ⟨h, rfl⟩
  | succ j ih =>
    obtain ⟨hsilent, hnanf⟩ := ih (by omega)
    obtain ⟨-, hbusy, -⟩ := engineSteps_progress hb (hi.frame_lt hb) (show j ≤ s.cfg.chunkFrames - s.frame by omega)
    have hb' : (Machine.engineSteps j s).busy = true := by rw [hbusy, decide_eq_true (by omega)]
    rw [engineSteps_succ, ← hnanf]
    exact hsilent.engineStep (engineSteps_inv hi j) hb'

/-- A chunk of an allowed configuration is whole frames of two channels (41_echo_filter R122). -/
theorem exists_frame {c : Config} (hc : c.wellFormed = true) {i : Nat} (hi : i < c.bufferSize) :
    ∃ f ch, f < c.chunkFrames ∧ sampleIndex f ch = i := by
  obtain ⟨hsize, -⟩ := Config.bufferSize_eq hc
  rcases Nat.even_or_odd' i with ⟨f, rfl | rfl⟩
  · exact ⟨f, .left, by omega, sampleIndex_left f⟩
  · exact ⟨f, .right, by omega, sampleIndex_right f⟩

/-- Settles O28: silence lasts to the end of the run, where it covers all of `load_out`. -/
theorem silenceIsAFixedPoint : Obligations.SilenceIsAFixedPoint := by
  rintro s hi hb hframe hcurr hprev hfeedback t rfl
  have hc := hi.wellFormed
  have hstart : SilentBefore s s.frame := by
    rintro r f ch hf hplay hread
    have hlt := sampleIndex_lt hc hf ch
    cases r with
    | currIn => exact hcurr _ hlt
    | prevIn => exact hprev _ hlt
    | feedbackOut => exact hfeedback _ hlt
    | playOut => exact absurd rfl hplay
    | loadOut => simp [hframe] at hread
  have hall : s.cfg.chunkFrames ≤ s.cfg.chunkFrames - s.frame := by rw [hframe]; exact le_rfl
  obtain ⟨hsilent, hnanf⟩ := hstart.engineSteps hi hb hall
  obtain ⟨hend, -, hcfg, hphase⟩ := engineSteps_progress hb (hi.frame_lt hb) hall
  refine ⟨fun i hlt => ?_, hnanf⟩
  rw [hcfg] at hlt
  obtain ⟨f, ch, hf, rfl⟩ := exists_frame hc hlt
  rw [← hphase]
  exact hsilent .loadOut f ch (hcfg.symm ▸ hf) (by simp) (.inr (by omega))

end Sys2Proof.Machine
end

section
/-! PROOFS. Each operation is the exact result rounded once, to nearest, ties to even (41_echo_filter R130, R134). -/

namespace Sys2Proof.Machine

/-! ## Rounding on natural numbers -/

/-- No multiple of `d` is nearer to `m` than the rounded quotient's, and where one is as near the rounded quotient is
even or the same: the number `y` lies outside the gap of the grid around `m`. -/
theorem roundEven_nearest {m d y : Nat} (hd : 0 < d) (hy : y ≤ m / d * d ∨ (m / d + 1) * d ≤ y) :
    |((roundEven m d * d : Nat) : ℤ) - m| ≤ |(y : ℤ) - m|
      ∧ (|(y : ℤ) - m| = |((roundEven m d * d : Nat) : ℤ) - m| → y = roundEven m d * d ∨ roundEven m d % 2 = 0) := by
  have hm : m / d * d + m % d = m := Nat.div_add_mod' m d
  have hr : m % d < d := Nat.mod_lt m hd
  simp only [Int.abs_eq_natAbs]
  unfold roundEven
  simp only [Bool.or_eq_true, Bool.and_eq_true, decide_eq_true_eq]
  rw [Nat.add_mul, Nat.one_mul] at hy
  generalize m / d = q at *
  generalize m % d = r at *
  split_ifs with hup
  · rw [Nat.add_mul, Nat.one_mul]
    generalize q * d = p at *
    omega
  · generalize q * d = p at *
    omega

/-- Where bits below `2^-149` are not all that is dropped, 24 significant bits are kept. -/
theorem le_kept {m sh : Nat} (h : sh < dropBits m sh) : 2 ^ 23 ≤ m / 2 ^ dropBits m sh := by
  have hdrop : dropBits m sh = Nat.log2 m - 23 := by
    unfold dropBits at h ⊢
    omega
  have hlarge : 2 ^ 23 ≤ m := by
    have hne : m ≠ 0 := by
      rintro rfl
      simp [dropBits] at h
    exact (Nat.le_log2 hne).1 (by omega)
  rw [hdrop]
  exact (significand_bounds hlarge).1

/-- No magnitude of binary32 falls inside the gap that rounding looks at (41_echo_filter R130). -/
theorem outside_gap (m : Nat) {sh y : Nat} (hy : y % 2 ^ (Nat.log2 y - 23) = 0) :
    y * 2 ^ sh ≤ m / 2 ^ dropBits m sh * 2 ^ dropBits m sh
      ∨ (m / 2 ^ dropBits m sh + 1) * 2 ^ dropBits m sh ≤ y * 2 ^ sh := by
  obtain ⟨e, he⟩ : ∃ e, dropBits m sh = e + sh := ⟨dropBits m sh - sh, by unfold dropBits; omega⟩
  have hkept : 0 < e → 2 ^ 23 ≤ m / 2 ^ dropBits m sh := fun h => le_kept (by omega)
  rw [he] at hkept ⊢
  generalize m / 2 ^ (e + sh) = q at *
  rw [Nat.pow_add, ← Nat.mul_assoc, ← Nat.mul_assoc]
  by_cases hle : y ≤ q * 2 ^ e
  · exact .inl (Nat.mul_le_mul_right _ hle)
  · have hdvd : 2 ^ e ∣ y := by
      rcases Nat.eq_zero_or_pos e with rfl | hpos
      · exact one_dvd y
      · have hlarge : 2 ^ (23 + e) ≤ y := by
          rw [Nat.pow_add]
          exact (Nat.mul_le_mul_right _ (hkept hpos)).trans (by omega)
        have hlen : 23 + e ≤ Nat.log2 y := (Nat.le_log2 (by omega)).2 hlarge
        exact (Nat.pow_dvd_pow 2 (by omega)).trans (Nat.dvd_of_mod_eq_zero hy)
    obtain ⟨k, rfl⟩ := hdvd
    rw [Nat.mul_comm (2 ^ e) k] at hle ⊢
    have hk : q + 1 ≤ k := Nat.lt_of_mul_lt_mul_right (Nat.lt_of_not_le hle)
    exact .inr (Nat.mul_le_mul_right _ (Nat.mul_le_mul_right _ hk))

/-- The rounded magnitude in the units of the exact value. -/
theorem roundedMag_mul (m sh : Nat) :
    roundedMag m sh * 2 ^ sh = roundEven m (2 ^ dropBits m sh) * 2 ^ dropBits m sh := by
  have hle : sh ≤ dropBits m sh := le_max_left _ _
  rw [roundedMag, Nat.mul_assoc, ← Nat.pow_add, Nat.sub_add_cancel hle]

/-- An even rounded quotient is an even significand. -/
theorem evenSignificand_of_even (neg : Bool) {m sh : Nat} (h : roundEven m (2 ^ dropBits m sh) % 2 = 0) :
    (Flt.fin neg (roundedMag m sh)).evenSignificand = true := by
  rw [Flt.evenSignificand, decide_eq_true_eq, roundedMag]
  have hle := roundEven_le m sh
  have hkept : sh < dropBits m sh → 2 ^ 23 ≤ roundEven m (2 ^ dropBits m sh) := fun hlt => by
    have := le_kept hlt
    rcases roundEven_eq_or m (2 ^ dropBits m sh) with h | h <;> omega
  generalize roundEven m (2 ^ dropBits m sh) = k at *
  obtain ⟨e, he⟩ : ∃ e, dropBits m sh - sh = e := ⟨_, rfl⟩
  rw [he]
  rcases Nat.lt_or_ge k (2 ^ 23) with hsmall | hlarge
  · obtain rfl : e = 0 := by omega
    have hlog : Nat.log2 k - 23 = 0 := by
      rcases Nat.eq_zero_or_pos k with rfl | hpos
      · simp
      · have := (Nat.log2_lt hpos.ne').2 hsmall
        omega
    simp [hlog, h]
  · rcases Nat.lt_or_ge k (2 ^ 24) with hlt | hcarry
    · rw [log2_shifted hlarge hlt, show 23 + e - 23 = e by omega, Nat.mul_div_cancel _ (Nat.two_pow_pos e), h]
    · obtain rfl : k = 2 ^ 24 := Nat.le_antisymm hle hcarry
      have hshift : 2 ^ 24 * 2 ^ e = 2 ^ 23 * 2 ^ (e + 1) := by rw [Nat.pow_succ']; omega
      rw [hshift, log2_shifted le_rfl (by decide), show 23 + (e + 1) - 23 = e + 1 by omega,
        Nat.mul_div_cancel _ (Nat.two_pow_pos _)]
      rfl

/-- The overflow threshold in units of half the last place of the greatest finite magnitude. -/
theorem overflow_mul (sh : Nat) : 2 ^ 277 * 2 ^ sh = 2 ^ 25 * 2 ^ (252 + sh) := by
  rw [← two_pow_mul_eq_overflow (show 25 + 252 = 277 from rfl), Nat.mul_assoc, ← Nat.pow_add]

/-- Below the midpoint rounding does not overflow: the greatest finite magnitude is nearer than the threshold. -/
theorem roundedMag_lt_of_lt {m sh : Nat} (h : m < (2 ^ 25 - 1) * 2 ^ (252 + sh)) : roundedMag m sh < 2 ^ 277 := by
  by_contra hover
  have hmul := Nat.mul_le_mul_right (2 ^ sh) (Nat.le_of_not_lt hover)
  rw [roundedMag_mul, overflow_mul] at hmul
  clear hover
  have hgreatest : (2 ^ 24 - 1) * 2 ^ 253 * 2 ^ sh = (2 ^ 25 - 2) * 2 ^ (252 + sh) := by
    rw [Nat.pow_add, ← Nat.mul_assoc]
    rfl
  have hmod : (2 ^ 24 - 1) * 2 ^ 253 % 2 ^ (Nat.log2 ((2 ^ 24 - 1) * 2 ^ 253) - 23) = 0 := by
    rw [log2_shifted (by decide) (by decide)]
    exact Nat.mul_mod_left _ _
  obtain ⟨hnear, -⟩ := roundEven_nearest (Nat.two_pow_pos _) (outside_gap m (sh := sh) hmod)
  rw [hgreatest, Int.abs_eq_natAbs, Int.abs_eq_natAbs] at hnear
  omega

/-- From the midpoint on rounding overflows: the significand is rounded up to `2^24`, or is longer. -/
theorem overflow_le_roundedMag {m sh : Nat} (h : (2 ^ 25 - 1) * 2 ^ (252 + sh) ≤ m) : 2 ^ 277 ≤ roundedMag m sh := by
  have hlarge : 2 ^ (276 + sh) ≤ m := by
    have hsplit : 2 ^ (276 + sh) = 2 ^ 24 * 2 ^ (252 + sh) := by rw [← Nat.pow_add]; congr 1; omega
    rw [hsplit]
    exact (Nat.mul_le_mul_right _ (by decide)).trans h
  have hlog : 276 + sh ≤ Nat.log2 m := (Nat.le_log2 (by have := Nat.two_pow_pos (276 + sh); omega)).2 hlarge
  have hdrop : dropBits m sh = max sh (Nat.log2 m - 23) := rfl
  obtain ⟨e, he⟩ : ∃ e, dropBits m sh = 253 + e + sh := ⟨dropBits m sh - 253 - sh, by omega⟩
  have hkept := le_kept (show sh < dropBits m sh by omega)
  have hshift : dropBits m sh - sh = 253 + e := by omega
  rw [roundedMag, hshift]
  rcases Nat.eq_zero_or_pos e with rfl | hpos
  · have hround : 2 ^ 24 ≤ roundEven m (2 ^ dropBits m sh) := by
      have hunit : 2 ^ dropBits m sh = 2 * 2 ^ (252 + sh) := by rw [he, ← Nat.pow_succ']; congr 1; omega
      have hge : 2 ^ 24 - 1 ≤ m / 2 ^ dropBits m sh :=
        (Nat.le_div_iff_mul_le (Nat.two_pow_pos _)).2 (by rw [hunit]; omega)
      have hquot : m / 2 ^ dropBits m sh = 2 ^ 24 - 1 := by
        have := kept_lt m sh
        omega
      have hrem : 2 ^ dropBits m sh ≤ 2 * (m % 2 ^ dropBits m sh) := by
        have hdivmod := Nat.div_add_mod' m (2 ^ dropBits m sh)
        rw [hquot] at hdivmod
        omega
      have hup : roundEven m (2 ^ dropBits m sh) = m / 2 ^ dropBits m sh + 1 := by
        refine if_pos ?_
        simp only [hquot, Bool.or_eq_true, Bool.and_eq_true, decide_eq_true_eq]
        omega
      rw [hup, hquot]
      decide
    calc 2 ^ 277 = 2 ^ 24 * 2 ^ (253 + 0) := (two_pow_mul_eq_overflow rfl).symm
      _ ≤ _ := Nat.mul_le_mul_right _ hround
  · have hround : 2 ^ 23 ≤ roundEven m (2 ^ dropBits m sh) := by
      rcases roundEven_eq_or m (2 ^ dropBits m sh) with h | h <;> omega
    calc 2 ^ 277 = 2 ^ 23 * 2 ^ 254 := (two_pow_mul_eq_overflow rfl).symm
      _ ≤ _ := Nat.mul_le_mul hround (Nat.pow_le_pow_right (by decide) (by omega))

end Sys2Proof.Machine
end

section
/-! PROOFS. The operations on exact values: rounded once, bounded, and exact where the result is a number
(41_echo_filter R130, R134, R148). -/

namespace Sys2Proof.Machine

/-! ## Rounding on rationals -/

/-- A finite value in units of `2^-(149 + sh)`. -/
theorem value_fin_shifted (neg : Bool) (mag sh : Nat) :
    (Flt.fin neg mag).value = (signedMag neg (mag * 2 ^ sh) : ℚ) / 2 ^ (149 + sh) := by
  rw [value_fin, signedMag_mul, pow_add]
  push_cast
  rw [mul_div_mul_right _ _ (by positivity)]

/-- The magnitude of a signed number. -/
theorem abs_signedMag (neg : Bool) (m : Nat) : |signedMag neg m| = m := by
  cases neg <;> simp [signedMag]

/-- Numbers of one sign are as far apart as their magnitudes. -/
theorem abs_signedMag_sub (neg : Bool) (a b : Nat) : |signedMag neg a - signedMag neg b| = |(a : ℤ) - b| := by
  cases neg with
  | false => rfl
  | true =>
    rw [signedMag, signedMag, if_pos rfl, if_pos rfl, neg_sub_neg, abs_sub_comm]

/-- Numbers of two signs are as far apart as the sum of their magnitudes. -/
theorem abs_signedMag_sub_not (neg : Bool) (a b : Nat) : |signedMag (!neg) a - signedMag neg b| = (a : ℤ) + b := by
  have hnonneg : (0 : ℤ) ≤ (a : ℤ) + b := by omega
  cases neg with
  | false => rw [show signedMag (!false) a - signedMag false b = -((a : ℤ) + b) by simp [signedMag]; ring, abs_neg,
      abs_of_nonneg hnonneg]
  | true => rw [show signedMag (!true) a - signedMag true b = (a : ℤ) + b by simp [signedMag], abs_of_nonneg hnonneg]

/-- The rounded magnitude is nearest among the signed magnitudes of binary32; on a tie it is even or the same. -/
theorem roundedMag_nearest (neg b : Bool) (m sh : Nat) {y : Nat} (hy : magRepresentable y = true) :
    |signedMag neg (roundedMag m sh * 2 ^ sh) - signedMag neg m| ≤ |signedMag b (y * 2 ^ sh) - signedMag neg m|
      ∧ (|signedMag b (y * 2 ^ sh) - signedMag neg m| = |signedMag neg (roundedMag m sh * 2 ^ sh) - signedMag neg m| →
          signedMag b (y * 2 ^ sh) = signedMag neg (roundedMag m sh * 2 ^ sh)
            ∨ roundEven m (2 ^ dropBits m sh) % 2 = 0) := by
  have hnear {y : Nat} (hmod : y % 2 ^ (Nat.log2 y - 23) = 0) :=
    roundEven_nearest (Nat.two_pow_pos (dropBits m sh)) (outside_gap m (sh := sh) hmod)
  rw [abs_signedMag_sub, roundedMag_mul]
  by_cases hb : b = neg
  · subst hb
    obtain ⟨hle, htie⟩ := hnear ((magRepresentable_iff y).1 hy).1
    rw [abs_signedMag_sub]
    exact ⟨hle, fun heq => (htie heq).imp_left fun h => by rw [h]⟩
  · obtain rfl : b = !neg := by cases b <;> cases neg <;> simp_all
    obtain ⟨hle, htie⟩ := hnear (y := 0) (by simp)
    rw [abs_signedMag_sub_not]
    simp only [Nat.zero_mul, Nat.cast_zero, zero_sub, abs_neg, Nat.abs_cast] at hle htie
    refine ⟨by omega, fun heq => ?_⟩
    have hzero : y * 2 ^ sh = 0 := by omega
    refine (htie (by omega)).imp_left fun h => ?_
    rw [← h, hzero]
    cases neg <;> rfl

/-- The exact value that is rounded reaches the overflow bound as its magnitude does. -/
theorem overflowBound_le_iff (neg : Bool) (m sh : Nat) :
    overflowBound ≤ |(signedMag neg m : ℚ) / 2 ^ (149 + sh)| ↔ (2 ^ 25 - 1) * 2 ^ (252 + sh) ≤ m := by
  have habs : |(signedMag neg m : ℚ) / 2 ^ (149 + sh)| = (m : ℚ) / 2 ^ (149 + sh) := by
    rw [abs_div, abs_of_pos (by positivity : (0 : ℚ) < 2 ^ (149 + sh)), ← Int.cast_abs, abs_signedMag, Int.cast_natCast]
  have hbound : overflowBound * 2 ^ (149 + sh) = (((2 ^ 25 - 1) * 2 ^ (252 + sh) : Nat) : ℚ) := by
    rw [overflowBound, mul_assoc, ← pow_add, show 103 + (149 + sh) = 252 + sh by omega]
    push_cast
    norm_num
  rw [habs, le_div_iff₀ (by positivity), hbound, Nat.cast_le]

/-- The sign of an exact value that is not 0. -/
theorem signedMag_div_neg_iff (neg : Bool) {m : Nat} (hm : m ≠ 0) (e : Nat) :
    (signedMag neg m : ℚ) / 2 ^ e < 0 ↔ neg = true := by
  have hpos : (0 : ℚ) < m := by exact_mod_cast Nat.pos_of_ne_zero hm
  rw [div_lt_iff₀ (by positivity), zero_mul]
  cases neg <;> simp [signedMag, hpos, hpos.le]

/-- `roundFlt` rounds the exact value `± m * 2^-(149 + sh)` once, to nearest, ties to even (41_echo_filter R130). -/
theorem roundsTo_roundFlt (neg : Bool) (m sh : Nat) :
    RoundsTo ((signedMag neg m : ℚ) / 2 ^ (149 + sh)) (roundFlt neg m sh) := by
  have hscale : (0 : ℚ) < 2 ^ (149 + sh) := by positivity
  rw [RoundsTo, roundFlt_eq]
  simp only [overflowBound_le_iff]
  split_ifs with hover hlt hlt
  · exact absurd (overflow_le_roundedMag hover) hlt.not_ge
  · have hm : m ≠ 0 := by
      rintro rfl
      simp at hover
    rw [decide_eq_decide.2 (signedMag_div_neg_iff neg hm _)]
    cases neg <;> rfl
  · refine ⟨magRepresentable_shifted (roundEven_le m sh) hlt, fun y hy => ?_⟩
    cases y with
    | nan | inf => cases hy
    | fin b y =>
      obtain ⟨hle, htie⟩ := roundedMag_nearest neg b m sh hy
      have hdist (c : Bool) (k : Nat) :
          |(Flt.fin c k).value - (signedMag neg m : ℚ) / 2 ^ (149 + sh)|
            = ((|signedMag c (k * 2 ^ sh) - signedMag neg m| : ℤ) : ℚ) / 2 ^ (149 + sh) := by
        rw [value_fin_shifted c k sh, ← sub_div, abs_div, abs_of_pos hscale]
        push_cast
        rfl
      rw [hdist, hdist, div_le_div_iff_of_pos_right hscale, Int.cast_le, div_left_inj' hscale.ne', Int.cast_inj]
      refine ⟨hle, fun heq => (htie heq).imp (fun hsame => ?_) (evenSignificand_of_even neg)⟩
      rw [value_fin_shifted b y sh, value_fin_shifted neg _ sh, hsame]
  · exact absurd (roundedMag_lt_of_lt (Nat.lt_of_not_le hover)) hlt

/-! ## The three operations -/

/-- A finite number is a magnitude with a sign. -/
theorem eq_fin_of_isNumber {v : Flt} (h : v.isNumber = true) : ∃ neg mag, v = .fin neg mag := by
  cases v with
  | nan | inf => cases h
  | fin neg mag => exact ⟨neg, mag, rfl⟩

theorem signedMag_mul_signedMag (x y : Bool) (p q : Nat) :
    signedMag (x != y) (p * q) = signedMag x p * signedMag y q := by
  cases x <;> cases y <;> simp [signedMag]

/-- The product is rounded once (41_echo_filter R130). -/
theorem roundsTo_fmul_fin (x y : Bool) (p q : Nat) :
    RoundsTo ((Flt.fin x p).value * (Flt.fin y q).value) (fmul (.fin x p) (.fin y q)) := by
  have hexact : (Flt.fin x p).value * (Flt.fin y q).value
      = (signedMag (x != y) (p * q) : ℚ) / 2 ^ (149 + 149) := by
    rw [value_fin, value_fin, signedMag_mul_signedMag, div_mul_div_comm, ← pow_add, Int.cast_mul]
  rw [hexact, fmul_fin]
  exact roundsTo_roundFlt _ _ _

/-- The sum is rounded once, a zero sum too (41_echo_filter R130). -/
theorem roundsTo_finSum (x y : Bool) (p q : Nat) :
    RoundsTo ((Flt.fin x p).value + (Flt.fin y q).value) (finSum x y p q) := by
  have hexact : (Flt.fin x p).value + (Flt.fin y q).value
      = ((signedMag x p + signedMag y q : ℤ) : ℚ) / 2 ^ (149 + 0) := by
    rw [value_fin, value_fin, ← add_div, Int.cast_add]
  rw [hexact, finSum]
  split_ifs with hzero
  · have hround := roundsTo_roundFlt (x && y) 0 0
    rw [roundFlt_zero] at hround
    rw [hzero]
    convert hround using 2
    cases x <;> cases y <;> rfl
  · have hround :=
      roundsTo_roundFlt (decide (signedMag x p + signedMag y q < 0)) (signedMag x p + signedMag y q).natAbs 0
    rwa [signedMag_natAbs] at hround

theorem value_fin_not (neg : Bool) (mag : Nat) : (Flt.fin (!neg) mag).value = -(Flt.fin neg mag).value := by
  cases neg <;> simp [Flt.value, neg_div]

/-- The product of two finite numbers is rounded once. -/
theorem roundsTo_fmul {p q : Flt} (hp : p.isNumber = true) (hq : q.isNumber = true) :
    RoundsTo (p.value * q.value) (fmul p q) := by
  obtain ⟨x, a, rfl⟩ := eq_fin_of_isNumber hp
  obtain ⟨y, b, rfl⟩ := eq_fin_of_isNumber hq
  exact roundsTo_fmul_fin x y a b

/-- The sum of two finite numbers is rounded once. -/
theorem roundsTo_fadd {p q : Flt} (hp : p.isNumber = true) (hq : q.isNumber = true) :
    RoundsTo (p.value + q.value) (fadd p q) := by
  obtain ⟨x, a, rfl⟩ := eq_fin_of_isNumber hp
  obtain ⟨y, b, rfl⟩ := eq_fin_of_isNumber hq
  rw [fadd_fin]
  exact roundsTo_finSum x y a b

/-- The difference of two finite numbers is rounded once. -/
theorem roundsTo_fsub {p q : Flt} (hp : p.isNumber = true) (hq : q.isNumber = true) :
    RoundsTo (p.value - q.value) (fsub p q) := by
  obtain ⟨x, a, rfl⟩ := eq_fin_of_isNumber hp
  obtain ⟨y, b, rfl⟩ := eq_fin_of_isNumber hq
  rw [fsub_fin, sub_eq_add_neg, ← value_fin_not]
  exact roundsTo_finSum x (!y) a b

/-- Settles O35: each operation on finite numbers is `roundFlt` of its exact result. -/
theorem arithmeticIsRoundedOnce : Obligations.ArithmeticIsRoundedOnce :=
  fun _ _ hp hq => ⟨roundsTo_fmul hp hq, roundsTo_fadd hp hq, roundsTo_fsub hp hq⟩

end Sys2Proof.Machine
end

section
/-! PROOFS. What bounded and what scaled coefficients make of the filter's value (41_echo_filter R134, R148). -/

namespace Sys2Proof.Machine

variable {x : ℚ} {r : Flt} {s : State}

/-! ## Consequences of rounding once -/

theorem isNumber_fneg {v : Flt} (h : v.isNumber = true) : (fneg v).isNumber = true := by
  obtain ⟨neg, mag, rfl⟩ := eq_fin_of_isNumber h
  exact h

theorem value_fneg {v : Flt} (h : v.isNumber = true) : (fneg v).value = -v.value := by
  obtain ⟨neg, mag, rfl⟩ := eq_fin_of_isNumber h
  exact value_fin_not neg mag

/-- Below the overflow bound the rounded value is a number, and a nearest one. -/
theorem RoundsTo.nearest (h : RoundsTo x r) (hx : |x| < overflowBound) :
    r.isNumber = true ∧ ∀ y : Flt, y.isNumber = true → |r.value - x| ≤ |y.value - x| := by
  rw [RoundsTo, if_neg hx.not_ge] at h
  exact ⟨h.1, fun y hy => (h.2 y hy).1⟩

/-- A number is rounded to itself. -/
theorem RoundsTo.exact (h : RoundsTo x r) (hx : |x| < overflowBound) {y : Flt} (hy : y.isNumber = true)
    (hyx : y.value = x) : r.isNumber = true ∧ r.value = x := by
  obtain ⟨hr, hnear⟩ := h.nearest hx
  have hzero := hnear y hy
  rw [hyx, sub_self, abs_zero] at hzero
  exact ⟨hr, sub_eq_zero.1 (abs_nonpos_iff.1 hzero)⟩

/-- Rounding does not pass a bound that is a number. -/
theorem RoundsTo.bounded (h : RoundsTo x r) {b : Flt} (hb : b.isNumber = true) (hx : |x| ≤ b.value)
    (hover : b.value < overflowBound) : r.isNumber = true ∧ |r.value| ≤ b.value := by
  obtain ⟨hr, hnear⟩ := h.nearest (hx.trans_lt hover)
  obtain ⟨hlo, hhi⟩ := abs_le.1 hx
  have hup := hnear b hb
  have hdown := hnear _ (isNumber_fneg hb)
  rw [value_fneg hb, abs_of_nonpos (by linarith : -b.value - x ≤ 0)] at hdown
  rw [abs_of_nonneg (by linarith : 0 ≤ b.value - x)] at hup
  have habove := le_abs_self (r.value - x)
  have hbelow := neg_abs_le (r.value - x)
  exact ⟨hr, abs_le.2 ⟨by linarith, by linarith⟩⟩

/-! ## Operands of the filter -/

theorem isNumber_coefValue (k : Coef) : (coefValue k).isNumber = true := by
  obtain ⟨neg, mag, h⟩ := exists_coefValue_fin k
  have hrep : (coefValue k).representable = true := representable_f32 _
  rw [h] at hrep ⊢
  exact hrep

theorem isNumber_zero : Flt.zero.isNumber = true := magRepresentable_of_le (Nat.zero_le _)

/-- Every coefficient the filter asks for is a number (00_scope R8(d)). -/
theorem isNumber_coefB (c : Config) (k : Nat) : (coefB c k).isNumber = true := by
  unfold coefB
  split
  · exact isNumber_coefValue _
  · exact isNumber_zero

theorem isNumber_coefA (c : Config) (j : Nat) : (coefA c j).isNumber = true := by
  unfold coefA
  split
  · exact isNumber_coefValue _
  · exact isNumber_zero

theorem value_zero : Flt.zero.value = 0 := by simp [Flt.zero, Flt.value]

/-- A Sample's magnitude as a rational (10_state R32). -/
theorem abs_toInt_le (a : Sample) : |(a.toInt : ℚ)| ≤ 2 ^ 15 := by
  rw [← Int.cast_abs, Int.abs_eq_natAbs, Int.cast_natCast]
  exact_mod_cast natAbs_toInt_le a

/-! ## Bounded coefficients -/

/-- The multiples of `2^115` that bound the sums are numbers below the overflow bound (41_echo_filter R134). -/
theorem exists_sum_bound {n : Nat} (hn : n ≤ 32) :
    ∃ b : Flt, b.isNumber = true ∧ b.value = n * 2 ^ 115 ∧ b.value < overflowBound := by
  have hvalue : (Flt.fin false (n * 2 ^ (115 + 149))).value = (n : ℚ) * 2 ^ 115 := by
    rw [Flt.value, pow_add, ← mul_assoc, Nat.cast_mul, Nat.cast_mul, Nat.cast_pow, Nat.cast_pow, Nat.cast_ofNat]
    exact mul_div_cancel_right₀ _ (by positivity)
  refine ⟨.fin false (n * 2 ^ (115 + 149)), ?_, hvalue, ?_⟩
  · rw [isNumber_fin]
    refine magRepresentable_shifted (by omega) ?_
    rw [← two_pow_mul_eq_overflow (show 13 + (115 + 149) = 277 from rfl)]
    gcongr
    omega
  · have hn' : (n : ℚ) ≤ 32 := by exact_mod_cast hn
    rw [hvalue, overflowBound]
    calc (n : ℚ) * 2 ^ 115 ≤ 32 * 2 ^ 115 := by gcongr
      _ < (2 ^ 25 - 1) * 2 ^ 103 := by norm_num

/-- A value rounded from one of magnitude `n * 2^115` at most is a number of such a magnitude. -/
theorem RoundsTo.bounded_by (h : RoundsTo x r) {n : Nat} (hn : n ≤ 32) (hx : |x| ≤ n * 2 ^ 115) :
    r.isNumber = true ∧ |r.value| ≤ n * 2 ^ 115 := by
  obtain ⟨b, hb, hvalue, hover⟩ := exists_sum_bound hn
  rw [← hvalue] at hx ⊢
  exact h.bounded hb hx hover

/-- The product of a coefficient of magnitude `2^100` at most with a Sample (41_echo_filter R134). -/
theorem fmul_toF_bounded {v : Flt} (hv : v.isNumber = true) (hle : |v.value| ≤ 2 ^ 100) (a : Sample) :
    (fmul v (toF a)).isNumber = true ∧ |(fmul v (toF a)).value| ≤ 2 ^ 115 := by
  have hround := roundsTo_fmul hv (isNumber_toF a)
  rw [value_toF] at hround
  have hexact : |v.value * (a.toInt : ℚ)| ≤ ((1 : Nat) : ℚ) * 2 ^ 115 := by
    rw [abs_mul]
    calc |v.value| * |(a.toInt : ℚ)| ≤ 2 ^ 100 * 2 ^ 15 := by gcongr; exact abs_toInt_le a
      _ = ((1 : Nat) : ℚ) * 2 ^ 115 := by norm_num
  simpa using hround.bounded_by (by decide) hexact

/-- A sum of bounded terms stays bounded by the number of its terms, by induction on it (41_echo_filter R134). -/
theorem sumTerms_bounded {term : Nat → Flt} {n : Nat} (hn : n ≤ 32)
    (h : ∀ k, k < n → (term k).isNumber = true ∧ |(term k).value| ≤ 2 ^ 115) :
    (sumTerms term n).isNumber = true ∧ |(sumTerms term n).value| ≤ n * 2 ^ 115 := by
  induction n with
  | zero => exact ⟨isNumber_zero, by simp [sumTerms, value_zero]⟩
  | succ n ih =>
    obtain ⟨hsum, hsum'⟩ := ih (by omega) fun k hk => h k (by omega)
    obtain ⟨hterm, hterm'⟩ := h n (by omega)
    refine (roundsTo_fadd hsum hterm).bounded_by hn ((abs_add_le _ _).trans ?_)
    push_cast
    linarith

/-- With bounded coefficients the filter's value is a number, at every frame of every state (41_echo_filter R134). -/
theorem isNumber_filterValue_of_bounded (hc : s.cfg.wellFormed = true)
    (hb : ∀ k, k ≤ s.cfg.m → |(coefB s.cfg k).value| ≤ 2 ^ 100)
    (ha : ∀ j, j < s.cfg.n → |(coefA s.cfg j).value| ≤ 2 ^ 100) (n : Nat) (ch : Channel) :
    (s.filterValue n ch).isNumber = true := by
  obtain ⟨-, -, -, -, -, hm15, hn16, -⟩ := (Config.wellFormed_iff s.cfg).1 hc
  obtain ⟨hin, hin'⟩ := sumTerms_bounded (term := fun k => fmul (coefB s.cfg k) (toF (s.tapX n k ch)))
    (n := s.cfg.m + 1) (by omega) fun k hk => fmul_toF_bounded (isNumber_coefB _ k) (hb k (by omega)) _
  obtain ⟨hout, hout'⟩ := sumTerms_bounded (term := fun j => fmul (coefA s.cfg j) (toF (s.tapY n (j + 1) ch)))
    (n := s.cfg.n) (by omega) fun j hj => fmul_toF_bounded (isNumber_coefA _ j) (ha j hj) _
  have hcount : s.cfg.m + 1 + s.cfg.n ≤ 32 := by omega
  refine ((roundsTo_fsub hin hout).bounded_by hcount ((abs_sub _ _).trans ?_)).1
  push_cast at hin' ⊢
  linarith

/-- A number is no NaN. -/
theorem isNaN_of_isNumber {v : Flt} (h : v.isNumber = true) : v.isNaN = false := by
  obtain ⟨neg, mag, rfl⟩ := eq_fin_of_isNumber h
  rfl

/-- Settles O33: products are bounded by `2^115`, sums by as many times that as they have terms; and the frame's two
channels are computed in states of one configuration. -/
theorem boundedCoefficientsNeverGiveNaN : Obligations.BoundedCoefficientsNeverGiveNaN := by
  intro s hc hb ha
  refine ⟨isNumber_filterValue_of_bounded hc hb ha, ?_⟩
  cases hbusy : s.busy with
  | false => rw [engineStep_of_idle s hbusy]
  | true =>
    obtain ⟨u, hu⟩ : ∃ u, computeChannel s.frame .left s = u := ⟨_, rfl⟩
    have hcfg : u.cfg = s.cfg := by rw [← hu, computeChannel_cfg]
    have hleft := isNaN_of_isNumber (isNumber_filterValue_of_bounded hc hb ha s.frame .left)
    have hright : (u.filterValue s.frame .right).isNaN = false :=
      isNaN_of_isNumber (isNumber_filterValue_of_bounded (hcfg ▸ hc) (hcfg ▸ hb) (hcfg ▸ ha) s.frame .right)
    have hnanf : (computeFrame s.frame s).nanf = s.nanf := by
      rw [computeFrame, hu, computeChannel_nanf, hright, ← hu, computeChannel_nanf, hleft, Bool.or_false, Bool.or_false]
    rw [engineStep_of_busy s hbusy]
    exact hnanf

/-! ## Scaled coefficients -/

/-- `x` is an integer multiple of `2^-q` (41_echo_filter R148). -/
def ScaledBy (q : Nat) (x : ℚ) : Prop := ∃ z : ℤ, x * 2 ^ q = z

theorem ScaledBy.add {q : Nat} {y : ℚ} (hx : ScaledBy q x) (hy : ScaledBy q y) : ScaledBy q (x + y) := by
  obtain ⟨a, ha⟩ := hx
  obtain ⟨b, hb⟩ := hy
  exact ⟨a + b, by rw [add_mul, ha, hb, Int.cast_add]⟩

theorem ScaledBy.sub {q : Nat} {y : ℚ} (hx : ScaledBy q x) (hy : ScaledBy q y) : ScaledBy q (x - y) := by
  obtain ⟨a, ha⟩ := hx
  obtain ⟨b, hb⟩ := hy
  exact ⟨a - b, by rw [sub_mul, ha, hb, Int.cast_sub]⟩

theorem ScaledBy.mul_int {q : Nat} (hx : ScaledBy q x) (z : ℤ) : ScaledBy q (x * z) := by
  obtain ⟨a, ha⟩ := hx
  exact ⟨a * z, by rw [mul_right_comm, ha, Int.cast_mul]⟩

theorem ScaledBy.sum {q : Nat} {t : Nat → ℚ} {n : Nat} (h : ∀ k, k < n → ScaledBy q (t k)) :
    ScaledBy q (∑ k ∈ Finset.range n, t k) := by
  induction n with
  | zero => exact ⟨0, by simp⟩
  | succ n ih =>
    rw [Finset.sum_range_succ]
    exact (ih fun k hk => h k (by omega)).add (h n (by omega))

/-- A multiple of `2^-q` of magnitude `2^(24-q)` at most is rounded to itself (41_echo_filter R148). -/
theorem RoundsTo.exact_of_scaled (h : RoundsTo x r) {q : Nat} (hq : q ≤ 100) (hx : ScaledBy q x)
    (hle : |x| * 2 ^ q ≤ 2 ^ 24) : r.isNumber = true ∧ r.value = x := by
  have hpos : (0 : ℚ) < 2 ^ q := by positivity
  obtain ⟨z, hz⟩ := hx
  have hz' : |z| ≤ 2 ^ 24 := by
    rw [← abs_of_pos hpos, ← abs_mul, hz] at hle
    exact_mod_cast hle
  obtain ⟨y, hy, hyz⟩ := exists_number_of_scaled hz' (show q ≤ 149 by omega)
  refine h.exact ?_ hy (by rw [hyz, ← hz, mul_div_cancel_right₀ _ hpos.ne'])
  calc |x| ≤ |x| * 2 ^ q := le_mul_of_one_le_right (abs_nonneg x) (one_le_pow₀ (by norm_num))
    _ ≤ 2 ^ 24 := hle
    _ < overflowBound := by rw [overflowBound]; norm_num

/-- A sum of numbers that are multiples of `2^-q` and small together is exact, by induction on the number of terms
(41_echo_filter R148). -/
theorem sumTerms_exact {term : Nat → Flt} {t : Nat → ℚ} {q n : Nat} (hq : q ≤ 100)
    (hterm : ∀ k, k < n → (term k).isNumber = true ∧ (term k).value = t k) (hscaled : ∀ k, k < n → ScaledBy q (t k))
    (hle : (∑ k ∈ Finset.range n, |t k|) * 2 ^ q ≤ 2 ^ 24) :
    (sumTerms term n).isNumber = true ∧ (sumTerms term n).value = ∑ k ∈ Finset.range n, t k := by
  induction n with
  | zero => exact ⟨isNumber_zero, by simp [sumTerms, value_zero]⟩
  | succ n ih =>
    have hmono : (∑ k ∈ Finset.range n, |t k|) * 2 ^ q ≤ 2 ^ 24 := by
      refine le_trans ?_ hle
      rw [Finset.sum_range_succ]
      gcongr
      exact le_add_of_nonneg_right (abs_nonneg _)
    obtain ⟨hsum, hsum'⟩ := ih (fun k hk => hterm k (by omega)) (fun k hk => hscaled k (by omega)) hmono
    obtain ⟨hlast, hlast'⟩ := hterm n (by omega)
    have hround := roundsTo_fadd hsum hlast
    rw [hsum', hlast', ← Finset.sum_range_succ] at hround
    refine hround.exact_of_scaled hq (ScaledBy.sum hscaled) (le_trans ?_ hle)
    gcongr
    exact Finset.abs_sum_le_sum_abs _ _

/-- The product of a coefficient that is a multiple of `2^-q` with a Sample is exact (41_echo_filter R148). -/
theorem fmul_toF_exact {v : Flt} (hv : v.isNumber = true) {q : Nat} (hq : q ≤ 100) (hscaled : ScaledBy q v.value)
    (hle : |v.value| * 2 ^ q ≤ 512) (a : Sample) :
    (fmul v (toF a)).isNumber = true ∧ (fmul v (toF a)).value = v.value * (a.toInt : ℚ) := by
  have hround := roundsTo_fmul hv (isNumber_toF a)
  rw [value_toF] at hround
  refine hround.exact_of_scaled hq (hscaled.mul_int _) ?_
  rw [abs_mul]
  calc |v.value| * |(a.toInt : ℚ)| * 2 ^ q = |v.value| * 2 ^ q * |(a.toInt : ℚ)| := by ring
    _ ≤ 512 * 2 ^ 15 := mul_le_mul hle (abs_toInt_le a) (abs_nonneg _) (by norm_num)
    _ = 2 ^ 24 := by norm_num

/-- The terms of a sum are its coefficients times Samples, so together at most `2^15` times as large. -/
theorem sum_abs_mul_toInt_le (b : Nat → ℚ) (x : Nat → Sample) (n : Nat) :
    (∑ k ∈ Finset.range n, |b k * ((x k).toInt : ℚ)|) ≤ (∑ k ∈ Finset.range n, |b k|) * 2 ^ 15 := by
  rw [Finset.sum_mul]
  refine Finset.sum_le_sum fun k _ => ?_
  rw [abs_mul]
  gcongr
  exact abs_toInt_le _

/-- A weighted sum of Samples with scaled coefficients is exact (41_echo_filter R148). -/
theorem sumTerms_fmul_exact {coef : Nat → Flt} (x : Nat → Sample) {q n : Nat} (hq : q ≤ 100)
    (hcoef : ∀ k, (coef k).isNumber = true) (hscaled : ∀ k, k < n → ScaledBy q (coef k).value)
    (hle : (∑ k ∈ Finset.range n, |(coef k).value|) * 2 ^ q ≤ 512) :
    (sumTerms (fun k => fmul (coef k) (toF (x k))) n).isNumber = true
      ∧ (sumTerms (fun k => fmul (coef k) (toF (x k))) n).value
        = ∑ k ∈ Finset.range n, (coef k).value * ((x k).toInt : ℚ) := by
  have hone (k : Nat) (hk : k < n) : |(coef k).value| * 2 ^ q ≤ 512 := by
    refine le_trans ?_ hle
    gcongr
    exact Finset.single_le_sum (f := fun k => |(coef k).value|) (fun _ _ => abs_nonneg _) (Finset.mem_range.2 hk)
  refine sumTerms_exact hq (fun k hk => fmul_toF_exact (hcoef k) hq (hscaled k hk) (hone k hk) (x k))
    (fun k hk => (hscaled k hk).mul_int _) ?_
  calc (∑ k ∈ Finset.range n, |(coef k).value * ((x k).toInt : ℚ)|) * 2 ^ q
      ≤ (∑ k ∈ Finset.range n, |(coef k).value|) * 2 ^ 15 * 2 ^ q := by
        gcongr
        exact sum_abs_mul_toInt_le _ x n
    _ = (∑ k ∈ Finset.range n, |(coef k).value|) * 2 ^ q * 2 ^ 15 := by ring
    _ ≤ 512 * 2 ^ 15 := by gcongr
    _ = 2 ^ 24 := by norm_num

/-- Settles O34: both sums are exact, and so is their difference, for together they are small. -/
theorem scaledCoefficientsAreExact : Obligations.ScaledCoefficientsAreExact := by
  intro s q _ hq hb ha hle n ch
  have hbsum : (0 : ℚ) ≤ ∑ k ∈ Finset.range (s.cfg.m + 1), |(coefB s.cfg k).value| := by positivity
  have hasum : (0 : ℚ) ≤ ∑ j ∈ Finset.range s.cfg.n, |(coefA s.cfg j).value| := by positivity
  have hb' (k : Nat) (hk : k < s.cfg.m + 1) : ScaledBy q (coefB s.cfg k).value := hb k (by omega)
  have hbterms (k : Nat) (hk : k < s.cfg.m + 1) := (hb' k hk).mul_int (s.tapX n k ch).toInt
  have haterms (j : Nat) (hj : j < s.cfg.n) := ScaledBy.mul_int (ha j hj) (s.tapY n (j + 1) ch).toInt
  obtain ⟨hin, hin'⟩ := sumTerms_fmul_exact (fun k => s.tapX n k ch) hq (isNumber_coefB s.cfg) hb'
    (le_trans (by gcongr; exact le_add_of_nonneg_right hasum) hle)
  obtain ⟨hout, hout'⟩ := sumTerms_fmul_exact (fun j => s.tapY n (j + 1) ch) hq (isNumber_coefA s.cfg) ha
    (le_trans (by gcongr; exact le_add_of_nonneg_left hbsum) hle)
  have hround := roundsTo_fsub hin hout
  rw [hin', hout'] at hround
  refine hround.exact_of_scaled hq ((ScaledBy.sum hbterms).sub (ScaledBy.sum haterms)) ?_
  calc |(∑ k ∈ Finset.range (s.cfg.m + 1), (coefB s.cfg k).value * ((s.tapX n k ch).toInt : ℚ))
          - ∑ j ∈ Finset.range s.cfg.n, (coefA s.cfg j).value * ((s.tapY n (j + 1) ch).toInt : ℚ)| * 2 ^ q
      ≤ ((∑ k ∈ Finset.range (s.cfg.m + 1), |(coefB s.cfg k).value|) * 2 ^ 15
          + (∑ j ∈ Finset.range s.cfg.n, |(coefA s.cfg j).value|) * 2 ^ 15) * 2 ^ q := by
        gcongr
        refine (abs_sub _ _).trans (add_le_add ?_ ?_)
        · exact (Finset.abs_sum_le_sum_abs _ _).trans (sum_abs_mul_toInt_le _ (fun k => s.tapX n k ch) _)
        · exact (Finset.abs_sum_le_sum_abs _ _).trans (sum_abs_mul_toInt_le _ (fun j => s.tapY n (j + 1) ch) _)
    _ = ((∑ k ∈ Finset.range (s.cfg.m + 1), |(coefB s.cfg k).value|)
          + ∑ j ∈ Finset.range s.cfg.n, |(coefA s.cfg j).value|) * 2 ^ q * 2 ^ 15 := by ring
    _ ≤ 512 * 2 ^ 15 := by gcongr
    _ = 2 ^ 24 := by norm_num

end Sys2Proof.Machine
end
